-- ==== Sys2Proof/Word.lean ====
section
/-! DEFINITION. The widths of the block's values (spec/00_scope.md R7, R8; spec/10_state.md R21, R31). -/

namespace Sys2Proof

/-- A byte (octet), the unit of every stream: `BYTE_W` = 8 (R7, R8). -/
abbrev Byte := BitVec 8

/-- A u16: every CRC value (`CRC_W` = 16) and the announced argument length (`ARGS_LEN_W` = 16) (R7, R8). -/
abbrev U16 := BitVec 16

/-- The receive byte counter, `RX_CNT_W` = 11 bits (R7, R25). -/
abbrev Cnt := BitVec 11

end Sys2Proof
end

