-- ==== Sys2Proof/Config.lean ====
section
/-! DEFINITION. The constants of the block in one configuration record (spec/00_scope.md R6, R7). -/

namespace Sys2Proof

/-- The literals of R6 and the buffer depth of R7. The widths of R7 are the types of Word.lean. -/
structure Params where
  /-- `CRC_POLY`, the reflected polynomial -/
  crcPoly : U16
  /-- `CRC_INIT`, the accumulator's initial value -/
  crcInit : U16
  /-- `CRC_XOROUT`, the final exclusive-or -/
  crcXorOut : U16
  /-- `MARK_TEXT`, opens a text block -/
  markText : Byte
  /-- `TEXT_END`, ends a text block -/
  textEnd : Byte
  /-- `MARK_BIN`, opens a binary frame -/
  markBin : Byte
  /-- `TEXT_CAP`, cap in bytes on the accumulated text body -/
  textCap : Nat
  /-- `LEN_MAX`, largest `len(opcode ++ args)` the encoder accepts -/
  lenMax : Nat
  /-- `ARGS_MAX`, largest `len(args)` the encoder accepts -/
  argsMax : Nat
  /-- `TRAILER_LEN`, bytes of checksum after the block -/
  trailerLen : Nat
  /-- `RX_BUF_DEPTH`, bytes of the receive buffer (R7, D7) -/
  rxBufDepth : Nat
  deriving DecidableEq, Repr

/-- The values R6 and R7 give; the rules are stated for these (D23; log entry 16). -/
abbrev params : Params where
  crcPoly := 0xA001
  crcInit := 0xFFFF
  crcXorOut := 0x0000
  markText := 0x02
  textEnd := 0x03
  markBin := 0xFF
  textCap := 1024
  lenMax := 255
  argsMax := 254
  trailerLen := 2
  rxBufDepth := 1024

@[simp] theorem params_crcPoly : params.crcPoly = 0xA001#16 := rfl
@[simp] theorem params_crcInit : params.crcInit = 0xFFFF#16 := rfl
@[simp] theorem params_crcXorOut : params.crcXorOut = 0#16 := rfl
@[simp] theorem params_markText : params.markText = 0x02#8 := rfl
@[simp] theorem params_textEnd : params.textEnd = 0x03#8 := rfl
@[simp] theorem params_markBin : params.markBin = 0xFF#8 := rfl
@[simp] theorem params_textCap : params.textCap = 1024 := rfl
@[simp] theorem params_lenMax : params.lenMax = 255 := rfl
@[simp] theorem params_argsMax : params.argsMax = 254 := rfl
@[simp] theorem params_trailerLen : params.trailerLen = 2 := rfl
@[simp] theorem params_rxBufDepth : params.rxBufDepth = 1024 := rfl

/-- What a byte of `rx_buf` that nothing has written reads as. R28 and U2 leave it open and let a model zero it.
DESIGN CHOICE (log entry 4), unsafe: no rule reads such a byte. -/
def bufUnwritten : Byte := 0

end Sys2Proof
end

