-- ==== Sys2Proof/Syntax.lean ====
section
/-! DEFINITION. The operations of the block, one constructor per row of spec/opcode_table.json, the names of agents
and states, and the inputs that select an operation (spec/30_encoding.md R80 to R83, R88, R89). -/

namespace Sys2Proof

/-- The three agents (10_state.md R20). -/
inductive Agent where
  | rx
  | tx
  | g
  deriving DecidableEq, Repr

/-- The decoder's stored states (10_state.md R22). -/
inductive RxState where
  | awaitingMarker
  | textBody
  | binaryLength
  | binaryPayload
  deriving DecidableEq, Repr

/-- The encoder's six states (10_state.md R32); codes 6 and 7 cannot be written down (U6). -/
inductive TxState where
  | idle
  | len
  | opcode
  | args
  | crcHi
  | crcLo
  deriving DecidableEq, Repr

/-- An operation: one row of the table with its operands. An operand that the row fixes (the byte of
`RX.MARK_TEXT`, `RX.MARK_BIN`, `RX.TEXT_END`) is not an argument. -/
inductive Instr where
  /-- `CRCSTEP`, R101 -/
  | crcStep (c : U16) (b : Byte)
  /-- `CRC16`, R102 -/
  | crc16 (bytes : List Byte)
  /-- `ENCODE`, R150 -/
  | encode (op : Byte) (args : List Byte)
  /-- `G.INIT`, R105 -/
  | gInit
  /-- `G.UPDATE`, R106 -/
  | gUpdate (b : Byte)
  /-- `RX.MARK_TEXT`, R121 -/
  | rxMarkText
  /-- `RX.MARK_BIN`, R122 -/
  | rxMarkBin
  /-- `RX.MARK_BAD`, R123 -/
  | rxMarkBad (b : Byte)
  /-- `RX.TEXT_DATA`, R124 -/
  | rxTextData (b : Byte)
  /-- `RX.TEXT_END`, R125 -/
  | rxTextEnd
  /-- `RX.TEXT_TRUNC`, R126 -/
  | rxTextTrunc (b : Byte)
  /-- `RX.LEN`, R127 -/
  | rxLen (n : Byte)
  /-- `RX.BIN_DATA`, R128 -/
  | rxBinData (b : Byte)
  /-- `RX.BIN_CRC_HI`, R129 -/
  | rxBinCrcHi (b : Byte)
  /-- `RX.BIN_CRC_LO`, R130 -/
  | rxBinCrcLo (b : Byte)
  /-- `TX.CMD`, R152 -/
  | txCmd (op : Byte) (argsLen : U16)
  /-- `TX.REJECT`, R158 -/
  | txReject (op : Byte) (argsLen : U16)
  /-- `TX.LEN`, R153 -/
  | txLen
  /-- `TX.OPCODE`, R154 -/
  | txOpcode
  /-- `TX.ARG`, R155 -/
  | txArg (a : Byte)
  /-- `TX.CRC_HI`, R156 -/
  | txCrcHi
  /-- `TX.CRC_LO`, R157 -/
  | txCrcLo
  /-- `SYS.RESET`, R180 -/
  | sysReset
  /-- `SYS.CLOSE`, R181 -/
  | sysClose
  /-- `IDLE`, R185, for one agent -/
  | idle (a : Agent)
  /-- `FRAME.GetStatus`, R88 -/
  | frameGetStatus
  /-- `FRAME.Start`, R88 -/
  | frameStart
  /-- `FRAME.Delete`, R88 -/
  | frameDelete
  /-- `FRAME.SendData`, R88 -/
  | frameSendData
  /-- `FRAME.ReceiveError`, R88 -/
  | frameReceiveError
  /-- `FRAME.DataFromTask`, R88 -/
  | frameDataFromTask
  deriving DecidableEq, Repr

/-- The values of the input ports in one clock cycle (10_state.md R35 to R38). -/
structure InPins where
  rst : Bool
  linkClose : Bool
  rxValid : Bool
  rxData : Byte
  txCmdValid : Bool
  txCmdOpcode : Byte
  txCmdArgsLen : U16
  txArgValid : Bool
  txArgData : Byte
  txOutReady : Bool
  gInit : Bool
  gEn : Bool
  gData : Byte
  deriving DecidableEq, Repr

/-- A cycle in which nothing is presented. -/
def InPins.quiet : InPins where
  rst := false
  linkClose := false
  rxValid := false
  rxData := 0
  txCmdValid := false
  txCmdOpcode := 0
  txCmdArgsLen := 0
  txArgValid := false
  txArgData := 0
  txOutReady := false
  gInit := false
  gEn := false
  gData := 0

/-- One item of the input script. Only `clock` is made of the block's ports. The others let a script name a row
that no port selects: a `function` row with its operands (log entry 10), or a received byte that is to
be read through R88's list of opcode names (log entry 12). -/
inductive Item where
  /-- one clock edge with these port values -/
  | clock (p : InPins)
  /-- an application of the function `CRCSTEP` -/
  | crcStep (c : U16) (b : Byte)
  /-- an application of the function `CRC16` -/
  | crc16 (bytes : List Byte)
  /-- an application of the function `ENCODE` -/
  | encode (op : Byte) (args : List Byte)
  /-- a received byte that, where it is a frame's opcode, is named by R88's list -/
  | opcode (b : Byte)
  deriving DecidableEq, Repr

end Sys2Proof
end

