-- ==== Sys2Proof/WellFormed.lean ====
section
/-! DEFINITION. Which operands an operation may have (spec/30_encoding.md R80, R81). -/

namespace Sys2Proof

/-- The operand conditions of the operation tables (R80, R81): a marker row's excluded bytes, a text byte that is not
the terminator, the encoder's length limit. Every other operand is unrestricted (R84 (b)). -/
def Instr.wellFormed : Instr → Bool
  | .crcStep _ _ => true
  | .crc16 _ => true
  | .encode _ _ => true
  | .gInit => true
  | .gUpdate _ => true
  | .rxMarkText => true
  | .rxMarkBin => true
  | .rxMarkBad b => b != params.markText && b != params.markBin
  | .rxTextData b => b != params.textEnd
  | .rxTextEnd => true
  | .rxTextTrunc b => b != params.textEnd
  | .rxLen _ => true
  | .rxBinData _ => true
  | .rxBinCrcHi _ => true
  | .rxBinCrcLo _ => true
  | .txCmd _ l => decide (l.toNat ≤ params.argsMax)
  | .txReject _ l => decide (params.argsMax < l.toNat)
  | .txLen => true
  | .txOpcode => true
  | .txArg _ => true
  | .txCrcHi => true
  | .txCrcLo => true
  | .sysReset => true
  | .sysClose => true
  | .idle _ => true
  | .frameGetStatus => true
  | .frameStart => true
  | .frameDelete => true
  | .frameSendData => true
  | .frameReceiveError => true
  | .frameDataFromTask => true

end Sys2Proof
end

