-- ==== Sys2Proof/Decode.lean ====
section
/-! DEFINITION. The decoder, total on every script item in every state, rejecting by name, and the encoder: which
operations the port values of a cycle select, and which port values select an operation (spec/30_encoding.md R80 to
R83, R88, R89). -/

namespace Sys2Proof

/-- The registers that selection reads: the columns 'rx_state', 'tx_state' and the counters of R80 and R81, and
`tx_rem`, which R45 (c) keeps at 1 or more in `TxArgs`. -/
structure View where
  rxState : RxState
  rxLen : Byte
  rxCnt : Cnt
  txState : TxState
  txRem : Byte
  deriving DecidableEq, Repr

/-- `rx_state == BinaryPayload`, `rx_cnt == 0` and `rx_len >= 1`: the next byte received is a frame's opcode (R128). -/
def View.atOpcode (v : View) : Bool :=
  v.rxState == .binaryPayload && v.rxCnt == 0 && v.rxLen != 0

/-- The state part of an operation's encoding, row by row (R80, R81). The counter sums are exact (R136). An operation
with no state condition is enabled in every state. -/
def Instr.enabledIn (v : View) : Instr → Bool
  | .crcStep _ _ => true
  | .crc16 _ => true
  | .encode _ _ => true
  | .gInit => true
  | .gUpdate _ => true
  | .rxMarkText => v.rxState == .awaitingMarker
  | .rxMarkBin => v.rxState == .awaitingMarker
  | .rxMarkBad _ => v.rxState == .awaitingMarker
  | .rxTextData _ => v.rxState == .textBody && decide (v.rxCnt.toNat + 1 < params.textCap)
  | .rxTextEnd => v.rxState == .textBody
  | .rxTextTrunc _ => v.rxState == .textBody && decide (v.rxCnt.toNat + 1 = params.textCap)
  | .rxLen _ => v.rxState == .binaryLength
  | .rxBinData _ => v.rxState == .binaryPayload && decide (v.rxCnt.toNat < v.rxLen.toNat)
  | .rxBinCrcHi _ => v.rxState == .binaryPayload && decide (v.rxCnt.toNat = v.rxLen.toNat)
  | .rxBinCrcLo _ => v.rxState == .binaryPayload && decide (v.rxCnt.toNat = v.rxLen.toNat + 1)
  | .txCmd _ _ => v.txState == .idle
  | .txReject _ _ => v.txState == .idle
  | .txLen => v.txState == .len
  | .txOpcode => v.txState == .opcode
  | .txArg _ => v.txState == .args && v.txRem != 0
  | .txCrcHi => v.txState == .crcHi
  | .txCrcLo => v.txState == .crcLo
  | .sysReset => true
  | .sysClose => true
  | .idle _ => true
  | .frameGetStatus => v.atOpcode
  | .frameStart => v.atOpcode
  | .frameDelete => v.atOpcode
  | .frameSendData => v.atOpcode
  | .frameReceiveError => v.atOpcode
  | .frameDataFromTask => v.atOpcode

/-- Why no operation is selected. -/
inductive DecodeError where
  /-- a received byte meets register values that no row of R80 covers; R29 excludes them (U5) -/
  | rxNoRow
  /-- an argument byte is taken in `TxArgs` with `tx_rem == 0`; R45 (c) excludes it (U5) -/
  | txNoRow
  deriving DecidableEq, Repr

/-- R80: the decoder's operation for a received byte. The terminator test precedes the cap test (R198 (c)). -/
def selectRx (v : View) (b : Byte) : Except DecodeError Instr :=
  match v.rxState with
  | .awaitingMarker =>
    if b = params.markText then .ok .rxMarkText
    else if b = params.markBin then .ok .rxMarkBin
    else .ok (.rxMarkBad b)
  | .textBody =>
    if b = params.textEnd then .ok .rxTextEnd
    else if v.rxCnt.toNat + 1 < params.textCap then .ok (.rxTextData b)
    else if v.rxCnt.toNat + 1 = params.textCap then .ok (.rxTextTrunc b)
    else .error .rxNoRow
  | .binaryLength => .ok (.rxLen b)
  | .binaryPayload =>
    if v.rxCnt.toNat < v.rxLen.toNat then .ok (.rxBinData b)
    else if v.rxCnt.toNat = v.rxLen.toNat then .ok (.rxBinCrcHi b)
    else if v.rxCnt.toNat = v.rxLen.toNat + 1 then .ok (.rxBinCrcLo b)
    else .error .rxNoRow

/-- R81: the encoder's operation in a cycle without `rst` and `link_close`; `IDLE` when the enabling condition of its
state does not hold (R185). -/
def selectTx (v : View) (p : InPins) : Except DecodeError Instr :=
  match v.txState with
  | .idle =>
    if p.txCmdValid then
      if p.txCmdArgsLen.toNat ≤ params.argsMax then .ok (.txCmd p.txCmdOpcode p.txCmdArgsLen)
      else .ok (.txReject p.txCmdOpcode p.txCmdArgsLen)
    else .ok (.idle .tx)
  | .len => if p.txOutReady then .ok .txLen else .ok (.idle .tx)
  | .opcode => if p.txOutReady then .ok .txOpcode else .ok (.idle .tx)
  | .args =>
    if p.txOutReady && p.txArgValid then
      if v.txRem = 0 then .error .txNoRow else .ok (.txArg p.txArgData)
    else .ok (.idle .tx)
  | .crcHi => if p.txOutReady then .ok .txCrcHi else .ok (.idle .tx)
  | .crcLo => if p.txOutReady then .ok .txCrcLo else .ok (.idle .tx)

/-- R82: the CRC port's operation in a cycle without `rst`; none when neither input is 1. -/
def selectG (p : InPins) : Option Instr :=
  if p.gInit then some .gInit
  else if p.gEn then some (.gUpdate p.gData)
  else none

/-- R83, R198 (a): `rst` over `link_close` over data. With `link_close` only G goes on; otherwise each agent has one
operation, `IDLE` where its step condition does not hold (R185). -/
def decodeClock (v : View) (p : InPins) : Except DecodeError (List Instr) :=
  if p.rst then .ok [.sysReset]
  else if p.linkClose then .ok (.sysClose :: (selectG p).toList)
  else
    match (if p.rxValid then selectRx v p.rxData else .ok (.idle .rx)), selectTx v p with
    | .ok rx, .ok tx => .ok [rx, tx, (selectG p).getD (.idle .g)]
    | .error e, _ => .error e
    | .ok _, .error e => .error e

/-- R88's list: the informative name of an opcode byte. Every other value is a plain block byte (R84 (b)). -/
def nameOpcode (b : Byte) : Instr :=
  if b = 0x01 then .frameGetStatus
  else if b = 0x02 then .frameStart
  else if b = 0x03 then .frameDelete
  else if b = 0x04 then .frameSendData
  else if b = 0x07 then .frameDataFromTask
  else if b = 0xFE then .frameReceiveError
  else .rxBinData b

/-- A cycle that presents one received byte and nothing else (R35). -/
def rxCycle (b : Byte) : InPins := { InPins.quiet with rxValid := true, rxData := b }

/-- The operations a script item selects, in the order in which the model runs them (no result depends on that order,
R61). A byte named as an opcode where the next byte is not one is a received byte like any other (R80). -/
def decode (v : View) : Item → Except DecodeError (List Instr)
  | .clock p => decodeClock v p
  | .crcStep c b => .ok [.crcStep c b]
  | .crc16 s => .ok [.crc16 s]
  | .encode op args => .ok [.encode op args]
  | .opcode b => if v.atOpcode then .ok [nameOpcode b, .idle .tx, .idle .g] else decodeClock v (rxCycle b)

/-- A cycle that presents one encoder command and nothing else (R36). -/
def cmdCycle (op : Byte) (argsLen : U16) : InPins :=
  { InPins.quiet with txCmdValid := true, txCmdOpcode := op, txCmdArgsLen := argsLen }

/-- A cycle in which the output is ready and nothing else is presented (R36). -/
def readyCycle : InPins := { InPins.quiet with txOutReady := true }

/-- A cycle in which the output is ready and an argument byte is presented (R36). -/
def argCycle (a : Byte) : InPins :=
  { InPins.quiet with txOutReady := true, txArgValid := true, txArgData := a }

/-- The encoder of operations: an item that selects `i` in a state that enables it (R80 to R83, R88). -/
def encode : Instr → Item
  | .crcStep c b => .crcStep c b
  | .crc16 s => .crc16 s
  | .encode op args => .encode op args
  | .gInit => .clock { InPins.quiet with gInit := true }
  | .gUpdate b => .clock { InPins.quiet with gEn := true, gData := b }
  | .rxMarkText => .clock (rxCycle params.markText)
  | .rxMarkBin => .clock (rxCycle params.markBin)
  | .rxMarkBad b => .clock (rxCycle b)
  | .rxTextData b => .clock (rxCycle b)
  | .rxTextEnd => .clock (rxCycle params.textEnd)
  | .rxTextTrunc b => .clock (rxCycle b)
  | .rxLen n => .clock (rxCycle n)
  | .rxBinData b => .clock (rxCycle b)
  | .rxBinCrcHi b => .clock (rxCycle b)
  | .rxBinCrcLo b => .clock (rxCycle b)
  | .txCmd op l => .clock (cmdCycle op l)
  | .txReject op l => .clock (cmdCycle op l)
  | .txLen => .clock readyCycle
  | .txOpcode => .clock readyCycle
  | .txArg a => .clock (argCycle a)
  | .txCrcHi => .clock readyCycle
  | .txCrcLo => .clock readyCycle
  | .sysReset => .clock { InPins.quiet with rst := true }
  | .sysClose => .clock { InPins.quiet with linkClose := true }
  | .idle _ => .clock InPins.quiet
  | .frameGetStatus => .opcode 0x01
  | .frameStart => .opcode 0x02
  | .frameDelete => .opcode 0x03
  | .frameSendData => .opcode 0x04
  | .frameReceiveError => .opcode 0xFE
  | .frameDataFromTask => .opcode 0x07

/-- What a cycle that is there for `i` alone runs: `i` in its agent's place and the other agents idle. -/
def Instr.alone : Instr → List Instr
  | .crcStep c b => [.crcStep c b]
  | .crc16 s => [.crc16 s]
  | .encode op args => [.encode op args]
  | .gInit => [.idle .rx, .idle .tx, .gInit]
  | .gUpdate b => [.idle .rx, .idle .tx, .gUpdate b]
  | .rxMarkText => [.rxMarkText, .idle .tx, .idle .g]
  | .rxMarkBin => [.rxMarkBin, .idle .tx, .idle .g]
  | .rxMarkBad b => [.rxMarkBad b, .idle .tx, .idle .g]
  | .rxTextData b => [.rxTextData b, .idle .tx, .idle .g]
  | .rxTextEnd => [.rxTextEnd, .idle .tx, .idle .g]
  | .rxTextTrunc b => [.rxTextTrunc b, .idle .tx, .idle .g]
  | .rxLen n => [.rxLen n, .idle .tx, .idle .g]
  | .rxBinData b => [.rxBinData b, .idle .tx, .idle .g]
  | .rxBinCrcHi b => [.rxBinCrcHi b, .idle .tx, .idle .g]
  | .rxBinCrcLo b => [.rxBinCrcLo b, .idle .tx, .idle .g]
  | .txCmd op l => [.idle .rx, .txCmd op l, .idle .g]
  | .txReject op l => [.idle .rx, .txReject op l, .idle .g]
  | .txLen => [.idle .rx, .txLen, .idle .g]
  | .txOpcode => [.idle .rx, .txOpcode, .idle .g]
  | .txArg a => [.idle .rx, .txArg a, .idle .g]
  | .txCrcHi => [.idle .rx, .txCrcHi, .idle .g]
  | .txCrcLo => [.idle .rx, .txCrcLo, .idle .g]
  | .sysReset => [.sysReset]
  | .sysClose => [.sysClose]
  | .idle _ => [.idle .rx, .idle .tx, .idle .g]
  | .frameGetStatus => [.frameGetStatus, .idle .tx, .idle .g]
  | .frameStart => [.frameStart, .idle .tx, .idle .g]
  | .frameDelete => [.frameDelete, .idle .tx, .idle .g]
  | .frameSendData => [.frameSendData, .idle .tx, .idle .g]
  | .frameReceiveError => [.frameReceiveError, .idle .tx, .idle .g]
  | .frameDataFromTask => [.frameDataFromTask, .idle .tx, .idle .g]

/-- Is `b` one of R88's opcode values whose byte no full-mask RX row of the table has? -/
def tableOpcode (b : Byte) : Bool :=
  b == 0x01 || b == 0x04 || b == 0x07 || b == 0xFE

/-- The decoder state that selects the table row of a one-byte word (R89, `fields.state`): `TextBody` for
`RX.TEXT_END`'s 0x03, the opcode position for an opcode byte that no marker row has, else `AwaitingMarker`
(log entry 13). -/
def tableView (b : Byte) : View where
  rxState := if tableOpcode b then .binaryPayload else if b = params.textEnd then .textBody else .awaitingMarker
  rxLen := if tableOpcode b then 1 else 0
  rxCnt := 0
  txState := .idle
  txRem := 0

/-- The script item that presents a one-byte word of the table. -/
def tableItem (b : Byte) : Item :=
  if tableOpcode b then .opcode b else .clock (rxCycle b)

/-- The operation the decoder reads from a word of the table. The table's words are single received bytes (R89), so
`nbits` is 8. A word's meaning depends on the decoder's state; `tableView` names the state taken. -/
def decodeTableWord (nbits w : Nat) : Option Instr :=
  if nbits = 8 then
    match decode (tableView (BitVec.ofNat 8 w)) (tableItem (BitVec.ofNat 8 w)) with
    | .ok (i :: _) => some i
    | .ok [] => none
    | .error _ => none
  else none

end Sys2Proof
end

