-- ==== Sys2Proof/Machine/State.lean ====
section
/-! DEFINITION. The state of the block as plain data, its reset value, and the reasons a step can stop
(spec/10_state.md R20 to R45; spec/60_exceptions.md R190, R191). -/

namespace Sys2Proof.Machine

/-- The contents of `rx_buf` (10_state.md R28): pairs of an index and a byte, indices strictly rising, no byte equal to
what an unlisted index reads as (`bufUnwritten`). -/
abbrev Buf := List Host.Cell

/-- The decoder's registers (10_state.md R21). -/
structure RxRegs where
  /-- `rx_state`, R22, R23 -/
  state : RxState
  /-- `rx_len`, R24 -/
  len : Byte
  /-- `rx_cnt`, R25 -/
  cnt : Cnt
  /-- `rx_crc`, R26 -/
  crc : U16
  /-- `rx_trail_hi`, R27 -/
  trailHi : Byte
  /-- `rx_buf`, R28 -/
  buf : Buf
  deriving DecidableEq, Repr

/-- The encoder's registers (10_state.md R31). -/
structure TxRegs where
  /-- `tx_state`, R32 -/
  state : TxState
  /-- `tx_op` -/
  op : Byte
  /-- `tx_n` -/
  n : Byte
  /-- `tx_rem` -/
  rem : Byte
  /-- `tx_crc` -/
  crc : U16
  deriving DecidableEq, Repr

/-- An event of the decoder with the fields its kind uses (60_exceptions.md R190, R191; U7). -/
inductive RxEvent where
  | textBlock (text : List Byte)
  | frame (opcode : Byte) (args : List Byte) (n : Byte) (crc : U16)
  | emptyFrame (crc : U16)
  | unrecognizedMarker (byte : Byte)
  | textTruncated (text : List Byte)
  | crcMismatch (n : Byte) (crcRx crcCalc : U16)
  deriving DecidableEq, Repr

/-- The encoder's one event (R190, R191). -/
inductive TxEvent where
  | encoderPayloadTooLong (argsLen : U16)
  deriving DecidableEq, Repr

/-- The result of a `function` row: a u16 (R101, R102), wire bytes, or the error of `encode` with `len(args)` (R150). -/
inductive FnResult where
  | u16 (v : U16)
  | wire (bytes : List Byte)
  | tooLong (argsLen : Nat)
  deriving DecidableEq, Repr

/-- What the output ports carry in the current cycle (10_state.md R33, R36). `g_crc_out` is `State.gCrcOut`. -/
structure Outputs where
  /-- `ev_valid` and the event record -/
  ev : Option RxEvent
  /-- `tx_ev_valid` and the event record -/
  txEv : Option TxEvent
  /-- `tx_cmd_ready` -/
  txCmdReady : Bool
  /-- `tx_arg_ready` -/
  txArgReady : Bool
  /-- `tx_out_valid` and `tx_out_data` -/
  txOut : Option Byte
  /-- the model's own: the result of a function row applied in this step (log entry 10) -/
  fn : Option FnResult
  deriving DecidableEq, Repr

/-- The machine's state: the three agents' registers (R20), the output ports, the streams of 20_memory.md R50 as they
stand, and the inputs to come. -/
structure State where
  /-- the decoder -/
  rx : RxRegs
  /-- the encoder -/
  tx : TxRegs
  /-- `g_crc`, R34 -/
  gCrc : U16
  /-- the output ports in the last cycle -/
  out : Outputs
  /-- the decoder's event stream, oldest first (log entry 2) -/
  events : List RxEvent
  /-- the encoder's event stream, oldest first (log entry 2) -/
  txEvents : List TxEvent
  /-- the wire-out stream: bytes transferred, oldest first (log entry 2) -/
  wire : List Byte
  /-- the model's own: the inputs to come, next first (log entry 1) -/
  script : List Item
  deriving DecidableEq, Repr

/-- Why the machine stops with a fault. -/
inductive Fault where
  /-- `MemRead` or `MemWrite` outside index 0 to 1023 (20_memory.md R51, U4). Raised by the buffer operations of the
  decoder. Safe: the spec gives such an access no meaning, and R29 keeps every reachable access inside. -/
  | bufferIndex
  deriving DecidableEq, Repr

/-- Why an operation has no meaning. -/
inductive Refusal where
  /-- an instruction whose meaning is not written yet. Raised by the dispatcher alone. Safe. -/
  | notModelled (mnemonic : String)
  /-- an operation run in a state, or with an operand, that its row of R80 or R81 does not have. Raised by the meanings.
  Safe: the spec gives it no effect there, and the decoder never selects it there. -/
  | notSelected
  /-- the decoder selects nothing for the next item. Raised by the step. Safe: see `DecodeError`. -/
  | undecodable (e : DecodeError)
  deriving DecidableEq, Repr

/-- The machine right after `SYS.RESET` (10_state.md R44): every register at the value of R44's table, the outputs at
the values of its last row. `rx_buf` is unspecified there: nothing listed (log entry 4). The streams start empty (log
entry 2) and no input is queued (log entry 1). -/
def State.reset : State where
  rx :=
    { state := .awaitingMarker
      len := 0
      cnt := 0
      crc := params.crcInit
      trailHi := 0
      buf := [] }
  tx :=
    { state := .idle
      op := 0
      n := 0
      rem := 0
      crc := params.crcInit }
  gCrc := params.crcInit
  out :=
    { ev := none
      txEv := none
      txCmdReady := true
      txArgReady := false
      txOut := none
      fn := none }
  events := []
  txEvents := []
  wire := []
  script := []

end Sys2Proof.Machine
end

