-- ==== Sys2Proof/Machine/Operands.lean ====
section
/-! DEFINITION. The pure functions on bytes and checksums that the operations share: the CRC-16/MODBUS functions
(spec/40_crc.md R100 to R107), field assembly (spec/00_scope.md R8; spec/30_encoding.md R74, R75) and the encoder's
function (spec/42_encoder.md R150). -/

namespace Sys2Proof.Machine

/-- `hi8(v) = v[15:8]` (R8). -/
def hi8 (v : U16) : Byte := v.extractLsb' 8 8

/-- `lo8(v) = v[7:0]` (R8). -/
def lo8 (v : U16) : Byte := v.extractLsb' 0 8

/-- `be16(h, l)`: the u16 whose high byte is `h` and low byte is `l` (R8, R74). -/
def be16 (h l : Byte) : U16 := h ++ l

/-- `zext_16(b)` (R8). -/
def zext16 (b : Byte) : U16 := b.setWidth 16

/-- One iteration of the loop of R101: shift right by one, and exclusive-or the polynomial if the bit shifted out is 1. -/
def crcShift (v : U16) : U16 :=
  if v.getLsbD 0 then (v >>> 1) ^^^ params.crcPoly else v >>> 1

/-- `k` iterations of the loop of R101. -/
def crcShifts : Nat → U16 → U16
  | 0, v => v
  | k + 1, v => crcShifts k (crcShift v)

/-- `crc_step(c, b)` (R101). The algorithm is the spec's, which marks it general knowledge (G1; log entry 17). -/
def crcStep (c : U16) (b : Byte) : U16 := crcShifts 8 (c ^^^ zext16 b)

/-- `crc16(s)` (R102): `CRC_INIT`, then `crc_step` for each byte in order, with no final exclusive-or. -/
def crc16 (s : List Byte) : U16 := s.foldl crcStep params.crcInit

/-- The single-cycle form of `crc_step` (R104): bit `i` of the result from the bits of `c` and `b`. -/
def crcStepParallel (c : U16) (b : Byte) : U16 :=
  let e (i : Nat) : Bool := c.getLsbD i ^^ b.getLsbD i
  let par : Bool := e 0 ^^ e 1 ^^ e 2 ^^ e 3 ^^ e 4 ^^ e 5 ^^ e 6 ^^ e 7
  BitVec.ofBoolListLE
    [par ^^ c.getLsbD 8, c.getLsbD 9, c.getLsbD 10, c.getLsbD 11, c.getLsbD 12, c.getLsbD 13,
      e 0 ^^ c.getLsbD 14, e 0 ^^ e 1 ^^ c.getLsbD 15, e 1 ^^ e 2, e 2 ^^ e 3, e 3 ^^ e 4, e 4 ^^ e 5, e 5 ^^ e 6,
      e 6 ^^ e 7, par ^^ e 7, par]

/-- `T[i] = crc_step(0x0000, i)` (R107). -/
def crcTable (i : Byte) : U16 := crcStep 0 i

/-- The table form of `crc_step` (R107). -/
def crcStepTable (c : U16) (b : Byte) : U16 := (c >>> 8) ^^^ crcTable (lo8 (c ^^^ zext16 b))

/-- The checksummed bytes of a frame, `opcode ++ args` (R75, R76). -/
def block (op : Byte) (args : List Byte) : List Byte := op :: args

/-- The trailer of a block: its checksum, high byte first (R52, R75). -/
def trailer (bytes : List Byte) : List Byte := [hi8 (crc16 bytes), lo8 (crc16 bytes)]

/-- `length ++ opcode ++ args ++ crc_hi ++ crc_lo` (R72, R75, R150), for a request that is not over-long. -/
def wireBytes (op : Byte) (args : List Byte) : List Byte :=
  BitVec.ofNat 8 (block op args).length :: (block op args ++ trailer (block op args))

/-- `encode(opcode, args)` (R150): rejected, never truncated, when the block is longer than `LEN_MAX`. The error is the
function's result, with `len(args)` (log entry 11). -/
def encodeFrame (op : Byte) (args : List Byte) : FnResult :=
  if params.lenMax < (block op args).length then .tooLong args.length
  else .wire (wireBytes op args)

end Sys2Proof.Machine
end

