-- ==== Sys2Proof/Machine/Flags.lean ====
section
/-! DEFINITION. The block has no status flags, condition codes or sticky bits (spec/10_state.md R39). What stands here
are the conditions the operations test within one step and do not keep. -/

namespace Sys2Proof.Machine

/-- R130: does the received trailer equal the computed checksum? All 16 bits are compared. -/
def crcMatches (crcCalc crcRx : U16) : Bool := crcCalc == crcRx

/-- R154, R155: have all announced argument bytes been sent? -/
def argsDone (rem : Byte) : Bool := rem == 0

/-- R190: the kinds of class 'error'. -/
def RxEvent.isError : RxEvent → Bool
  | .textBlock _ => false
  | .frame _ _ _ _ => false
  | .emptyFrame _ => false
  | .unrecognizedMarker _ => true
  | .textTruncated _ => true
  | .crcMismatch _ _ _ => true

end Sys2Proof.Machine
end

