-- ==== Sys2Proof/Machine/Ops.lean ====
section
/-! DEFINITION. The named operations over the buffer, the registers and the output ports that the meanings are built
from: `MemRead`, `MemWrite`, `emit`, `rx_clear()`, `raise`, `out` (spec/00_scope.md R10; spec/20_memory.md R51;
spec/10_state.md R30, R33, R36; spec/60_exceptions.md R194, R195). -/

namespace Sys2Proof.Machine

/-! ### The buffer -/

/-- The byte at index `a`; an unlisted index reads as `bufUnwritten` (log entry 4). -/
def Buf.read : Buf → Nat → Byte
  | [], _ => bufUnwritten
  | c :: m, a => if c.1 = a then c.2 else Buf.read m a

/-- `m` with `v` at index `a`, in canonical form: sorted, and nothing listed that reads as unwritten. -/
def Buf.write : Buf → Nat → Byte → Buf
  | [], a, v => if v = bufUnwritten then [] else [(a, v)]
  | c :: m, a, v =>
    if a < c.1 then (if v = bufUnwritten then c :: m else (a, v) :: c :: m)
    else if a = c.1 then (if v = bufUnwritten then m else (a, v) :: m)
    else c :: Buf.write m a v

/-- The canonical form from index `lo` on: strictly rising indices below `RX_BUF_DEPTH`, no byte equal to
`bufUnwritten`. -/
def Buf.wfFrom (lo : Nat) : Buf → Bool
  | [] => true
  | c :: m =>
    decide (lo ≤ c.1) && decide (c.1 < params.rxBufDepth) && c.2 != bufUnwritten && Buf.wfFrom (c.1 + 1) m

/-- The canonical form of `rx_buf`. -/
def Buf.wf (m : Buf) : Bool := Buf.wfFrom 0 m

/-- The bytes at indices `a` to `a + n - 1`. -/
def Buf.slice (m : Buf) (a n : Nat) : List Byte := (List.range n).map fun i => m.read (a + i)

/-- `MemRead(addr, n)` (R51); no meaning outside index 0 to 1023 (U4). -/
def memRead (m : Buf) (a n : Nat) : Option (List Byte) :=
  if a + n ≤ params.rxBufDepth then some (m.slice a n) else none

/-- `MemWrite(addr, 1, v)` (R51); no meaning outside index 0 to 1023 (U4). -/
def memWrite (m : Buf) (a : Nat) (v : Byte) : Option Buf :=
  if a < params.rxBufDepth then some (m.write a v) else none

/-! ### Views -/

/-- The registers that select an operation. -/
abbrev State.view (s : State) : View where
  rxState := s.rx.state
  rxLen := s.rx.len
  rxCnt := s.rx.cnt
  txState := s.tx.state
  txRem := s.tx.rem

/-- The output `g_crc_out`, always equal to `g_crc` (R37). -/
def State.gCrcOut (s : State) : U16 := s.gCrc

/-! ### Registers and ports -/

/-- The decoder's registers replaced. -/
def State.setRx (r : RxRegs) (s : State) : State := { s with rx := r }

/-- The encoder's registers replaced. -/
def State.setTx (t : TxRegs) (s : State) : State := { s with tx := t }

/-- `g_crc <- v`. -/
def State.setG (v : U16) (s : State) : State := { s with gCrc := v }

/-- The result of a function row. -/
def State.setFn (r : FnResult) (s : State) : State := { s with out := { s.out with fn := some r } }

/-- `emit E` on the decoder's port `ev` (R33). -/
def State.emit (e : RxEvent) (s : State) : State :=
  { s with out := { s.out with ev := some e }, events := s.events ++ [e] }

/-- `emit E` on the encoder's port `tx_ev` (R33). -/
def State.emitTx (e : TxEvent) (s : State) : State :=
  { s with out := { s.out with txEv := some e }, txEvents := s.txEvents ++ [e] }

/-- `out(b)`: byte `b` is transferred on the output channel (R10, R36). -/
def State.transmit (b : Byte) (s : State) : State := { s with wire := s.wire ++ [b] }

/-- The registers after `rx_clear()` (R30): `rx_buf` is not written. -/
def RxRegs.clear (r : RxRegs) : RxRegs where
  state := .awaitingMarker
  len := 0
  cnt := 0
  crc := params.crcInit
  trailHi := 0
  buf := r.buf

/-- `rx_clear()` (R30). -/
def State.rxClear (s : State) : State := s.setRx s.rx.clear

/-- The encoder's reset values (R44), which R157, R180 and R181 write. -/
def TxRegs.cleared : TxRegs where
  state := .idle
  op := 0
  n := 0
  rem := 0
  crc := params.crcInit

/-- `tx_state <- TxIdle; tx_op <- 0; tx_n <- 0; tx_rem <- 0; tx_crc <- CRC_INIT`. -/
def State.txClear (s : State) : State := s.setTx TxRegs.cleared

/-- Resolving a frame: `emit E; rx_clear()` (R125, R130, R197). -/
def State.resolve (e : RxEvent) (s : State) : State := (s.emit e).rxClear

/-- Taking an exception in the decoder: `raise K(info)` is `emit K(info); rx_clear()` (R194). Nothing is saved, and the
return from it is already complete (R197). -/
def State.raiseRx (e : RxEvent) (s : State) : State := s.resolve e

/-- Taking the exception of the encoder: `emit K(info)` on `tx_ev`, with no register changed (R195). -/
def State.raiseTx (e : TxEvent) (s : State) : State := s.emitTx e

/-! ### Shapes of a meaning -/

/-- Run `k` where the operation `i` is selected: its operand is one the row has and the state is one the row names.
Anywhere else the spec gives the operation no effect (log entry 9). -/
def whenSelected (i : Instr) (s : State) (k : Host.Outcome State Fault Refusal) : Host.Outcome State Fault Refusal :=
  if i.wellFormed && i.enabledIn s.view then k else .refused .notSelected

/-- `MemWrite(addr, 1, v)`, then go on with the buffer written. -/
def withWrite (s : State) (a : Nat) (v : Byte) (k : Buf → Host.Outcome State Fault Refusal) :
    Host.Outcome State Fault Refusal :=
  match memWrite s.rx.buf a v with
  | none => .fault .bufferIndex
  | some m => k m

/-- `MemRead(addr, n)` of buffer `m`, then go on with the bytes read. -/
def withRead (m : Buf) (a n : Nat) (k : List Byte → Host.Outcome State Fault Refusal) :
    Host.Outcome State Fault Refusal :=
  match memRead m a n with
  | none => .fault .bufferIndex
  | some bytes => k bytes

/-- A block byte is received (R128): `MemWrite(rx_cnt, 1, b); rx_crc <- crc_step(rx_crc, b); rx_cnt <- rx_cnt + 1`. -/
def acceptBlockByte (b : Byte) (s : State) : Host.Outcome State Fault Refusal :=
  withWrite s s.rx.cnt.toNat b fun m =>
    .next (s.setRx { s.rx with buf := m, crc := crcStep s.rx.crc b, cnt := s.rx.cnt + 1 })

/-! ### A cycle's inputs and handshake outputs -/

/-- The port values in the cycle of a script item. A function row is applied in a cycle with quiet ports; an opcode
byte arrives on the receive port. -/
def itemPins : Item → InPins
  | .clock p => p
  | .crcStep _ _ => InPins.quiet
  | .crc16 _ => InPins.quiet
  | .encode _ _ => InPins.quiet
  | .opcode b => rxCycle b

/-- `tx_cmd_ready` (R36, R183). -/
def txCmdReady (t : TxRegs) (p : InPins) : Bool := !p.rst && !p.linkClose && t.state == .idle

/-- `tx_arg_ready` (R36, R183). -/
def txArgReady (t : TxRegs) (p : InPins) : Bool := !p.rst && !p.linkClose && t.state == .args && p.txOutReady

/-- `tx_out_valid` with `tx_out_data` (R36, R162, R183): the byte offered on the output channel, none when not valid. -/
def txOffer (t : TxRegs) (p : InPins) : Option Byte :=
  if p.rst || p.linkClose then none
  else
    match t.state with
    | .idle => none
    | .len => some t.n
    | .opcode => some t.op
    | .args => if p.txArgValid then some p.txArgData else none
    | .crcHi => some (hi8 t.crc)
    | .crcLo => some (lo8 t.crc)

/-- The output ports of a cycle before any event: the handshake outputs follow the state and the inputs, and no event is
valid (R33). -/
def cycleOutputs (t : TxRegs) (p : InPins) : Outputs where
  ev := none
  txEv := none
  txCmdReady := txCmdReady t p
  txArgReady := txArgReady t p
  txOut := txOffer t p
  fn := none

/-- The next script item and the rest. When the script is empty nothing is presented: an idle cycle (log entry 1). -/
def fetchItem (s : State) : Item × List Item :=
  match s.script with
  | [] => (.clock InPins.quiet, [])
  | i :: rest => (i, rest)

/-- The start of a cycle: the item is taken from the script and the output ports take the cycle's values. -/
def beginCycle (i : Item) (rest : List Item) (s : State) : State :=
  { s with script := rest, out := cycleOutputs s.tx (itemPins i) }

/-- The decoder's registers put where the table's row of a one-byte word is selected (log entry 13). -/
def selectRow (v : View) (r : RxRegs) : RxRegs :=
  { r.clear with state := v.rxState, len := v.rxLen, cnt := v.rxCnt }

end Sys2Proof.Machine
end

