-- ==== Sys2Proof/Machine/Crc.lean ====
section
/-! DEFINITION. The CRC family: the function rows `CRCSTEP` and `CRC16` and the operations of the CRC port
(spec/40_crc.md). -/

namespace Sys2Proof.Machine

/-- `CRCSTEP` (R101): a pure function, so no register changes; its result stands on the model's result port. -/
def execCrcStep (c : U16) (b : Byte) (s : State) : Host.Outcome State Fault Refusal :=
  .next (s.setFn (.u16 (crcStep c b)))

/-- `CRC16` (R102): a pure function, so no register changes; its result stands on the model's result port. -/
def execCrc16 (bytes : List Byte) (s : State) : Host.Outcome State Fault Refusal :=
  .next (s.setFn (.u16 (crc16 bytes)))

/-- `G.INIT` (R105). -/
def execGInit (s : State) : Host.Outcome State Fault Refusal :=
  .next (s.setG params.crcInit)

/-- `G.UPDATE` (R106). -/
def execGUpdate (b : Byte) (s : State) : Host.Outcome State Fault Refusal :=
  .next (s.setG (crcStep s.gCrc b))

end Sys2Proof.Machine
end

