-- ==== Sys2Proof/Machine/Frame.lean ====
section
/-! DEFINITION. The informative opcode rows (spec/30_encoding.md R88). The block treats every opcode byte as opaque data
and gives all values identical treatment, so each is the block byte that it is on the wire, received in the opcode
position (spec/41_decoder.md R128; log entry 12). -/

namespace Sys2Proof.Machine

/-- `FRAME.GetStatus` (R88): the opcode byte 0x01 is received. -/
def execFrameGetStatus (s : State) : Host.Outcome State Fault Refusal :=
  whenSelected .frameGetStatus s (acceptBlockByte 0x01 s)

/-- `FRAME.Start` (R88): the opcode byte 0x02 is received. -/
def execFrameStart (s : State) : Host.Outcome State Fault Refusal :=
  whenSelected .frameStart s (acceptBlockByte 0x02 s)

/-- `FRAME.Delete` (R88): the opcode byte 0x03 is received. -/
def execFrameDelete (s : State) : Host.Outcome State Fault Refusal :=
  whenSelected .frameDelete s (acceptBlockByte 0x03 s)

/-- `FRAME.SendData` (R88): the opcode byte 0x04 is received. -/
def execFrameSendData (s : State) : Host.Outcome State Fault Refusal :=
  whenSelected .frameSendData s (acceptBlockByte 0x04 s)

/-- `FRAME.ReceiveError` (R88): the opcode byte 0xFE is received. -/
def execFrameReceiveError (s : State) : Host.Outcome State Fault Refusal :=
  whenSelected .frameReceiveError s (acceptBlockByte 0xFE s)

/-- `FRAME.DataFromTask` (R88): the opcode byte 0x07 is received. -/
def execFrameDataFromTask (s : State) : Host.Outcome State Fault Refusal :=
  whenSelected .frameDataFromTask s (acceptBlockByte 0x07 s)

end Sys2Proof.Machine
end

