-- ==== Sys2Proof/Machine/Rx.lean ====
section
/-! DEFINITION. The serial frame decoder, one definition per operation (spec/41_decoder.md R121 to R130). -/

namespace Sys2Proof.Machine

/-- `RX.MARK_TEXT` (R121). -/
def execRxMarkText (s : State) : Host.Outcome State Fault Refusal :=
  whenSelected .rxMarkText s (.next (s.setRx { s.rx with cnt := 0, state := .textBody }))

/-- `RX.MARK_BIN` (R122). -/
def execRxMarkBin (s : State) : Host.Outcome State Fault Refusal :=
  whenSelected .rxMarkBin s (.next (s.setRx { s.rx with cnt := 0, state := .binaryLength }))

/-- `RX.MARK_BAD` (R123). -/
def execRxMarkBad (b : Byte) (s : State) : Host.Outcome State Fault Refusal :=
  whenSelected (.rxMarkBad b) s (.next (s.raiseRx (.unrecognizedMarker b)))

/-- `RX.TEXT_DATA` (R124). -/
def execRxTextData (b : Byte) (s : State) : Host.Outcome State Fault Refusal :=
  whenSelected (.rxTextData b) s
    (withWrite s s.rx.cnt.toNat b fun m => .next (s.setRx { s.rx with buf := m, cnt := s.rx.cnt + 1 }))

/-- `RX.TEXT_END` (R125). -/
def execRxTextEnd (s : State) : Host.Outcome State Fault Refusal :=
  whenSelected .rxTextEnd s
    (withRead s.rx.buf 0 s.rx.cnt.toNat fun text => .next (s.resolve (.textBlock text)))

/-- `RX.TEXT_TRUNC` (R126). The write comes first and the event includes the byte just written (R66). -/
def execRxTextTrunc (b : Byte) (s : State) : Host.Outcome State Fault Refusal :=
  whenSelected (.rxTextTrunc b) s
    (withWrite s s.rx.cnt.toNat b fun m =>
      withRead m 0 params.textCap fun text =>
        .next ((s.setRx { s.rx with buf := m, cnt := s.rx.cnt + 1 }).raiseRx (.textTruncated text)))

/-- `RX.LEN` (R127). -/
def execRxLen (n : Byte) (s : State) : Host.Outcome State Fault Refusal :=
  whenSelected (.rxLen n) s
    (.next (s.setRx { s.rx with len := n, cnt := 0, crc := params.crcInit, trailHi := 0, state := .binaryPayload }))

/-- `RX.BIN_DATA` (R128). -/
def execRxBinData (b : Byte) (s : State) : Host.Outcome State Fault Refusal :=
  whenSelected (.rxBinData b) s (acceptBlockByte b s)

/-- `RX.BIN_CRC_HI` (R129). -/
def execRxBinCrcHi (b : Byte) (s : State) : Host.Outcome State Fault Refusal :=
  whenSelected (.rxBinCrcHi b) s (.next (s.setRx { s.rx with trailHi := b, cnt := s.rx.cnt + 1 }))

/-- `RX.BIN_CRC_LO` (R130): the checksum test first, then the test of an empty frame (R198 (d), D12). -/
def execRxBinCrcLo (b : Byte) (s : State) : Host.Outcome State Fault Refusal :=
  whenSelected (.rxBinCrcLo b) s
    (if !crcMatches s.rx.crc (be16 s.rx.trailHi b) then
      .next (s.raiseRx (.crcMismatch s.rx.len (be16 s.rx.trailHi b) s.rx.crc))
    else if s.rx.len = 0 then
      .next (s.resolve (.emptyFrame (be16 s.rx.trailHi b)))
    else
      withRead s.rx.buf 1 (s.rx.len.toNat - 1) fun args =>
        .next (s.resolve (.frame (s.rx.buf.read 0) args s.rx.len (be16 s.rx.trailHi b))))

end Sys2Proof.Machine
end

