-- ==== Sys2Proof/Machine/Sys.lean ====
section
/-! DEFINITION. The control operations (spec/43_system.md R180, R181, R185). -/

namespace Sys2Proof.Machine

/-- `SYS.RESET` (R180): `rx_buf` is not written, no event is emitted, and what has left the block is not recalled. -/
def execSysReset (s : State) : Host.Outcome State Fault Refusal :=
  .next (s.rxClear.txClear.setG params.crcInit)

/-- `SYS.CLOSE` (R181): as `SYS.RESET` for RX and TX, and `g_crc` is not changed. -/
def execSysClose (s : State) : Host.Outcome State Fault Refusal :=
  .next s.rxClear.txClear

/-- `IDLE` (R185): every register of the agent is unchanged and nothing is emitted. -/
def execIdle (_agent : Agent) (s : State) : Host.Outcome State Fault Refusal :=
  .next s

end Sys2Proof.Machine
end

