-- ==== Sys2Proof/Machine/Tx.lean ====
section
/-! DEFINITION. The serial frame encoder: the function `ENCODE` (spec/42_encoder.md R150) and one definition per
operation (R152 to R158). The handshake inputs that enable an operation are the decoder's part (R81). -/

namespace Sys2Proof.Machine

/-- `ENCODE` (R150): a pure function, so no register changes; its result stands on the model's result port. -/
def execEncode (op : Byte) (args : List Byte) (s : State) : Host.Outcome State Fault Refusal :=
  .next (s.setFn (encodeFrame op args))

/-- `TX.CMD` (R152): `L + 1` fits 8 bits because `L <= 254` (R160). -/
def execTxCmd (op : Byte) (argsLen : U16) (s : State) : Host.Outcome State Fault Refusal :=
  whenSelected (.txCmd op argsLen) s
    (.next (s.setTx
      { op := op
        n := BitVec.ofNat 8 (argsLen.toNat + 1)
        rem := BitVec.ofNat 8 argsLen.toNat
        crc := params.crcInit
        state := .len }))

/-- `TX.REJECT` (R158): no register changes, no byte is output, no argument is taken. -/
def execTxReject (op : Byte) (argsLen : U16) (s : State) : Host.Outcome State Fault Refusal :=
  whenSelected (.txReject op argsLen) s (.next (s.raiseTx (.encoderPayloadTooLong argsLen)))

/-- `TX.LEN` (R153). -/
def execTxLen (s : State) : Host.Outcome State Fault Refusal :=
  whenSelected .txLen s (.next ((s.transmit s.tx.n).setTx { s.tx with state := .opcode }))

/-- `TX.OPCODE` (R154). -/
def execTxOpcode (s : State) : Host.Outcome State Fault Refusal :=
  whenSelected .txOpcode s
    (.next ((s.transmit s.tx.op).setTx
      { s.tx with crc := crcStep s.tx.crc s.tx.op, state := if argsDone s.tx.rem then .crcHi else .args }))

/-- `TX.ARG` (R155). -/
def execTxArg (a : Byte) (s : State) : Host.Outcome State Fault Refusal :=
  whenSelected (.txArg a) s
    (.next ((s.transmit a).setTx
      { s.tx with
        crc := crcStep s.tx.crc a
        rem := s.tx.rem - 1
        state := if argsDone (s.tx.rem - 1) then .crcHi else .args }))

/-- `TX.CRC_HI` (R156). -/
def execTxCrcHi (s : State) : Host.Outcome State Fault Refusal :=
  whenSelected .txCrcHi s (.next ((s.transmit (hi8 s.tx.crc)).setTx { s.tx with state := .crcLo }))

/-- `TX.CRC_LO` (R157). -/
def execTxCrcLo (s : State) : Host.Outcome State Fault Refusal :=
  whenSelected .txCrcLo s (.next (s.transmit (lo8 s.tx.crc)).txClear)

end Sys2Proof.Machine
end

