-- ==== Sys2Proof/Machine/Dispatch.lean ====
section
/-! DEFINITION. The dispatcher: one arm per operation, each one call of its meaning. -/

namespace Sys2Proof.Machine

def exec (i : Instr) (s : State) : Host.Outcome State Fault Refusal :=
  match i with
  | .crcStep c b => Sys2Proof.Machine.execCrcStep c b s
  | .crc16 bytes => Sys2Proof.Machine.execCrc16 bytes s
  | .encode op args => Sys2Proof.Machine.execEncode op args s
  | .gInit => Sys2Proof.Machine.execGInit s
  | .gUpdate b => Sys2Proof.Machine.execGUpdate b s
  | .rxMarkText => Sys2Proof.Machine.execRxMarkText s
  | .rxMarkBin => Sys2Proof.Machine.execRxMarkBin s
  | .rxMarkBad b => Sys2Proof.Machine.execRxMarkBad b s
  | .rxTextData b => Sys2Proof.Machine.execRxTextData b s
  | .rxTextEnd => Sys2Proof.Machine.execRxTextEnd s
  | .rxTextTrunc b => Sys2Proof.Machine.execRxTextTrunc b s
  | .rxLen n => Sys2Proof.Machine.execRxLen n s
  | .rxBinData b => Sys2Proof.Machine.execRxBinData b s
  | .rxBinCrcHi b => Sys2Proof.Machine.execRxBinCrcHi b s
  | .rxBinCrcLo b => Sys2Proof.Machine.execRxBinCrcLo b s
  | .txCmd op argsLen => Sys2Proof.Machine.execTxCmd op argsLen s
  | .txReject op argsLen => Sys2Proof.Machine.execTxReject op argsLen s
  | .txLen => Sys2Proof.Machine.execTxLen s
  | .txOpcode => Sys2Proof.Machine.execTxOpcode s
  | .txArg a => Sys2Proof.Machine.execTxArg a s
  | .txCrcHi => Sys2Proof.Machine.execTxCrcHi s
  | .txCrcLo => Sys2Proof.Machine.execTxCrcLo s
  | .sysReset => Sys2Proof.Machine.execSysReset s
  | .sysClose => Sys2Proof.Machine.execSysClose s
  | .idle a => Sys2Proof.Machine.execIdle a s
  | .frameGetStatus => Sys2Proof.Machine.execFrameGetStatus s
  | .frameStart => Sys2Proof.Machine.execFrameStart s
  | .frameDelete => Sys2Proof.Machine.execFrameDelete s
  | .frameSendData => Sys2Proof.Machine.execFrameSendData s
  | .frameReceiveError => Sys2Proof.Machine.execFrameReceiveError s
  | .frameDataFromTask => Sys2Proof.Machine.execFrameDataFromTask s

end Sys2Proof.Machine
end

