-- ==== Sys2Proof/Machine/Step.lean ====
section
/-! DEFINITION. One step of the machine: one clock cycle (spec/00_scope.md R10, R11). The next script item is taken, the
operations it selects are decoded, and each is run. -/

namespace Sys2Proof.Machine

/-- The operations of one cycle, one after the other. They act on different agents, so their order shows in no result
(20_memory.md R61). -/
def runOps : List Instr → State → Host.Outcome State Fault Refusal
  | [], s => .next s
  | i :: rest, s =>
    match exec i s with
    | .next t => runOps rest t
    | .fault r => .fault r
    | .refused r => .refused r

/-- A cycle with a given item: decode against the state before the edge, then run what is selected. -/
def cycle (item : Item) (rest : List Item) (s : State) : Host.Outcome State Fault Refusal :=
  match decode s.view item with
  | .ok ops => runOps ops (beginCycle item rest s)
  | .error e => .refused (.undecodable e)

/-- One step: the cycle of the next script item, an idle cycle when the script is empty. -/
def step (s : State) : Host.Outcome State Fault Refusal :=
  cycle (fetchItem s).1 (fetchItem s).2 s

/-- `s` with a one-byte word of the table as the next input, and the decoder in the state that selects the word's row
(log entry 13). The table has no words of another width: there nothing is presented. -/
def State.withFetchWord (s : State) (nbits w : Nat) : State :=
  if nbits = 8 then
    { s with
      rx := selectRow (tableView (BitVec.ofNat 8 w)) s.rx
      script := tableItem (BitVec.ofNat 8 w) :: s.script }
  else s

end Sys2Proof.Machine
end

