-- ==== Sys2Proof/Machine/Ports.lean ====
section
/-! DEFINITION. The numeric codes of states and events and the flat binding of event records to signals, as views of the
state (spec/10_state.md R22, R32, R33; spec/60_exceptions.md R190, R191). No operation reads them. -/

namespace Sys2Proof.Machine

/-- The encoding of `rx_state` (R22). -/
def rxStateCode : RxState → BitVec 2
  | .awaitingMarker => 0
  | .textBody => 1
  | .binaryLength => 2
  | .binaryPayload => 3

/-- The encoding of `tx_state` (R32). -/
def txStateCode : TxState → BitVec 3
  | .idle => 0
  | .len => 1
  | .opcode => 2
  | .args => 3
  | .crcHi => 4
  | .crcLo => 5

/-- The code of a decoder event's kind (R190). -/
def rxEventKind : RxEvent → BitVec 3
  | .textBlock _ => 1
  | .frame _ _ _ _ => 2
  | .emptyFrame _ => 3
  | .unrecognizedMarker _ => 4
  | .textTruncated _ => 5
  | .crcMismatch _ _ _ => 6

/-- The code of the encoder event's kind (R190). -/
def txEventKind : TxEvent → BitVec 3
  | .encoderPayloadTooLong _ => 7

/-- The signal `ev_kind`: 0 when `ev_valid` is 0 (R190). -/
def evKind : Option RxEvent → BitVec 3
  | none => 0
  | some e => rxEventKind e

/-- The signal `tx_ev_kind`: 0 when `tx_ev_valid` is 0 (R190). -/
def txEvKind : Option TxEvent → BitVec 3
  | none => 0
  | some e => txEventKind e

/-- The signals of the decoder's event port in a valid cycle (R33). -/
structure EvPins where
  evValid : Bool
  evKind : BitVec 3
  evOpcode : Byte
  evN : Byte
  evLen : Cnt
  evData : List Byte
  evByte : Byte
  evCrcRx : U16
  evCrcCalc : U16
  deriving DecidableEq, Repr

/-- The signals of the encoder's event port in a valid cycle (R33). -/
structure TxEvPins where
  txEvValid : Bool
  txEvKind : BitVec 3
  txEvArgsLen : U16
  deriving DecidableEq, Repr

/-- An event port in a valid cycle with every field 0 but the kind: the fields a kind does not use are 0 (R191). -/
def blankEvPins (kind : BitVec 3) : EvPins where
  evValid := true
  evKind := kind
  evOpcode := 0
  evN := 0
  evLen := 0
  evData := []
  evByte := 0
  evCrcRx := 0
  evCrcCalc := 0

/-- The flat binding of a decoder event (R33, R191). -/
def evPins (e : RxEvent) : EvPins :=
  match e with
  | .textBlock text => { blankEvPins (rxEventKind e) with evLen := BitVec.ofNat 11 text.length, evData := text }
  | .frame opcode args n crc =>
    { blankEvPins (rxEventKind e) with
      evOpcode := opcode
      evN := n
      evLen := BitVec.ofNat 11 args.length
      evData := args
      evCrcRx := crc
      evCrcCalc := crc }
  | .emptyFrame crc => { blankEvPins (rxEventKind e) with evCrcRx := crc, evCrcCalc := crc }
  | .unrecognizedMarker b => { blankEvPins (rxEventKind e) with evByte := b }
  | .textTruncated text => { blankEvPins (rxEventKind e) with evLen := BitVec.ofNat 11 text.length, evData := text }
  | .crcMismatch n crcRx crcCalc =>
    { blankEvPins (rxEventKind e) with evN := n, evCrcRx := crcRx, evCrcCalc := crcCalc }

/-- The flat binding of the encoder's event (R33, R191). -/
def txEvPins (e : TxEvent) : TxEvPins :=
  match e with
  | .encoderPayloadTooLong l => { txEvValid := true, txEvKind := txEventKind e, txEvArgsLen := l }

end Sys2Proof.Machine
end

