-- ==== Sys2Proof/Machine/Script.lean ====
section
/-! DEFINITION. Runs and the notation of scripts (spec/30_encoding.md R87; spec/70_reset_and_hazards.md R235). -/

namespace Sys2Proof.Machine

/-- `k` cycles, stopping at the first fault or refusal (R235). -/
def run : Nat → State → Host.Outcome State Fault Refusal
  | 0, s => .next s
  | k + 1, s =>
    match step s with
    | .next t => run k t
    | .fault r => .fault r
    | .refused r => .refused r

/-- A stream literal: the bytes fed to the decoder, one per cycle. -/
def feedBytes (bytes : List Byte) : List Item := bytes.map fun b => .clock (rxCycle b)

/-- The script item `CLOSE`: one `SYS.CLOSE`. -/
def closeItem : Item := .clock { InPins.quiet with linkClose := true }

/-- The script item `RESET`: one `SYS.RESET`. -/
def resetItem : Item := .clock { InPins.quiet with rst := true }

/-- `frame(op, args)`: the marker and the encoder's output. -/
def frameBytes (op : Byte) (args : List Byte) : List Byte := params.markBin :: wireBytes op args

/-- `badframe(op, args, t)`: `frame(op, args)` with the trailer replaced by `t`. -/
def badFrameBytes (op : Byte) (args : List Byte) (t : U16) : List Byte :=
  params.markBin :: BitVec.ofNat 8 (block op args).length :: (block op args ++ [hi8 t, lo8 t])

/-- `text(s)`, for an `s` without the terminator. -/
def textBytes (s : List Byte) : List Byte := params.markText :: (s ++ [params.textEnd])

/-- `empty()`, the valid empty frame. -/
def emptyBytes : List Byte := [params.markBin, 0x00, 0xFF, 0xFF]

/-- `s` with `items` as its next inputs, before those already queued. -/
def State.withScript (items : List Item) (s : State) : State := { s with script := items ++ s.script }

end Sys2Proof.Machine
end

