-- ==== Sys2Proof/Machine/WholeFrame.lean ====
section
/-! DEFINITION. The decoder seen frame by frame instead of byte by byte (spec/41_decoder.md R133, R135). The machine does
not use it: statements say that it agrees with the steps. -/

namespace Sys2Proof.Machine

/-- The text frame of R135, on the bytes after its marker. -/
def decodeText (s : List Byte) : Option (RxEvent × Nat) :=
  let body := s.takeWhile (· != params.textEnd)
  if body.length < s.length ∧ body.length < params.textCap then some (.textBlock body, body.length + 2)
  else if params.textCap ≤ s.length then some (.textTruncated (s.take params.textCap), params.textCap + 1)
  else none

/-- R130's three branches on a whole frame: length byte, block and received trailer. -/
def judgeFrame (n : Byte) (bytes : List Byte) (crcRx : U16) : RxEvent :=
  if crc16 bytes ≠ crcRx then .crcMismatch n crcRx (crc16 bytes)
  else
    match bytes with
    | [] => .emptyFrame crcRx
    | op :: args => .frame op args n crcRx

/-- The binary frame of R135, on the bytes after its marker (R74). -/
def decodeBinary : List Byte → Option (RxEvent × Nat)
  | [] => none
  | n :: s =>
    if s.length < n.toNat + params.trailerLen then none
    else
      some (judgeFrame n (s.take n.toNat) (be16 (s.getD n.toNat 0) (s.getD (n.toNat + 1) 0)),
        n.toNat + params.trailerLen + 2)

/-- `decode_one(s)` (R135): the event of the first frame of `s` and how many bytes it takes, or none when more bytes are
needed. -/
def decodeOne : List Byte → Option (RxEvent × Nat)
  | [] => none
  | m :: s =>
    if m = params.markText then decodeText s
    else if m = params.markBin then decodeBinary s
    else some (.unrecognizedMarker m, 1)

/-- `decode_one` iterated (R135), at most `fuel` times: the events and the bytes of the frame in progress. Every frame
takes a byte, so a stream's length is fuel enough. -/
def decodeMany : Nat → List Byte → List RxEvent × List Byte
  | 0, s => ([], s)
  | fuel + 1, s =>
    match decodeOne s with
    | none => ([], s)
    | some (e, n) => (e :: (decodeMany fuel (s.drop n)).1, (decodeMany fuel (s.drop n)).2)

/-- `decode_one` iterated over the whole of `s`. -/
def decodeStream (s : List Byte) : List RxEvent × List Byte := decodeMany s.length s

/-- R133: how many further bytes are enough to bring the decoder back to `AwaitingMarker`. -/
def resolveBound (r : RxRegs) : Nat :=
  match r.state with
  | .awaitingMarker => 0
  | .textBody => params.textCap - r.cnt.toNat
  | .binaryLength => 258
  | .binaryPayload => r.len.toNat + params.trailerLen - r.cnt.toNat

end Sys2Proof.Machine
end

