-- ==== Sys2Proof/Safety.lean ====
section
/-! DEFINITION. The vocabulary of the statements: the invariants of spec/10_state.md R29 and R45, what an operation of one
agent leaves alone, what an event may hold (spec/60_exceptions.md R191), and the input segments of spec/42_encoder.md
R159. -/

namespace Sys2Proof.Machine

/-! ### Invariants -/

/-- The registers that are constant while no binary frame's block is in progress (R29 (a), (b), (c)). -/
def RxRegs.noFrame (r : RxRegs) : Prop := r.len = 0 ∧ r.crc = params.crcInit ∧ r.trailHi = 0

/-- R29: the decoder's invariant, with the canonical form of the buffer. 'Written during this frame' is not a property
of one state. -/
def RxRegs.Inv (r : RxRegs) : Prop :=
  r.buf.wf = true ∧
  match r.state with
  | .awaitingMarker => r.noFrame ∧ r.cnt = 0
  | .binaryLength => r.noFrame ∧ r.cnt = 0
  | .textBody => r.noFrame ∧ r.cnt.toNat ≤ 1023 ∧ params.textEnd ∉ r.buf.slice 0 r.cnt.toNat
  | .binaryPayload =>
    r.cnt.toNat ≤ r.len.toNat + 1 ∧
    r.crc = crc16 (r.buf.slice 0 (min r.cnt.toNat r.len.toNat)) ∧
    (r.cnt.toNat ≠ r.len.toNat + 1 → r.trailHi = 0)

/-- R45: the encoder's invariant. `wire` is the wire-out stream: while a command is in progress it ends with the bytes of
that command sent so far. -/
def TxRegs.Inv (t : TxRegs) (wire : List Byte) : Prop :=
  match t.state with
  | .idle => t = TxRegs.cleared
  | .len => t.n.toNat = t.rem.toNat + 1 ∧ t.crc = params.crcInit
  | .opcode => t.n.toNat = t.rem.toNat + 1 ∧ t.crc = params.crcInit ∧ [t.n] <:+ wire
  | .args =>
    1 ≤ t.rem.toNat ∧ t.rem.toNat ≤ 254 ∧
    ∃ a : List Byte, a.length + t.rem.toNat + 1 = t.n.toNat ∧ t.crc = crc16 (t.op :: a) ∧ (t.n :: t.op :: a) <:+ wire
  | .crcHi =>
    t.rem = 0 ∧ ∃ a : List Byte, a.length + 1 = t.n.toNat ∧ t.crc = crc16 (t.op :: a) ∧ (t.n :: t.op :: a) <:+ wire
  | .crcLo =>
    t.rem = 0 ∧ ∃ a : List Byte, a.length + 1 = t.n.toNat ∧ t.crc = crc16 (t.op :: a) ∧
      (t.n :: t.op :: (a ++ [hi8 t.crc])) <:+ wire

/-- The invariant of the whole machine. -/
def State.Inv (s : State) : Prop := s.rx.Inv ∧ s.tx.Inv s.wire

/-- The decoder's idle state of R29 (a): `AwaitingMarker` with everything at its reset value. -/
def RxRegs.Idle (r : RxRegs) : Prop := r.state = .awaitingMarker ∧ r.noFrame ∧ r.cnt = 0

/-! ### Frames -/

/-- Nothing outside the decoder changes: not the encoder, not the CRC port, not the wire, not the encoder's events, not
the queued inputs, not the other output ports. -/
def KeepsOutsideRx (s t : State) : Prop :=
  t.tx = s.tx ∧ t.gCrc = s.gCrc ∧ t.wire = s.wire ∧ t.txEvents = s.txEvents ∧ t.script = s.script ∧
  t.out = { s.out with ev := t.out.ev }

/-- Nothing outside the encoder changes. -/
def KeepsOutsideTx (s t : State) : Prop :=
  t.rx = s.rx ∧ t.gCrc = s.gCrc ∧ t.events = s.events ∧ t.script = s.script ∧ t.out = { s.out with txEv := t.out.txEv }

/-- No decoder event is emitted. -/
def NoRxEvent (s t : State) : Prop := t.events = s.events ∧ t.out.ev = s.out.ev

/-- Exactly the decoder event `e` is emitted. -/
def EmitsRx (e : RxEvent) (s t : State) : Prop := t.events = s.events ++ [e] ∧ t.out.ev = some e

/-- No encoder event is emitted. -/
def NoTxEvent (s t : State) : Prop := t.txEvents = s.txEvents ∧ t.out.txEv = s.out.txEv

/-- Every byte of `rx_buf` reads as before. -/
def KeepsBuf (s t : State) : Prop := ∀ a, t.rx.buf.read a = s.rx.buf.read a

/-- The byte at index `i` of `rx_buf` becomes `b`, and every other byte reads as before. -/
def StoresOnly (i : Nat) (b : Byte) (s t : State) : Prop :=
  t.rx.buf.read i = b ∧ ∀ a, a ≠ i → t.rx.buf.read a = s.rx.buf.read a

/-! ### Events -/

/-- The ranges of R191 for the fields of a decoder event. -/
def RxEvent.InRange : RxEvent → Prop
  | .textBlock text => text.length ≤ 1023 ∧ params.textEnd ∉ text
  | .frame opcode args n crc => args.length ≤ 254 ∧ n.toNat = 1 + args.length ∧ crc = crc16 (opcode :: args)
  | .emptyFrame crc => crc = 0xFFFF
  | .unrecognizedMarker b => b ≠ params.markText ∧ b ≠ params.markBin
  | .textTruncated text => text.length = 1024 ∧ params.textEnd ∉ text
  | .crcMismatch _ crcRx crcCalc => crcRx ≠ crcCalc

/-! ### Inputs -/

/-- Neither `rst` nor `link_close` is 1. -/
def NoControl (p : InPins) : Prop := p.rst = false ∧ p.linkClose = false

/-- Cycles without `rst` and `link_close` in which `enables` first holds in the last one, where `at_` holds too. -/
def Until (enables : InPins → Bool) (at_ : InPins → Prop) (seg : List InPins) : Prop :=
  ∃ stalls last, seg = stalls ++ [last] ∧ (∀ p ∈ stalls, NoControl p ∧ enables p = false) ∧
    NoControl last ∧ enables last = true ∧ at_ last

/-- The output becomes ready in the segment's last cycle. -/
def UntilReady (seg : List InPins) : Prop := Until (·.txOutReady) (fun _ => True) seg

/-- Argument byte `a` is first present with the output ready in the segment's last cycle. -/
def UntilArg (a : Byte) (seg : List InPins) : Prop :=
  Until (fun p => p.txOutReady && p.txArgValid) (fun p => p.txArgData = a) seg

/-- The command `(op, argsLen)` is first presented in the segment's last cycle. -/
def UntilCmd (op : Byte) (argsLen : U16) (seg : List InPins) : Prop :=
  Until (·.txCmdValid) (fun p => p.txCmdOpcode = op ∧ p.txCmdArgsLen = argsLen) seg

/-- Two inputs that the decoder cannot tell apart (R120, U9). -/
def SameForRx (p q : InPins) : Prop :=
  p.rst = q.rst ∧ p.linkClose = q.linkClose ∧ p.rxValid = q.rxValid ∧ (p.rxValid = true → p.rxData = q.rxData)

/-- Two inputs that the encoder cannot tell apart (R151, U9). -/
def SameForTx (p q : InPins) : Prop :=
  p.rst = q.rst ∧ p.linkClose = q.linkClose ∧ p.txCmdValid = q.txCmdValid ∧ p.txArgValid = q.txArgValid ∧
  p.txOutReady = q.txOutReady ∧
  (p.txCmdValid = true → p.txCmdOpcode = q.txCmdOpcode ∧ p.txCmdArgsLen = q.txCmdArgsLen) ∧
  (p.txArgValid = true → p.txArgData = q.txArgData)

/-- Two inputs that the CRC port cannot tell apart (R82, U9). -/
def SameForG (p q : InPins) : Prop :=
  p.rst = q.rst ∧ p.gInit = q.gInit ∧ p.gEn = q.gEn ∧ (p.gEn = true → p.gData = q.gData)

/-- Two decoders that differ at most in the bytes of `rx_buf` beyond the live part (R28, R29 (e), U2). -/
def SameLive (r r' : RxRegs) : Prop :=
  r'.state = r.state ∧ r'.len = r.len ∧ r'.cnt = r.cnt ∧ r'.crc = r.crc ∧ r'.trailHi = r.trailHi ∧
  (r.state = .textBody → ∀ i, i < r.cnt.toNat → r'.buf.read i = r.buf.read i) ∧
  (r.state = .binaryPayload → ∀ i, i < min r.cnt.toNat r.len.toNat → r'.buf.read i = r.buf.read i)

end Sys2Proof.Machine
end

