-- ==== Sys2Proof/Certificates/Slice0/Obligations.lean ====
section
/-! DEFINITION. The statements for the provers, in the order of the spec's files. -/

open Sys2Proof Sys2Proof.Machine

/-! ### The CRC-16/MODBUS generator (40_crc.md) -/

/-- R101: `crc_step(c, b)` is the value after eight iterations of the loop that starts at `c ^ zext_16(b)`, and the
rule's corner cases and worked example. -/
def Obligations.CrcStepIsTheBitLoop : Prop :=
  (∀ (c : U16) (b : Byte) (v : Nat → U16), v 0 = c ^^^ b.setWidth 16 →
    (∀ k, v (k + 1) = if (v k).getLsbD 0 = true then (v k >>> 1) ^^^ 0xA001#16 else v k >>> 1) →
    crcStep c b = v 8) ∧
  crcStep 0x0000#16 0x00#8 = 0x0000#16 ∧ crcStep 0xFFFF#16 0xFF#8 = 0x00FF#16 ∧ crcStep 0x00FF#16 0xFF#8 = 0x0000#16 ∧
  crcStep 0xFFFF#16 0x01#8 = 0x807E#16

/-- R103: the incremental law; an accumulator that starts at `CRC_INIT` and takes `crc_step` of each byte as it passes
holds `crc16` of the bytes seen so far at every moment. -/
def Obligations.Crc16IsIncremental : Prop :=
  crc16 [] = params.crcInit ∧
  (∀ (s : List Byte) (b : Byte), crc16 (s ++ [b]) = crcStep (crc16 s) b) ∧
  (∀ (s : List Byte) (acc : Nat → U16), acc 0 = params.crcInit →
    (∀ k (h : k < s.length), acc (k + 1) = crcStep (acc k) s[k]) →
    ∀ k, k ≤ s.length → acc k = crc16 (s.take k))

/-- R104: the single-cycle form equals `crc_step` on every operand pair. -/
def Obligations.CrcStepSingleCycleForm : Prop :=
  ∀ (c : U16) (b : Byte), crcStep c b = crcStepParallel c b

/-- R107: the table form equals `crc_step` on every operand pair, with the entries the rule names. -/
def Obligations.CrcStepTableForm : Prop :=
  (∀ (c : U16) (b : Byte), crcStep c b = (c >>> 8) ^^^ crcTable (lo8 (c ^^^ zext16 b))) ∧
  (∀ i : Byte, crcTable i = crcStep 0x0000#16 i) ∧
  crcTable 0#8 = 0x0000#16 ∧ crcTable 1#8 = 0xC0C1#16 ∧ crcTable 255#8 = 0x4040#16

/-- R108 (b), (c): `crc_step` is linear over GF(2), and depends on `c ^ zext_16(b)` alone. -/
def Obligations.CrcStepIsLinear : Prop :=
  (∀ (c₁ c₂ : U16) (b₁ b₂ : Byte), crcStep (c₁ ^^^ c₂) (b₁ ^^^ b₂) = crcStep c₁ b₁ ^^^ crcStep c₂ b₂) ∧
  (∀ (c : U16) (b : Byte), crcStep c b = crcStep (c ^^^ zext16 b) 0x00#8)

/-- R108 (d): for a fixed byte `crc_step` is a bijection of the accumulators, for a fixed accumulator it is injective in
the byte, and two sequences that differ in exactly one byte have different checksums. -/
def Obligations.CrcDetectsOneByteErrors : Prop :=
  (∀ b : Byte, Function.Bijective fun c : U16 => crcStep c b) ∧
  (∀ c : U16, Function.Injective fun b : Byte => crcStep c b) ∧
  (∀ (before after : List Byte) (x y : Byte), x ≠ y → crc16 (before ++ x :: after) ≠ crc16 (before ++ y :: after))

/-- R109 (a): the accumulator run over a block and its trailer is 0x0000 when the trailer is sent low byte first, and is
not constant for the trailer as this protocol sends it. -/
def Obligations.ResidueOnlyWithLowByteFirst : Prop :=
  (∀ s : List Byte, crc16 (s ++ [lo8 (crc16 s), hi8 (crc16 s)]) = 0x0000#16) ∧
  (∃ s₁ s₂ : List Byte, crc16 (s₁ ++ trailer s₁) ≠ crc16 (s₂ ++ trailer s₂))

/-- R101, R102, R150: the three `function` rows run in every state, leave every register, stream and port as it was, and
give their function's value. That they run as operations, and where the value stands, is the model's choice (log entry
10). That an over-long `ENCODE` leaves `tx_ev` and its stream as they were, where R150 raises, is the model's reading (log
entry 11, DEDUCED). -/
def Obligations.FunctionRowsRunEverywhere : Prop :=
  ∀ s : State,
    (∀ c b, exec (.crcStep c b) s = .next { s with out := { s.out with fn := some (.u16 (crcStep c b)) } }) ∧
    (∀ bytes, exec (.crc16 bytes) s =
      .next { s with out := { s.out with fn := some (.u16 (bytes.foldl crcStep 0xFFFF#16)) } }) ∧
    (∀ op args, exec (.encode op args) s = .next { s with out := { s.out with fn := some (encodeFrame op args) } })

/-- R105: `G.INIT` is selected by `g_init == 1` whatever `g_en` and `g_data` are, and writes `CRC_INIT` to `g_crc` and
nothing else. -/
def Obligations.GInitRestartsThePort : Prop :=
  (∀ p : InPins, p.gInit = true → selectG p = some .gInit) ∧
  (∀ s : State, exec .gInit s = .next { s with gCrc := 0xFFFF#16 })

/-- R106: `G.UPDATE` is selected by `g_init == 0` and `g_en == 1` with the byte on `g_data`, and advances `g_crc` by
`crc_step` of it and changes nothing else. -/
def Obligations.GUpdateAdvancesThePort : Prop :=
  (∀ p : InPins, p.gInit = false → p.gEn = true → selectG p = some (.gUpdate p.gData)) ∧
  (∀ (s : State) (b : Byte), exec (.gUpdate b) s = .next { s with gCrc := crcStep s.gCrc b })

/-- R106, R60: over any cycles without `rst` and `G.INIT`, whatever the other ports do (`link_close` included), `g_crc`
advances by exactly the bytes presented with `g_en`, in order; from `CRC_INIT` it is their `crc16`. -/
def Obligations.GPortChecksumsWhatItIsGiven : Prop :=
  ∀ (s : State) (ps : List InPins) (rest : List Item), s.Inv → s.script = ps.map .clock ++ rest →
    (∀ p ∈ ps, p.rst = false ∧ p.gInit = false) →
    ∃ t, run ps.length s = .next t ∧
      t.gCrc = ((ps.filter (·.gEn)).map (·.gData)).foldl crcStep s.gCrc ∧
      (s.gCrc = params.crcInit → t.gCrcOut = crc16 ((ps.filter (·.gEn)).map (·.gData)))

/-! ### The serial frame decoder, operation by operation (41_decoder.md) -/

/-- R121 -/
def Obligations.MarkTextOpensTextBody : Prop :=
  ∀ s : State, s.rx.state = .awaitingMarker →
    selectRx s.view 0x02#8 = .ok .rxMarkText ∧
    ∃ t, exec .rxMarkText s = .next t ∧ t.rx = { s.rx with cnt := 0#11, state := .textBody } ∧
      NoRxEvent s t ∧ KeepsBuf s t ∧ KeepsOutsideRx s t

/-- R122 -/
def Obligations.MarkBinOpensBinaryFrame : Prop :=
  ∀ s : State, s.rx.state = .awaitingMarker →
    selectRx s.view 0xFF#8 = .ok .rxMarkBin ∧
    ∃ t, exec .rxMarkBin s = .next t ∧ t.rx = { s.rx with cnt := 0#11, state := .binaryLength } ∧
      NoRxEvent s t ∧ KeepsBuf s t ∧ KeepsOutsideRx s t

/-- R123 -/
def Obligations.MarkBadReportsTheByte : Prop :=
  ∀ (s : State) (b : Byte), s.rx.state = .awaitingMarker → b ≠ 0x02#8 → b ≠ 0xFF#8 →
    selectRx s.view b = .ok (.rxMarkBad b) ∧
    ∃ t, exec (.rxMarkBad b) s = .next t ∧ EmitsRx (.unrecognizedMarker b) s t ∧ t.rx.Idle ∧
      KeepsBuf s t ∧ KeepsOutsideRx s t

/-- R124, in states with a canonical buffer (`Buf.wf`, kept by every step). -/
def Obligations.TextDataStoresTheByte : Prop :=
  ∀ (s : State) (b : Byte), s.rx.buf.wf = true → s.rx.state = .textBody → b ≠ 0x03#8 → s.rx.cnt.toNat + 1 < 1024 →
    selectRx s.view b = .ok (.rxTextData b) ∧
    ∃ t, exec (.rxTextData b) s = .next t ∧ StoresOnly s.rx.cnt.toNat b s t ∧
      t.rx.cnt.toNat = s.rx.cnt.toNat + 1 ∧ t.rx = { s.rx with cnt := t.rx.cnt, buf := t.rx.buf } ∧
      NoRxEvent s t ∧ KeepsOutsideRx s t

/-- R125, for every `rx_cnt` whose bytes lie in the buffer (R25 keeps it at 1023 or less between steps). -/
def Obligations.TextEndEmitsTheText : Prop :=
  ∀ s : State, s.rx.state = .textBody → s.rx.cnt.toNat ≤ 1024 →
    selectRx s.view 0x03#8 = .ok .rxTextEnd ∧
    ∃ t, exec .rxTextEnd s = .next t ∧ EmitsRx (.textBlock (s.rx.buf.slice 0 s.rx.cnt.toNat)) s t ∧ t.rx.Idle ∧
      KeepsBuf s t ∧ KeepsOutsideRx s t

/-- R126, in states with a canonical buffer: the event carries the 1023 bytes before and the byte `b`. -/
def Obligations.TextTruncEmitsAllCollected : Prop :=
  ∀ (s : State) (b : Byte), s.rx.buf.wf = true → s.rx.state = .textBody → b ≠ 0x03#8 → s.rx.cnt.toNat + 1 = 1024 →
    selectRx s.view b = .ok (.rxTextTrunc b) ∧
    ∃ t, exec (.rxTextTrunc b) s = .next t ∧ EmitsRx (.textTruncated (s.rx.buf.slice 0 1023 ++ [b])) s t ∧
      t.rx.Idle ∧ StoresOnly 1023 b s t ∧ KeepsOutsideRx s t

/-- R127 -/
def Obligations.LenOpensPayload : Prop :=
  ∀ (s : State) (n : Byte), s.rx.state = .binaryLength →
    selectRx s.view n = .ok (.rxLen n) ∧
    ∃ t, exec (.rxLen n) s = .next t ∧
      t.rx = { state := .binaryPayload, len := n, cnt := 0#11, crc := 0xFFFF#16, trailHi := 0#8, buf := s.rx.buf } ∧
      NoRxEvent s t ∧ KeepsBuf s t ∧ KeepsOutsideRx s t

/-- R128, in states with a canonical buffer. -/
def Obligations.BinDataAccumulates : Prop :=
  ∀ (s : State) (b : Byte), s.rx.buf.wf = true → s.rx.state = .binaryPayload → s.rx.cnt.toNat < s.rx.len.toNat →
    selectRx s.view b = .ok (.rxBinData b) ∧
    ∃ t, exec (.rxBinData b) s = .next t ∧ StoresOnly s.rx.cnt.toNat b s t ∧
      t.rx.cnt.toNat = s.rx.cnt.toNat + 1 ∧ t.rx.crc = crcStep s.rx.crc b ∧
      t.rx = { s.rx with cnt := t.rx.cnt, crc := t.rx.crc, buf := t.rx.buf } ∧
      NoRxEvent s t ∧ KeepsOutsideRx s t

/-- R129 -/
def Obligations.BinCrcHiHoldsTheByte : Prop :=
  ∀ (s : State) (b : Byte), s.rx.state = .binaryPayload → s.rx.cnt.toNat = s.rx.len.toNat →
    selectRx s.view b = .ok (.rxBinCrcHi b) ∧
    ∃ t, exec (.rxBinCrcHi b) s = .next t ∧ t.rx.cnt.toNat = s.rx.cnt.toNat + 1 ∧
      t.rx = { s.rx with trailHi := b, cnt := t.rx.cnt } ∧
      NoRxEvent s t ∧ KeepsBuf s t ∧ KeepsOutsideRx s t

/-- R130: the three branches, each emitting exactly one event and ending idle. -/
def Obligations.BinCrcLoJudgesTheFrame : Prop :=
  ∀ (s : State) (b : Byte), s.rx.state = .binaryPayload → s.rx.cnt.toNat = s.rx.len.toNat + 1 →
    selectRx s.view b = .ok (.rxBinCrcLo b) ∧
    ∃ t, exec (.rxBinCrcLo b) s = .next t ∧ t.rx.Idle ∧ KeepsBuf s t ∧ KeepsOutsideRx s t ∧
      (s.rx.crc ≠ be16 s.rx.trailHi b →
        EmitsRx (.crcMismatch s.rx.len (be16 s.rx.trailHi b) s.rx.crc) s t) ∧
      (s.rx.crc = be16 s.rx.trailHi b → s.rx.len = 0#8 → EmitsRx (.emptyFrame (be16 s.rx.trailHi b)) s t) ∧
      (s.rx.crc = be16 s.rx.trailHi b → s.rx.len ≠ 0#8 →
        EmitsRx (.frame (s.rx.buf.read 0) (s.rx.buf.slice 1 (s.rx.len.toNat - 1)) s.rx.len (be16 s.rx.trailHi b)) s t)

/-- R88, R128, the model's choice of log entry 12: each informative opcode row, run where the next byte received is an
opcode, has exactly the effect of `RX.BIN_DATA` with its byte, which is stored at index 0, summed and counted. -/
def Obligations.FrameOpcodesAreBlockBytes : Prop :=
  ∀ (s : State) (i : Instr) (b : Byte),
    (i, b) ∈ [(Instr.frameGetStatus, 0x01#8), (.frameStart, 0x02#8), (.frameDelete, 0x03#8), (.frameSendData, 0x04#8),
      (.frameDataFromTask, 0x07#8), (.frameReceiveError, 0xFE#8)] →
    s.rx.buf.wf = true → s.rx.state = .binaryPayload → s.rx.cnt = 0#11 → s.rx.len ≠ 0#8 →
    exec i s = exec (.rxBinData b) s ∧
    ∃ t, exec i s = .next t ∧ StoresOnly 0 b s t ∧ t.rx.cnt = 1#11 ∧ t.rx.crc = crcStep s.rx.crc b ∧
      t.rx = { s.rx with cnt := t.rx.cnt, crc := t.rx.crc, buf := t.rx.buf } ∧
      NoRxEvent s t ∧ KeepsOutsideRx s t

/-! ### The serial frame encoder, operation by operation (42_encoder.md) -/

/-- R150: `encode` is rejected exactly when `len(args) > 254`; otherwise it is length, opcode, arguments and checksum,
high byte first, `len(args) + 4` bytes in all. -/
def Obligations.EncodeLaysOutTheFrame : Prop :=
  ∀ (op : Byte) (args : List Byte),
    (254 < args.length → encodeFrame op args = .tooLong args.length) ∧
    (args.length ≤ 254 → ∃ bytes, encodeFrame op args = .wire bytes ∧ bytes.length = args.length + 4 ∧
      bytes = [BitVec.ofNat 8 (1 + args.length)] ++ ([op] ++ args) ++
        [hi8 (crc16 ([op] ++ args)), lo8 (crc16 ([op] ++ args))])

/-- R152 -/
def Obligations.CmdLoadsTheCommand : Prop :=
  ∀ (s : State) (op : Byte) (argsLen : U16), s.tx.state = .idle → argsLen.toNat ≤ 254 →
    (∀ p : InPins, p.txCmdValid = true → p.txCmdOpcode = op → p.txCmdArgsLen = argsLen →
      selectTx s.view p = .ok (.txCmd op argsLen)) ∧
    ∃ t, exec (.txCmd op argsLen) s = .next t ∧ t.tx.op = op ∧ t.tx.n.toNat = argsLen.toNat + 1 ∧
      t.tx.rem.toNat = argsLen.toNat ∧ t.tx.crc = 0xFFFF#16 ∧ t.tx.state = .len ∧
      t.wire = s.wire ∧ t.txEvents = s.txEvents ∧ KeepsBuf s t ∧ t = { s with tx := t.tx }

/-- R158 -/
def Obligations.RejectReportsAndChangesNothing : Prop :=
  ∀ (s : State) (op : Byte) (argsLen : U16), s.tx.state = .idle → 254 < argsLen.toNat →
    (∀ p : InPins, p.txCmdValid = true → p.txCmdOpcode = op → p.txCmdArgsLen = argsLen →
      selectTx s.view p = .ok (.txReject op argsLen)) ∧
    ∃ t, exec (.txReject op argsLen) s = .next t ∧ t.tx = s.tx ∧ t.wire = s.wire ∧
      t.txEvents = s.txEvents ++ [.encoderPayloadTooLong argsLen] ∧
      t.out.txEv = some (.encoderPayloadTooLong argsLen) ∧ KeepsBuf s t ∧ KeepsOutsideTx s t

/-- R153 -/
def Obligations.LenByteGoesOut : Prop :=
  ∀ s : State, s.tx.state = .len →
    (∀ p : InPins, p.txOutReady = true → selectTx s.view p = .ok .txLen) ∧
    ∃ t, exec .txLen s = .next t ∧ t.wire = s.wire ++ [s.tx.n] ∧ t.tx = { s.tx with state := .opcode } ∧
      NoTxEvent s t ∧ KeepsBuf s t ∧ KeepsOutsideTx s t

/-- R154 -/
def Obligations.OpcodeByteGoesOut : Prop :=
  ∀ s : State, s.tx.state = .opcode →
    (∀ p : InPins, p.txOutReady = true → selectTx s.view p = .ok .txOpcode) ∧
    ∃ t, exec .txOpcode s = .next t ∧ t.wire = s.wire ++ [s.tx.op] ∧
      t.tx = { s.tx with
        crc := crcStep s.tx.crc s.tx.op
        state := if s.tx.rem = 0#8 then .crcHi else .args } ∧
      NoTxEvent s t ∧ KeepsBuf s t ∧ KeepsOutsideTx s t

/-- R155, where `tx_rem >= 1` (R45 (c)). -/
def Obligations.ArgumentByteGoesOut : Prop :=
  ∀ (s : State) (a : Byte), s.tx.state = .args → 1 ≤ s.tx.rem.toNat →
    (∀ p : InPins, p.txOutReady = true → p.txArgValid = true → p.txArgData = a →
      selectTx s.view p = .ok (.txArg a)) ∧
    ∃ t, exec (.txArg a) s = .next t ∧ t.wire = s.wire ++ [a] ∧ t.tx.rem.toNat = s.tx.rem.toNat - 1 ∧
      t.tx = { s.tx with
        crc := crcStep s.tx.crc a
        rem := t.tx.rem
        state := if s.tx.rem = 1#8 then .crcHi else .args } ∧
      NoTxEvent s t ∧ KeepsBuf s t ∧ KeepsOutsideTx s t

/-- R156 -/
def Obligations.CrcHighByteGoesOut : Prop :=
  ∀ s : State, s.tx.state = .crcHi →
    (∀ p : InPins, p.txOutReady = true → selectTx s.view p = .ok .txCrcHi) ∧
    ∃ t, exec .txCrcHi s = .next t ∧ t.wire = s.wire ++ [hi8 s.tx.crc] ∧ t.tx = { s.tx with state := .crcLo } ∧
      NoTxEvent s t ∧ KeepsBuf s t ∧ KeepsOutsideTx s t

/-- R157: the encoder ends in its reset state, ready for a command. -/
def Obligations.CrcLowByteEndsTheCommand : Prop :=
  ∀ s : State, s.tx.state = .crcLo →
    (∀ p : InPins, p.txOutReady = true → selectTx s.view p = .ok .txCrcLo) ∧
    ∃ t, exec .txCrcLo s = .next t ∧ t.wire = s.wire ++ [lo8 s.tx.crc] ∧ t.tx = State.reset.tx ∧
      NoTxEvent s t ∧ KeepsBuf s t ∧ KeepsOutsideTx s t ∧
      ∀ p, NoControl p → txCmdReady t.tx p = true

/-! ### Control (43_system.md) and reset (70_reset_and_hazards.md) -/

/-- R180: from any state. What has left the block and the inputs to come are untouched. -/
def Obligations.ResetClearsEveryAgent : Prop :=
  (∀ (v : View) (p : InPins), p.rst = true → decodeClock v p = .ok [.sysReset]) ∧
  ∀ s : State, ∃ t, exec .sysReset s = .next t ∧ t.rx.Idle ∧ KeepsBuf s t ∧
    t.tx = { state := .idle, op := 0#8, n := 0#8, rem := 0#8, crc := 0xFFFF#16 } ∧ t.gCrc = 0xFFFF#16 ∧
    NoRxEvent s t ∧ NoTxEvent s t ∧ t = { s with rx := t.rx, tx := t.tx, gCrc := t.gCrc }

/-- R181: from any state; `g_crc` is not changed. -/
def Obligations.CloseClearsTheLink : Prop :=
  (∀ (v : View) (p : InPins), p.rst = false → p.linkClose = true →
    decodeClock v p = .ok (.sysClose :: (selectG p).toList)) ∧
  ∀ s : State, ∃ t, exec .sysClose s = .next t ∧ t.rx.Idle ∧ KeepsBuf s t ∧
    t.tx = { state := .idle, op := 0#8, n := 0#8, rem := 0#8, crc := 0xFFFF#16 } ∧ t.gCrc = s.gCrc ∧
    NoRxEvent s t ∧ NoTxEvent s t ∧ t = { s with rx := t.rx, tx := t.tx }

/-- R185: `IDLE` changes nothing, and an agent whose step condition does not hold is idle. -/
def Obligations.IdleChangesNothing : Prop :=
  (∀ (a : Agent) (s : State), exec (.idle a) s = .next s) ∧
  ∀ (s : State) (p : InPins) (rest : List Item), NoControl p → s.script = .clock p :: rest → ∀ t, step s = .next t →
    (p.rxValid = false → t.rx = s.rx ∧ t.events = s.events ∧ t.out.ev = none) ∧
    (selectTx s.view p = .ok (.idle .tx) →
      t.tx = s.tx ∧ t.wire = s.wire ∧ t.txEvents = s.txEvents ∧ t.out.txEv = none) ∧
    (p.gInit = false → p.gEn = false → t.gCrc = s.gCrc)

/-- R182: holding `rst`, or `link_close` without `rst`, for any positive number of cycles has the result of one cycle,
from any state. -/
def Obligations.HoldingControlIsIdempotent : Prop :=
  ∀ (s : State) (ps : List InPins) (rest : List Item), ps ≠ [] → s.script = ps.map .clock ++ rest →
    ((∀ p ∈ ps, p.rst = true) →
      ∃ t, run ps.length s = .next t ∧ t.rx = s.rx.clear ∧ t.tx = TxRegs.cleared ∧ t.gCrc = 0xFFFF#16 ∧
        t.events = s.events ∧ t.txEvents = s.txEvents ∧ t.wire = s.wire ∧ t.script = rest) ∧
    ((∀ p ∈ ps, p.rst = false ∧ p.linkClose = true) →
      ∃ t, run ps.length s = .next t ∧ t.rx = s.rx.clear ∧ t.tx = TxRegs.cleared ∧
        ((∀ p ∈ ps, p.gInit = false ∧ p.gEn = false) → t.gCrc = s.gCrc) ∧
        t.events = s.events ∧ t.txEvents = s.txEvents ∧ t.wire = s.wire ∧ t.script = rest)

/-- R183: in a cycle with `rst` or `link_close` no input of the link is consumed and the encoder's handshake outputs are
inactive, whatever is presented; the CRC port is stopped by `rst` and not by `link_close`. -/
def Obligations.ControlCycleConsumesNothing : Prop :=
  ∀ (s : State) (p : InPins) (rest : List Item), s.script = .clock p :: rest → (p.rst = true ∨ p.linkClose = true) →
    ∃ t, step s = .next t ∧ t.rx = s.rx.clear ∧ t.tx = TxRegs.cleared ∧ t.script = rest ∧
      t.events = s.events ∧ t.txEvents = s.txEvents ∧ t.wire = s.wire ∧ t.out.ev = none ∧ t.out.txEv = none ∧
      t.out.txCmdReady = false ∧ t.out.txArgReady = false ∧ t.out.txOut = none ∧
      (p.rst = true → t.gCrc = 0xFFFF#16) ∧
      (p.rst = false → p.gInit = true → t.gCrc = 0xFFFF#16) ∧
      (p.rst = false → p.gInit = false → p.gEn = true → t.gCrc = crcStep s.gCrc p.gData) ∧
      (p.rst = false → p.gInit = false → p.gEn = false → t.gCrc = s.gCrc)

/-- R220: the reset state's registers and outputs, and `SYS.RESET` from any state produces those registers. `rx_buf` is
left out: the rule calls it unspecified. -/
def Obligations.ResetStateIsTheResetTable : Prop :=
  State.reset.rx.Idle ∧ State.reset.tx = { state := .idle, op := 0#8, n := 0#8, rem := 0#8, crc := 0xFFFF#16 } ∧
  State.reset.rx.crc = 0xFFFF#16 ∧ State.reset.gCrc = 0xFFFF#16 ∧ State.reset.gCrcOut = 0xFFFF#16 ∧
  State.reset.out.ev = none ∧ State.reset.out.txEv = none ∧ State.reset.out.txOut = none ∧
  State.reset.out.txCmdReady = true ∧ State.reset.out.txArgReady = false ∧
  ∀ s : State, ∃ t, exec .sysReset s = .next t ∧ t.rx = { State.reset.rx with buf := t.rx.buf } ∧
    t.tx = State.reset.tx ∧ t.gCrc = State.reset.gCrc

/-! ### Selection and encoding (30_encoding.md) -/

/-- R80: a received byte selects the operation `i` exactly when `i` is a row of the decoder's table whose byte, operand
condition and state condition hold; so the rows are exclusive. Within the ranges of R29 some row is selected. -/
def Obligations.RxSelectionIsTheTable : Prop :=
  (∀ (v : View) (b : Byte) (i : Instr), selectRx v b = .ok i ↔
    encode i = .clock (rxCycle b) ∧ i.wellFormed = true ∧ i.enabledIn v = true) ∧
  (∀ (v : View) (b : Byte), (v.rxState = .textBody → v.rxCnt.toNat ≤ 1023) →
    (v.rxState = .binaryPayload → v.rxCnt.toNat ≤ v.rxLen.toNat + 1) → ∃ i, selectRx v b = .ok i)

/-- A few port values written out from R80 to R83 select what the tables say. -/
def Obligations.SampleInputsDecode : Prop :=
  decode State.reset.view (.clock { InPins.quiet with rxValid := true, rxData := 0x02#8 }) =
    .ok [.rxMarkText, .idle .tx, .idle .g] ∧
  decode State.reset.view (.clock { InPins.quiet with txCmdValid := true, txCmdOpcode := 4#8, txCmdArgsLen := 256#16 }) =
    .ok [.idle .rx, .txReject 4#8 256#16, .idle .g] ∧
  decode State.reset.view (.clock { InPins.quiet with gInit := true, gEn := true, gData := 0x55#8 }) =
    .ok [.idle .rx, .idle .tx, .gInit] ∧
  decode State.reset.view
    (.clock { InPins.quiet with rst := true, linkClose := true, rxValid := true, rxData := 0xFF#8 }) = .ok [.sysReset]

/-- Decode and encode agree: for every operation, with every operand its row admits, in every state that selects it, the
inputs `encode` gives select exactly that operation, and nothing else but idle agents. R80 to R83 state the selection for
the rows that port values select. For the three function rows and the six `FRAME` rows, which no input of the block
selects (R101, R89), the selecting items are the model's choice (log entries 10 and 12); R88 gives the `FRAME` rows' bytes. -/
def Obligations.DecodeOfEncode : Prop :=
  ∀ (v : View) (i : Instr), i.wellFormed = true → i.enabledIn v = true →
    decode v (encode i) = .ok i.alone ∧ i ∈ i.alone ∧ ∀ j ∈ i.alone, j = i ∨ ∃ a, j = .idle a

/-- The decoder gives only operations that their rows admit in that state. For the function rows and the `FRAME` rows the
selection is the model's choice (log entries 10 and 12). -/
def Obligations.DecodedOperationsAreSelected : Prop :=
  ∀ (v : View) (item : Item) (ops : List Instr), decode v item = .ok ops →
    ∀ i ∈ ops, i.wellFormed = true ∧ i.enabledIn v = true

/-! ### The step -/

/-- A step runs the decoded operations: with an item queued, the operations it selects, one after the other, on the state
with the item taken and the cycle's outputs set; when the item is the encoding of one well-formed operation that the
state selects, that is `exec` of it; with nothing queued, nothing but the outputs changes. That the operations of one
cycle run one after the other is the model's choice (log entry 14, DEDUCED from R61), and so are the queued inputs and the
idle cycle of an empty queue (log entry 1, DESIGN CHOICE). -/
def Obligations.StepRunsWhatIsDecoded : Prop :=
  (∀ (s : State) (item : Item) (rest : List Item) (ops : List Instr), s.script = item :: rest →
    decode s.view item = .ok ops → step s = runOps ops (beginCycle item rest s)) ∧
  (∀ (s : State) (i : Instr) (rest : List Item), i.wellFormed = true → i.enabledIn s.view = true →
    s.script = encode i :: rest → step s = exec i (beginCycle (encode i) rest s)) ∧
  (∀ s : State, s.script = [] → step s = .next { s with out := cycleOutputs s.tx InPins.quiet })

/-- Where an operation has a meaning, from the invariant: it runs exactly in the states, and with the operands, of its
row; elsewhere it is refused by name. The model's choices: the refusal (log entry 9), for `TX.ARG` at `tx_rem == 0` log
entry 19; that the function rows run as operations (log entry 10); that the `FRAME` rows run in the opcode position (log
entry 12). -/
def Obligations.OperationsRunWhereSelected : Prop :=
  ∀ (i : Instr) (s : State), s.Inv →
    ((i.wellFormed = true ∧ i.enabledIn s.view = true) → ∃ t, exec i s = .next t) ∧
    (¬(i.wellFormed = true ∧ i.enabledIn s.view = true) → exec i s = .refused .notSelected)

/-- R120, R211: from the invariant no input stops the machine, an empty queue of inputs among them (log entry 1). -/
def Obligations.NoInputStopsTheMachine : Prop :=
  ∀ s : State, s.Inv → ∃ t, step s = .next t

/-- Outside the invariant the machine stops by name, by the model's choice: where no row of R80 covers the counters (U5, log
entry 8), where R81's row for `TX.ARG` applies but R155 and R160 give `tx_rem - 1` no value (U5, log entry 19), and where a
read leaves the buffer (U4, log entry 7). -/
def Obligations.UnreachableRegistersStop : Prop :=
  (∀ (s : State) (b : Byte) (rest : List Item), s.script = .clock (rxCycle b) :: rest → s.rx.state = .textBody →
    b ≠ 0x03#8 → 1024 ≤ s.rx.cnt.toNat → step s = .refused (.undecodable .rxNoRow)) ∧
  (∀ (s : State) (b : Byte) (rest : List Item), s.script = .clock (rxCycle b) :: rest →
    s.rx.state = .binaryPayload → s.rx.len.toNat + 1 < s.rx.cnt.toNat → step s = .refused (.undecodable .rxNoRow)) ∧
  (∀ (s : State) (a : Byte) (rest : List Item), s.script = .clock (argCycle a) :: rest → s.tx.state = .args →
    s.tx.rem = 0#8 → step s = .refused (.undecodable .txNoRow)) ∧
  (∀ s : State, s.rx.state = .textBody → 1024 < s.rx.cnt.toNat → exec .rxTextEnd s = .fault .bufferIndex)

/-! ### Invariants (10_state.md R29, R45) -/

/-- The reset state satisfies the invariant. -/
def Obligations.ResetSatisfiesTheInvariant : Prop := State.reset.Inv

/-- R29: every step keeps the decoder's invariant, whatever the encoder's state is. -/
def Obligations.StepKeepsRxInvariant : Prop :=
  ∀ s t : State, s.rx.Inv → step s = .next t → t.rx.Inv

/-- R45: every step keeps the encoder's invariant, whatever the decoder's state is. -/
def Obligations.StepKeepsTxInvariant : Prop :=
  ∀ s t : State, s.tx.Inv s.wire → step s = .next t → t.tx.Inv t.wire

/-! ### Events and outputs (10_state.md R33, R36; 60_exceptions.md) -/

/-- R191: every event that a step emits from a state of the invariant has its fields in the table's ranges, and the flat
port's length field loses nothing. R190: the kinds have the codes of the table, 0 is no event, and bit 2 is 1 exactly for
the error kinds. R33, R191: the flat signals of each kind, with the fields the kind does not use 0. -/
def Obligations.EmittedEventsAreInRange : Prop :=
  (∀ s t : State, s.Inv → step s = .next t →
    (∀ e, t.out.ev = some e → e.InRange ∧ (evPins e).evLen.toNat = (evPins e).evData.length) ∧
    (∀ l, t.out.txEv = some (.encoderPayloadTooLong l) → 255 ≤ l.toNat)) ∧
  (evKind none = 0#3 ∧ txEvKind none = 0#3 ∧
    (∀ e, evKind (some e) = rxEventKind e ∧ (evPins e).evKind = rxEventKind e ∧
      ((rxEventKind e).getLsbD 2 = true ↔ e.isError = true) ∧
      (e.isError = true ↔
        (∃ b, e = .unrecognizedMarker b) ∨ (∃ text, e = .textTruncated text) ∨ ∃ n r c, e = .crcMismatch n r c)) ∧
    (∀ e, txEvKind (some e) = txEventKind e ∧ (txEvPins e).txEvKind = txEventKind e ∧
      (txEventKind e).getLsbD 2 = true)) ∧
  (∀ text, evPins (.textBlock text) =
    { evValid := true, evKind := 1#3, evOpcode := 0#8, evN := 0#8, evLen := BitVec.ofNat 11 text.length, evData := text,
      evByte := 0#8, evCrcRx := 0#16, evCrcCalc := 0#16 }) ∧
  (∀ op args n crc, evPins (.frame op args n crc) =
    { evValid := true, evKind := 2#3, evOpcode := op, evN := n, evLen := BitVec.ofNat 11 args.length, evData := args,
      evByte := 0#8, evCrcRx := crc, evCrcCalc := crc }) ∧
  (∀ crc, evPins (.emptyFrame crc) =
    { evValid := true, evKind := 3#3, evOpcode := 0#8, evN := 0#8, evLen := 0#11, evData := [], evByte := 0#8,
      evCrcRx := crc, evCrcCalc := crc }) ∧
  (∀ b, evPins (.unrecognizedMarker b) =
    { evValid := true, evKind := 4#3, evOpcode := 0#8, evN := 0#8, evLen := 0#11, evData := [], evByte := b,
      evCrcRx := 0#16, evCrcCalc := 0#16 }) ∧
  (∀ text, evPins (.textTruncated text) =
    { evValid := true, evKind := 5#3, evOpcode := 0#8, evN := 0#8, evLen := BitVec.ofNat 11 text.length, evData := text,
      evByte := 0#8, evCrcRx := 0#16, evCrcCalc := 0#16 }) ∧
  (∀ n crcRx crcCalc, evPins (.crcMismatch n crcRx crcCalc) =
    { evValid := true, evKind := 6#3, evOpcode := 0#8, evN := n, evLen := 0#11, evData := [], evByte := 0#8,
      evCrcRx := crcRx, evCrcCalc := crcCalc }) ∧
  (∀ l, txEvPins (.encoderPayloadTooLong l) = { txEvValid := true, txEvKind := 7#3, txEvArgsLen := l })

/-- R33, R59: a step emits at most one event per port, on the port and at the end of its stream alike; nothing else is
added to the streams. -/
def Obligations.AtMostOneEventPerStep : Prop :=
  ∀ s t : State, step s = .next t →
    t.events = s.events ++ t.out.ev.toList ∧ t.txEvents = s.txEvents ++ t.out.txEv.toList

/-- R197, R194, R138: every event of the decoder leaves it idle; and, without `rst` and `link_close`, a decoder in
mid-frame returns to `AwaitingMarker` in a step exactly when that step emits an event. -/
def Obligations.EveryEventLeavesTheDecoderIdle : Prop :=
  (∀ s t : State, step s = .next t → t.out.ev ≠ none → t.rx.Idle) ∧
  (∀ (s t : State) (p : InPins) (rest : List Item), s.script = .clock p :: rest → NoControl p →
    s.rx.state ≠ .awaitingMarker → step s = .next t → (t.rx.state = .awaitingMarker ↔ t.out.ev ≠ none))

/-- R36: the encoder's handshake outputs in a cycle, and the output stream grows by the offered byte exactly when the
output is ready. -/
def Obligations.HandshakesFollowStateAndInputs : Prop :=
  ∀ (s t : State) (p : InPins) (rest : List Item), s.script = .clock p :: rest → step s = .next t →
    (t.out.txCmdReady = true ↔ s.tx.state = .idle ∧ p.rst = false ∧ p.linkClose = false) ∧
    (t.out.txArgReady = true ↔ s.tx.state = .args ∧ p.txOutReady = true ∧ p.rst = false ∧ p.linkClose = false) ∧
    (t.out.txOut ≠ none ↔ NoControl p ∧ s.tx.state ≠ .idle ∧ (s.tx.state = .args → p.txArgValid = true)) ∧
    t.wire = s.wire ++ (if p.txOutReady = true then t.out.txOut.toList else []) ∧
    t.gCrcOut = t.gCrc

/-! ### Agents and stale bytes (20_memory.md R59 to R61; 10_state.md R29 (e)) -/

/-- R60, R61: each agent's next registers and all its outputs (R33, R36, R37) are a function of its own registers and its
own inputs: two states that agree there, whatever the other agents and inputs are, agree there after a step. -/
def Obligations.AgentsDoNotInterfere : Prop :=
  ∀ (s s' t t' : State) (p p' : InPins) (rest rest' : List Item),
    s.script = .clock p :: rest → s'.script = .clock p' :: rest' → step s = .next t → step s' = .next t' →
    (s'.rx = s.rx → SameForRx p p' → t'.rx = t.rx ∧ t'.out.ev = t.out.ev) ∧
    (s'.tx = s.tx → SameForTx p p' →
      t'.tx = t.tx ∧ t'.out.txEv = t.out.txEv ∧ t'.out.txCmdReady = t.out.txCmdReady ∧
      t'.out.txArgReady = t.out.txArgReady ∧ t'.out.txOut = t.out.txOut) ∧
    (s'.gCrc = s.gCrc → SameForG p p' → t'.gCrc = t.gCrc ∧ t'.gCrcOut = t.gCrcOut)

/-- R29 (e), U2: no event, output or register depends on a byte of `rx_buf` that was not written in the frame in
progress: two states of the invariant that agree but for such bytes emit the same event and still agree but for such
bytes. -/
def Obligations.StaleBufferBytesAreNeverRead : Prop :=
  ∀ (s s' t : State), s.Inv → s'.Inv → SameLive s.rx s'.rx → s' = { s with rx := s'.rx } → step s = .next t →
    ∃ t', step s' = .next t' ∧ SameLive t.rx t'.rx ∧ t' = { t with rx := t'.rx }

/-! ### Whole frames (41_decoder.md R133 to R135; 42_encoder.md R159, R162) -/

/-- R134: the round trip, for every opcode, every argument sequence of 0 to 254 bytes, from any state with an idle
decoder and a canonical buffer: no event before the last byte, the frame at the last byte, and the decoder idle again. -/
def Obligations.DecoderInvertsEncoder : Prop :=
  ∀ (s : State) (op : Byte) (args bytes : List Byte) (rest : List Item),
    s.rx.Idle → s.rx.buf.wf = true → args.length ≤ 254 →
    encodeFrame op args = .wire bytes → s.script = feedBytes ([0xFF#8] ++ bytes) ++ rest →
    (∀ k, k < args.length + 5 → ∃ u, run k s = .next u ∧ u.events = s.events) ∧
    ∃ t, run (args.length + 5) s = .next t ∧
      EmitsRx (.frame op args (BitVec.ofNat 8 (1 + args.length)) (crc16 ([op] ++ args))) s t ∧
      t.rx.Idle ∧ t.script = rest

/-- R108 (e), R130: any trailer other than the computed checksum gives `CrcMismatch` at the frame's last byte and no
other event; so any flipped non-empty set of trailer bits is caught. -/
def Obligations.WrongTrailerIsAlwaysCaught : Prop :=
  ∀ (s : State) (op : Byte) (args : List Byte) (x : U16) (rest : List Item), s.rx.Idle → args.length ≤ 254 →
    x ≠ crc16 (op :: args) → s.script = feedBytes (badFrameBytes op args x) ++ rest →
    (∀ k, k < args.length + 5 → ∃ u, run k s = .next u ∧ u.events = s.events) ∧
    ∃ t, run (args.length + 5) s = .next t ∧
      EmitsRx (.crcMismatch (BitVec.ofNat 8 (1 + args.length)) x (crc16 (op :: args))) s t ∧ t.rx.Idle

/-- R132, R198 (c): a text frame of at most 1023 body bytes gives its `TextBlock` at the terminator and no event before;
a body that reaches 1024 bytes gives `TextTruncated` at the 1024th. -/
def Obligations.TextFramesResolveAtTheirLastByte : Prop :=
  ∀ (s : State) (body : List Byte) (rest : List Item), s.rx.Idle → s.rx.buf.wf = true → 0x03#8 ∉ body →
    (body.length ≤ 1023 → s.script = feedBytes (textBytes body) ++ rest →
      (∀ k, k < body.length + 2 → ∃ u, run k s = .next u ∧ u.events = s.events) ∧
      ∃ t, run (body.length + 2) s = .next t ∧ EmitsRx (.textBlock body) s t ∧ t.rx.Idle) ∧
    (body.length = 1024 → s.script = feedBytes ([0x02#8] ++ body) ++ rest →
      (∀ k, k < 1025 → ∃ u, run k s = .next u ∧ u.events = s.events) ∧
      ∃ t, run 1025 s = .next t ∧ EmitsRx (.textTruncated body) s t ∧ t.rx.Idle)

/-- R135: iterating `decode_one` over a stream gives exactly the event sequence of the byte-by-byte steps. Since it holds
of every stream, it holds of every prefix, so each event stands at the byte that completes its frame; and the decoder
is in `AwaitingMarker` exactly when no bytes are left over. -/
def Obligations.StepsAgreeWithWholeFrames : Prop :=
  ∀ (s : State) (bytes : List Byte) (rest : List Item), s.rx.Idle → s.rx.buf.wf = true →
    s.script = feedBytes bytes ++ rest →
    ∃ t, run bytes.length s = .next t ∧ t.events = s.events ++ (decodeStream bytes).1 ∧
      (t.rx.state = .awaitingMarker ↔ (decodeStream bytes).2 = []) ∧ t.script = rest

/-- R133: from any state of the invariant, `resolveBound` further bytes, at most 257, 258 or 1024 by the state, are enough
to bring the decoder to `AwaitingMarker`, whatever they are; and without bytes it stays as it is for ever. -/
def Obligations.DecoderResolvesInBoundedBytes : Prop :=
  (∀ (s : State) (bytes : List Byte) (rest : List Item), s.rx.Inv → bytes.length = resolveBound s.rx →
    s.script = feedBytes bytes ++ rest →
    ∃ k t, k ≤ bytes.length ∧ run k s = .next t ∧ t.rx.state = .awaitingMarker) ∧
  (∀ r : RxRegs, (r.state = .binaryPayload → resolveBound r ≤ 257) ∧ (r.state = .binaryLength → resolveBound r ≤ 258) ∧
    (r.state = .textBody → resolveBound r ≤ 1024)) ∧
  (∀ (s : State) (ps : List InPins) (rest : List Item), s.Inv → s.script = ps.map .clock ++ rest →
    (∀ p ∈ ps, NoControl p ∧ p.rxValid = false) →
    ∃ t, run ps.length s = .next t ∧ t.rx = s.rx ∧ t.events = s.events)

/-- R159: a command of at most 254 argument bytes, whatever stalls stand before each of its steps and whatever the other
ports do (no `rst`, no `link_close`), puts exactly `encode(op, args)` on the wire and ends in the encoder's idle state;
an over-long command puts nothing there and reports the error. -/
def Obligations.EncoderStepsComputeEncode : Prop :=
  (∀ (s : State) (op : Byte) (args bytes : List Byte) (cmd len opc hi lo : List InPins) (argSegs : List (List InPins))
      (rest : List Item),
    s.Inv → s.tx.state = .idle → args.length ≤ 254 → encodeFrame op args = .wire bytes →
    UntilCmd op (BitVec.ofNat 16 args.length) cmd → UntilReady len → UntilReady opc →
    List.Forall₂ UntilArg args argSegs → UntilReady hi → UntilReady lo →
    s.script = (cmd ++ len ++ opc ++ argSegs.flatten ++ hi ++ lo).map .clock ++ rest →
    ∃ t, run (cmd ++ len ++ opc ++ argSegs.flatten ++ hi ++ lo).length s = .next t ∧ t.wire = s.wire ++ bytes ∧
      t.tx = TxRegs.cleared ∧ t.txEvents = s.txEvents ∧ t.script = rest) ∧
  (∀ (s : State) (op : Byte) (argsLen : U16) (cmd : List InPins) (rest : List Item),
    s.Inv → s.tx.state = .idle → 254 < argsLen.toNat → UntilCmd op argsLen cmd → s.script = cmd.map .clock ++ rest →
    ∃ t, run cmd.length s = .next t ∧ t.wire = s.wire ∧ t.tx = TxRegs.cleared ∧
      t.txEvents = s.txEvents ++ [.encoderPayloadTooLong argsLen])

/-- R162: while the output is not ready, or in `TxArgs` the argument byte is not present, an encoder at work keeps its
state and sends nothing, for any number of cycles; in `TxLen`, `TxOpcode`, `TxCrcHi` and `TxCrcLo` it offers the same
byte in each of them. -/
def Obligations.StallingHoldsTheByte : Prop :=
  ∀ (s : State) (ps : List InPins) (rest : List Item), s.Inv → s.tx.state ≠ .idle →
    s.script = ps.map .clock ++ rest →
    (∀ p ∈ ps, NoControl p ∧ (p.txOutReady = true → s.tx.state = .args ∧ p.txArgValid = false)) →
    ∃ t, run ps.length s = .next t ∧ t.tx = s.tx ∧ t.wire = s.wire ∧ t.txEvents = s.txEvents ∧
      (ps ≠ [] →
        (s.tx.state = .len → t.out.txOut = some s.tx.n) ∧ (s.tx.state = .opcode → t.out.txOut = some s.tx.op) ∧
        (s.tx.state = .crcHi → t.out.txOut = some (hi8 s.tx.crc)) ∧
        (s.tx.state = .crcLo → t.out.txOut = some (lo8 s.tx.crc)))
end

