-- ==== Sys2Proof/Laws/Buf.lean ====
section
/-! SUPPORT. The laws of `rx_buf`: what is read after a write, the canonical form, and what `MemRead` and `MemWrite`
answer (spec/20_memory.md R51). -/

namespace Sys2Proof.Machine

/-! ### Read after write -/

@[simp] theorem Buf.read_nil (a : Nat) : Buf.read [] a = bufUnwritten := rfl

theorem Buf.read_cons (c : Host.Cell) (m : Buf) (a : Nat) :
    Buf.read (c :: m) a = if c.1 = a then c.2 else Buf.read m a := rfl

/-- An index below every listed one reads as unwritten. -/
theorem Buf.read_below {lo : Nat} {m : Buf} (h : Buf.wfFrom lo m = true) {a : Nat} (ha : a < lo) :
    m.read a = bufUnwritten := by
  induction m generalizing lo with
  | nil => rfl
  | cons c m ih =>
    simp only [Buf.wfFrom, Bool.and_eq_true, decide_eq_true_eq] at h
    rw [Buf.read_cons, if_neg (by omega), ih h.2 (by omega)]

/-- In a canonical buffer a write sets its own index and leaves every other index alone. -/
theorem Buf.read_write {lo : Nat} {m : Buf} (h : Buf.wfFrom lo m = true) (a b : Nat) (v : Byte) :
    (m.write a v).read b = if b = a then v else m.read b := by
  induction m generalizing lo with
  | nil =>
    by_cases hv : v = bufUnwritten <;> simp [Buf.write, Buf.read, hv, eq_comm]
  | cons c m ih =>
    simp only [Buf.wfFrom, Bool.and_eq_true, decide_eq_true_eq] at h
    have below : ∀ d, d < c.1 + 1 → Buf.read m d = bufUnwritten := fun d hd => Buf.read_below h.2 hd
    unfold Buf.write
    split
    · next hlt =>
      split
      · next hv =>
        subst hv
        by_cases hb : b = a
        · rw [if_pos hb, hb, Buf.read_cons, if_neg (by omega), below a (by omega)]
        · rw [if_neg hb]
      · rw [Buf.read_cons]
        by_cases hb : b = a
        · rw [if_pos hb, if_pos hb.symm]
        · rw [if_neg hb, if_neg (by simpa using fun h => hb h.symm)]
    · next hge =>
      split
      · next heq =>
        split
        · next hv =>
          subst hv
          rw [Buf.read_cons]
          by_cases hb : b = a
          · rw [if_pos hb, hb, below a (by omega)]
          · rw [if_neg hb, if_neg (by omega)]
        · rw [Buf.read_cons, Buf.read_cons]
          by_cases hb : b = a
          · rw [if_pos hb, if_pos hb.symm]
          · rw [if_neg hb, if_neg (by simpa using fun h => hb h.symm), if_neg (by omega)]
      · next hne =>
        rw [Buf.read_cons, Buf.read_cons, ih h.2]
        by_cases hb : b = a
        · rw [if_pos hb, if_neg (by omega)]; simp [hb]
        · simp [hb]

/-- On every buffer, canonical or not, a write sets its own index to a byte other than the unwritten one. -/
theorem Buf.read_write_self_of_ne (m : Buf) (a : Nat) {v : Byte} (hv : v ≠ bufUnwritten) :
    (m.write a v).read a = v := by
  induction m with
  | nil => simp [Buf.write, Buf.read, hv]
  | cons c m ih =>
    unfold Buf.write
    split
    · rw [Buf.read_cons, if_pos rfl]
    · split
      · rw [Buf.read_cons, if_pos rfl]
      · next hne => rw [Buf.read_cons, if_neg (fun h => hne h.symm), ih]

/-! ### The canonical form -/

theorem Buf.wfFrom_mono {lo lo' : Nat} {m : Buf} (h : Buf.wfFrom lo m = true) (hle : lo' ≤ lo) :
    Buf.wfFrom lo' m = true := by
  cases m with
  | nil => rfl
  | cons c m =>
    simp only [Buf.wfFrom, Bool.and_eq_true, decide_eq_true_eq] at h ⊢
    exact ⟨⟨⟨by omega, h.1.1.2⟩, h.1.2⟩, h.2⟩

/-- A write inside the buffer keeps the canonical form. -/
theorem Buf.write_wfFrom {lo : Nat} {m : Buf} (h : Buf.wfFrom lo m = true) {a : Nat} (hlo : lo ≤ a)
    (ha : a < params.rxBufDepth) (v : Byte) : Buf.wfFrom lo (m.write a v) = true := by
  induction m generalizing lo with
  | nil =>
    by_cases hv : v = bufUnwritten <;> simp_all [Buf.write, Buf.wfFrom]
  | cons c m ih =>
    have h0 := h
    simp only [Buf.wfFrom, Bool.and_eq_true, decide_eq_true_eq, bne_iff_ne, ne_eq] at h
    unfold Buf.write
    split
    · next hlt =>
      split
      · exact h0
      · next hv =>
        simp only [Buf.wfFrom, Bool.and_eq_true, decide_eq_true_eq, bne_iff_ne, ne_eq]
        exact ⟨⟨⟨hlo, ha⟩, hv⟩, ⟨⟨by omega, h.1.1.2⟩, h.1.2⟩, h.2⟩
    · split
      · next heq =>
        split
        · exact Buf.wfFrom_mono h.2 (by omega)
        · next hv =>
          simp only [Buf.wfFrom, Bool.and_eq_true, decide_eq_true_eq, bne_iff_ne, ne_eq]
          exact ⟨⟨⟨hlo, ha⟩, hv⟩, by rw [heq]; exact h.2⟩
      · simp only [Buf.wfFrom, Bool.and_eq_true, decide_eq_true_eq, bne_iff_ne, ne_eq]
        exact ⟨h.1, ih h.2 (by omega)⟩

/-- A write inside the buffer keeps the canonical form. -/
theorem Buf.write_wf {m : Buf} (h : m.wf = true) {a : Nat} (ha : a < params.rxBufDepth) (v : Byte) :
    (m.write a v).wf = true :=
  Buf.write_wfFrom h (Nat.zero_le a) ha v

/-- The buffer of the reset state is canonical. -/
theorem reset_buf_wf : State.reset.rx.buf.wf = true := rfl

/-- Equal canonical buffers are equal data. -/
theorem Buf.ext_of_wfFrom {lo : Nat} {m m' : Buf} (h : Buf.wfFrom lo m = true) (h' : Buf.wfFrom lo m' = true)
    (heq : ∀ a, m.read a = m'.read a) : m = m' := by
  induction m generalizing lo m' with
  | nil =>
    cases m' with
    | nil => rfl
    | cons c m' =>
      simp only [Buf.wfFrom, Bool.and_eq_true, bne_iff_ne, ne_eq] at h'
      exact absurd (by simpa [Buf.read] using (heq c.1).symm) h'.1.2
  | cons c m ih =>
    cases m' with
    | nil =>
      simp only [Buf.wfFrom, Bool.and_eq_true, bne_iff_ne, ne_eq] at h
      exact absurd (by simpa [Buf.read] using heq c.1) h.1.2
    | cons c' m' =>
      simp only [Buf.wfFrom, Bool.and_eq_true, decide_eq_true_eq, bne_iff_ne, ne_eq] at h h'
      have hidx : c.1 = c'.1 := by
        rcases Nat.lt_trichotomy c.1 c'.1 with hlt | heq' | hgt
        · have := heq c.1
          rw [Buf.read_cons, if_pos rfl, Buf.read_cons, if_neg (by omega), Buf.read_below h'.2 (by omega)] at this
          exact absurd this h.1.2
        · exact heq'
        · have := heq c'.1
          rw [Buf.read_cons, if_neg (by omega), Buf.read_below h.2 (by omega), Buf.read_cons, if_pos rfl] at this
          exact absurd this.symm h'.1.2
      have hval : c.2 = c'.2 := by simpa [Buf.read, hidx] using heq c.1
      have hcell : c = c' := Prod.ext hidx hval
      subst hcell
      rw [ih h.2 h'.2 fun a => ?_]
      by_cases hle : a < c.1 + 1
      · rw [Buf.read_below h.2 hle, Buf.read_below h'.2 hle]
      · have := heq a
        rwa [Buf.read_cons, Buf.read_cons, if_neg (by omega), if_neg (by omega)] at this

/-! ### Slices -/

@[simp] theorem Buf.slice_length (m : Buf) (a n : Nat) : (m.slice a n).length = n := by simp [Buf.slice]

@[simp] theorem Buf.slice_zero (m : Buf) (a : Nat) : m.slice a 0 = [] := rfl

theorem Buf.slice_succ (m : Buf) (a n : Nat) : m.slice a (n + 1) = m.slice a n ++ [m.read (a + n)] := by
  simp [Buf.slice, List.range_succ]

theorem Buf.slice_cons (m : Buf) (a n : Nat) : m.slice a (n + 1) = m.read a :: m.slice (a + 1) n := by
  simp only [Buf.slice, List.range_succ_eq_map, List.map_cons, List.map_map, Nat.add_zero, List.cons.injEq, true_and]
  exact List.map_congr_left fun i _ => by simp [Nat.add_comm, Nat.add_left_comm]

theorem Buf.slice_congr {m m' : Buf} {a n : Nat} (h : ∀ i, i < n → m'.read (a + i) = m.read (a + i)) :
    m'.slice a n = m.slice a n :=
  List.map_congr_left fun i hi => h i (List.mem_range.mp hi)

/-- A write at or beyond the end of a slice leaves the slice alone. -/
theorem Buf.slice_write_of_le {m : Buf} (hm : m.wf = true) {a n i : Nat} (hi : a + n ≤ i) (v : Byte) :
    (m.write i v).slice a n = m.slice a n :=
  Buf.slice_congr fun j hj => by rw [Buf.read_write hm, if_neg (by omega)]

/-- A write at the end of a slice appends the byte. -/
theorem Buf.slice_write_succ {m : Buf} (hm : m.wf = true) (a n : Nat) (v : Byte) :
    (m.write (a + n) v).slice a (n + 1) = m.slice a n ++ [v] := by
  rw [Buf.slice_succ, Buf.slice_write_of_le hm (Nat.le_refl _), Buf.read_write hm, if_pos rfl]

/-! ### `MemRead` and `MemWrite` -/

/-- `MemRead` answers exactly when the range is inside the buffer, with the bytes there. -/
theorem memRead_eq_some {m : Buf} {a n : Nat} {bytes : List Byte} :
    memRead m a n = some bytes ↔ a + n ≤ 1024 ∧ bytes = m.slice a n := by
  unfold memRead
  split <;> simp_all [eq_comm]

theorem memRead_eq_none {m : Buf} {a n : Nat} : memRead m a n = none ↔ 1024 < a + n := by
  simp [memRead]

/-- `MemWrite` answers exactly when the index is inside the buffer. -/
theorem memWrite_eq_some {m m' : Buf} {a : Nat} {v : Byte} :
    memWrite m a v = some m' ↔ a < 1024 ∧ m' = m.write a v := by
  unfold memWrite
  split <;> simp_all [eq_comm]

theorem memWrite_eq_none {m : Buf} {a : Nat} {v : Byte} : memWrite m a v = none ↔ 1024 ≤ a := by
  simp [memWrite]

/-- `MemWrite` keeps the canonical form. -/
theorem memWrite_wf {m m' : Buf} {a : Nat} {v : Byte} (hm : m.wf = true) (h : memWrite m a v = some m') :
    m'.wf = true := by
  obtain ⟨ha, rfl⟩ := memWrite_eq_some.mp h
  exact Buf.write_wf hm (by simpa using ha) v

end Sys2Proof.Machine
end

