-- ==== Sys2Proof/Laws/State.lean ====
section
/-! SUPPORT. What each named update of the state leaves in each field: one lemma per field per update. -/

namespace Sys2Proof.Machine

variable (s : State)

/-! ### `setRx` -/

@[simp] theorem setRx_rx (r : RxRegs) : (s.setRx r).rx = r := rfl
@[simp] theorem setRx_tx (r : RxRegs) : (s.setRx r).tx = s.tx := rfl
@[simp] theorem setRx_gCrc (r : RxRegs) : (s.setRx r).gCrc = s.gCrc := rfl
@[simp] theorem setRx_out (r : RxRegs) : (s.setRx r).out = s.out := rfl
@[simp] theorem setRx_events (r : RxRegs) : (s.setRx r).events = s.events := rfl
@[simp] theorem setRx_txEvents (r : RxRegs) : (s.setRx r).txEvents = s.txEvents := rfl
@[simp] theorem setRx_wire (r : RxRegs) : (s.setRx r).wire = s.wire := rfl
@[simp] theorem setRx_script (r : RxRegs) : (s.setRx r).script = s.script := rfl

/-! ### `setTx` -/

@[simp] theorem setTx_rx (x : TxRegs) : (s.setTx x).rx = s.rx := rfl
@[simp] theorem setTx_tx (x : TxRegs) : (s.setTx x).tx = x := rfl
@[simp] theorem setTx_gCrc (x : TxRegs) : (s.setTx x).gCrc = s.gCrc := rfl
@[simp] theorem setTx_out (x : TxRegs) : (s.setTx x).out = s.out := rfl
@[simp] theorem setTx_events (x : TxRegs) : (s.setTx x).events = s.events := rfl
@[simp] theorem setTx_txEvents (x : TxRegs) : (s.setTx x).txEvents = s.txEvents := rfl
@[simp] theorem setTx_wire (x : TxRegs) : (s.setTx x).wire = s.wire := rfl
@[simp] theorem setTx_script (x : TxRegs) : (s.setTx x).script = s.script := rfl

/-! ### `setG` -/

@[simp] theorem setG_rx (v : U16) : (s.setG v).rx = s.rx := rfl
@[simp] theorem setG_tx (v : U16) : (s.setG v).tx = s.tx := rfl
@[simp] theorem setG_gCrc (v : U16) : (s.setG v).gCrc = v := rfl
@[simp] theorem setG_out (v : U16) : (s.setG v).out = s.out := rfl
@[simp] theorem setG_events (v : U16) : (s.setG v).events = s.events := rfl
@[simp] theorem setG_txEvents (v : U16) : (s.setG v).txEvents = s.txEvents := rfl
@[simp] theorem setG_wire (v : U16) : (s.setG v).wire = s.wire := rfl
@[simp] theorem setG_script (v : U16) : (s.setG v).script = s.script := rfl

/-! ### `setFn` -/

@[simp] theorem setFn_rx (r : FnResult) : (s.setFn r).rx = s.rx := rfl
@[simp] theorem setFn_tx (r : FnResult) : (s.setFn r).tx = s.tx := rfl
@[simp] theorem setFn_gCrc (r : FnResult) : (s.setFn r).gCrc = s.gCrc := rfl
@[simp] theorem setFn_out (r : FnResult) : (s.setFn r).out = { s.out with fn := some r } := rfl
@[simp] theorem setFn_events (r : FnResult) : (s.setFn r).events = s.events := rfl
@[simp] theorem setFn_txEvents (r : FnResult) : (s.setFn r).txEvents = s.txEvents := rfl
@[simp] theorem setFn_wire (r : FnResult) : (s.setFn r).wire = s.wire := rfl
@[simp] theorem setFn_script (r : FnResult) : (s.setFn r).script = s.script := rfl

/-! ### `emit` -/

@[simp] theorem emit_rx (e : RxEvent) : (s.emit e).rx = s.rx := rfl
@[simp] theorem emit_tx (e : RxEvent) : (s.emit e).tx = s.tx := rfl
@[simp] theorem emit_gCrc (e : RxEvent) : (s.emit e).gCrc = s.gCrc := rfl
@[simp] theorem emit_out (e : RxEvent) : (s.emit e).out = { s.out with ev := some e } := rfl
@[simp] theorem emit_events (e : RxEvent) : (s.emit e).events = s.events ++ [e] := rfl
@[simp] theorem emit_txEvents (e : RxEvent) : (s.emit e).txEvents = s.txEvents := rfl
@[simp] theorem emit_wire (e : RxEvent) : (s.emit e).wire = s.wire := rfl
@[simp] theorem emit_script (e : RxEvent) : (s.emit e).script = s.script := rfl

/-! ### `emitTx` -/

@[simp] theorem emitTx_rx (e : TxEvent) : (s.emitTx e).rx = s.rx := rfl
@[simp] theorem emitTx_tx (e : TxEvent) : (s.emitTx e).tx = s.tx := rfl
@[simp] theorem emitTx_gCrc (e : TxEvent) : (s.emitTx e).gCrc = s.gCrc := rfl
@[simp] theorem emitTx_out (e : TxEvent) : (s.emitTx e).out = { s.out with txEv := some e } := rfl
@[simp] theorem emitTx_events (e : TxEvent) : (s.emitTx e).events = s.events := rfl
@[simp] theorem emitTx_txEvents (e : TxEvent) : (s.emitTx e).txEvents = s.txEvents ++ [e] := rfl
@[simp] theorem emitTx_wire (e : TxEvent) : (s.emitTx e).wire = s.wire := rfl
@[simp] theorem emitTx_script (e : TxEvent) : (s.emitTx e).script = s.script := rfl

/-! ### `transmit` -/

@[simp] theorem transmit_rx (b : Byte) : (s.transmit b).rx = s.rx := rfl
@[simp] theorem transmit_tx (b : Byte) : (s.transmit b).tx = s.tx := rfl
@[simp] theorem transmit_gCrc (b : Byte) : (s.transmit b).gCrc = s.gCrc := rfl
@[simp] theorem transmit_out (b : Byte) : (s.transmit b).out = s.out := rfl
@[simp] theorem transmit_events (b : Byte) : (s.transmit b).events = s.events := rfl
@[simp] theorem transmit_txEvents (b : Byte) : (s.transmit b).txEvents = s.txEvents := rfl
@[simp] theorem transmit_wire (b : Byte) : (s.transmit b).wire = s.wire ++ [b] := rfl
@[simp] theorem transmit_script (b : Byte) : (s.transmit b).script = s.script := rfl

/-! ### `rxClear` -/

@[simp] theorem rxClear_rx : s.rxClear.rx = s.rx.clear := rfl
@[simp] theorem rxClear_tx : s.rxClear.tx = s.tx := rfl
@[simp] theorem rxClear_gCrc : s.rxClear.gCrc = s.gCrc := rfl
@[simp] theorem rxClear_out : s.rxClear.out = s.out := rfl
@[simp] theorem rxClear_events : s.rxClear.events = s.events := rfl
@[simp] theorem rxClear_txEvents : s.rxClear.txEvents = s.txEvents := rfl
@[simp] theorem rxClear_wire : s.rxClear.wire = s.wire := rfl
@[simp] theorem rxClear_script : s.rxClear.script = s.script := rfl

/-! ### `txClear` -/

@[simp] theorem txClear_rx : s.txClear.rx = s.rx := rfl
@[simp] theorem txClear_tx : s.txClear.tx = TxRegs.cleared := rfl
@[simp] theorem txClear_gCrc : s.txClear.gCrc = s.gCrc := rfl
@[simp] theorem txClear_out : s.txClear.out = s.out := rfl
@[simp] theorem txClear_events : s.txClear.events = s.events := rfl
@[simp] theorem txClear_txEvents : s.txClear.txEvents = s.txEvents := rfl
@[simp] theorem txClear_wire : s.txClear.wire = s.wire := rfl
@[simp] theorem txClear_script : s.txClear.script = s.script := rfl

/-! ### `resolve` -/

@[simp] theorem resolve_rx (e : RxEvent) : (s.resolve e).rx = s.rx.clear := rfl
@[simp] theorem resolve_tx (e : RxEvent) : (s.resolve e).tx = s.tx := rfl
@[simp] theorem resolve_gCrc (e : RxEvent) : (s.resolve e).gCrc = s.gCrc := rfl
@[simp] theorem resolve_out (e : RxEvent) : (s.resolve e).out = { s.out with ev := some e } := rfl
@[simp] theorem resolve_events (e : RxEvent) : (s.resolve e).events = s.events ++ [e] := rfl
@[simp] theorem resolve_txEvents (e : RxEvent) : (s.resolve e).txEvents = s.txEvents := rfl
@[simp] theorem resolve_wire (e : RxEvent) : (s.resolve e).wire = s.wire := rfl
@[simp] theorem resolve_script (e : RxEvent) : (s.resolve e).script = s.script := rfl

/-! ### `raiseRx` -/

@[simp] theorem raiseRx_rx (e : RxEvent) : (s.raiseRx e).rx = s.rx.clear := rfl
@[simp] theorem raiseRx_tx (e : RxEvent) : (s.raiseRx e).tx = s.tx := rfl
@[simp] theorem raiseRx_gCrc (e : RxEvent) : (s.raiseRx e).gCrc = s.gCrc := rfl
@[simp] theorem raiseRx_out (e : RxEvent) : (s.raiseRx e).out = { s.out with ev := some e } := rfl
@[simp] theorem raiseRx_events (e : RxEvent) : (s.raiseRx e).events = s.events ++ [e] := rfl
@[simp] theorem raiseRx_txEvents (e : RxEvent) : (s.raiseRx e).txEvents = s.txEvents := rfl
@[simp] theorem raiseRx_wire (e : RxEvent) : (s.raiseRx e).wire = s.wire := rfl
@[simp] theorem raiseRx_script (e : RxEvent) : (s.raiseRx e).script = s.script := rfl

/-! ### `raiseTx` -/

@[simp] theorem raiseTx_rx (e : TxEvent) : (s.raiseTx e).rx = s.rx := rfl
@[simp] theorem raiseTx_tx (e : TxEvent) : (s.raiseTx e).tx = s.tx := rfl
@[simp] theorem raiseTx_gCrc (e : TxEvent) : (s.raiseTx e).gCrc = s.gCrc := rfl
@[simp] theorem raiseTx_out (e : TxEvent) : (s.raiseTx e).out = { s.out with txEv := some e } := rfl
@[simp] theorem raiseTx_events (e : TxEvent) : (s.raiseTx e).events = s.events := rfl
@[simp] theorem raiseTx_txEvents (e : TxEvent) : (s.raiseTx e).txEvents = s.txEvents ++ [e] := rfl
@[simp] theorem raiseTx_wire (e : TxEvent) : (s.raiseTx e).wire = s.wire := rfl
@[simp] theorem raiseTx_script (e : TxEvent) : (s.raiseTx e).script = s.script := rfl

/-! ### `withScript` -/

@[simp] theorem withScript_rx (items : List Item) : (s.withScript items).rx = s.rx := rfl
@[simp] theorem withScript_tx (items : List Item) : (s.withScript items).tx = s.tx := rfl
@[simp] theorem withScript_gCrc (items : List Item) : (s.withScript items).gCrc = s.gCrc := rfl
@[simp] theorem withScript_out (items : List Item) : (s.withScript items).out = s.out := rfl
@[simp] theorem withScript_events (items : List Item) : (s.withScript items).events = s.events := rfl
@[simp] theorem withScript_txEvents (items : List Item) : (s.withScript items).txEvents = s.txEvents := rfl
@[simp] theorem withScript_wire (items : List Item) : (s.withScript items).wire = s.wire := rfl
@[simp] theorem withScript_script (items : List Item) : (s.withScript items).script = items ++ s.script := rfl

/-! ### `beginCycle` -/

@[simp] theorem beginCycle_rx (i : Item) (rest : List Item) : (beginCycle i rest s).rx = s.rx := rfl
@[simp] theorem beginCycle_tx (i : Item) (rest : List Item) : (beginCycle i rest s).tx = s.tx := rfl
@[simp] theorem beginCycle_gCrc (i : Item) (rest : List Item) : (beginCycle i rest s).gCrc = s.gCrc := rfl
@[simp] theorem beginCycle_out (i : Item) (rest : List Item) : (beginCycle i rest s).out = cycleOutputs s.tx (itemPins i) := rfl
@[simp] theorem beginCycle_events (i : Item) (rest : List Item) : (beginCycle i rest s).events = s.events := rfl
@[simp] theorem beginCycle_txEvents (i : Item) (rest : List Item) : (beginCycle i rest s).txEvents = s.txEvents := rfl
@[simp] theorem beginCycle_wire (i : Item) (rest : List Item) : (beginCycle i rest s).wire = s.wire := rfl
@[simp] theorem beginCycle_script (i : Item) (rest : List Item) : (beginCycle i rest s).script = rest := rfl

@[simp] theorem beginCycle_view (i : Item) (rest : List Item) : (beginCycle i rest s).view = s.view := rfl

/-! ### `rx_clear()`'s registers, and the outputs at the start of a cycle -/

@[simp] theorem clear_state (r : RxRegs) : r.clear.state = .awaitingMarker := rfl
@[simp] theorem clear_len (r : RxRegs) : r.clear.len = 0 := rfl
@[simp] theorem clear_cnt (r : RxRegs) : r.clear.cnt = 0 := rfl
@[simp] theorem clear_crc (r : RxRegs) : r.clear.crc = params.crcInit := rfl
@[simp] theorem clear_trailHi (r : RxRegs) : r.clear.trailHi = 0 := rfl
@[simp] theorem clear_buf (r : RxRegs) : r.clear.buf = r.buf := rfl
@[simp] theorem cycleOutputs_ev (x : TxRegs) (p : InPins) : (cycleOutputs x p).ev = none := rfl
@[simp] theorem cycleOutputs_txEv (x : TxRegs) (p : InPins) : (cycleOutputs x p).txEv = none := rfl
@[simp] theorem cycleOutputs_txCmdReady (x : TxRegs) (p : InPins) : (cycleOutputs x p).txCmdReady = txCmdReady x p := rfl
@[simp] theorem cycleOutputs_txArgReady (x : TxRegs) (p : InPins) : (cycleOutputs x p).txArgReady = txArgReady x p := rfl
@[simp] theorem cycleOutputs_txOut (x : TxRegs) (p : InPins) : (cycleOutputs x p).txOut = txOffer x p := rfl
@[simp] theorem cycleOutputs_fn (x : TxRegs) (p : InPins) : (cycleOutputs x p).fn = none := rfl


end Sys2Proof.Machine
end

