-- ==== Sys2Proof/Laws/Ops.lean ====
section
/-! SUPPORT. One lemma per shared operation that says once everything it can do, and the laws of the step. -/

namespace Sys2Proof.Machine

/-! ### The guard of a meaning -/

/-- Where an operation is selected the guard goes on. -/
theorem whenSelected_of_enabled {i : Instr} {s : State} {k : Host.Outcome State Fault Refusal}
    (hw : i.wellFormed = true) (he : i.enabledIn s.view = true) : whenSelected i s k = k := by
  simp [whenSelected, hw, he]

/-- Where an operation is not selected the guard refuses. -/
theorem whenSelected_refused {i : Instr} {s : State} {k : Host.Outcome State Fault Refusal}
    (h : ¬(i.wellFormed = true ∧ i.enabledIn s.view = true)) : whenSelected i s k = .refused .notSelected := by
  simp only [whenSelected, Bool.and_eq_true, if_neg h]

/-- If the guard answers a next state, the operation is selected and the guarded meaning answers it. -/
theorem whenSelected_next {i : Instr} {s t : State} {k : Host.Outcome State Fault Refusal}
    (h : whenSelected i s k = .next t) : i.wellFormed = true ∧ i.enabledIn s.view = true ∧ k = .next t := by
  unfold whenSelected at h
  split at h
  · next hc => exact ⟨(Bool.and_eq_true _ _ ▸ hc).1, (Bool.and_eq_true _ _ ▸ hc).2, h⟩
  · cases h

/-! ### Buffer accesses -/

/-- A write inside the buffer goes on with the byte written. -/
theorem withWrite_of_lt {s : State} {a : Nat} {v : Byte} {k : Buf → Host.Outcome State Fault Refusal}
    (ha : a < 1024) : withWrite s a v k = k (s.rx.buf.write a v) := by
  rw [withWrite, memWrite_eq_some.mpr ⟨ha, rfl⟩]

/-- If a write answers a next state, the index is inside the buffer. -/
theorem withWrite_next {s t : State} {a : Nat} {v : Byte} {k : Buf → Host.Outcome State Fault Refusal}
    (h : withWrite s a v k = .next t) : a < 1024 ∧ k (s.rx.buf.write a v) = .next t := by
  by_cases ha : a < 1024
  · exact ⟨ha, by rwa [withWrite_of_lt ha] at h⟩
  · rw [withWrite, memWrite_eq_none.mpr (Nat.le_of_not_lt ha)] at h
    cases h

/-- A read inside the buffer goes on with the bytes there. -/
theorem withRead_of_le {m : Buf} {a n : Nat} {k : List Byte → Host.Outcome State Fault Refusal}
    (h : a + n ≤ 1024) : withRead m a n k = k (m.slice a n) := by
  rw [withRead, memRead_eq_some.mpr ⟨h, rfl⟩]

/-- If a read answers a next state, the range is inside the buffer. -/
theorem withRead_next {m : Buf} {t : State} {a n : Nat} {k : List Byte → Host.Outcome State Fault Refusal}
    (h : withRead m a n k = .next t) : a + n ≤ 1024 ∧ k (m.slice a n) = .next t := by
  by_cases ha : a + n ≤ 1024
  · exact ⟨ha, by rwa [withRead_of_le ha] at h⟩
  · rw [withRead, memRead_eq_none.mpr (by omega)] at h
    cases h

/-- If a block byte is accepted, it is stored at `rx_cnt`, summed and counted. -/
theorem acceptBlockByte_next {b : Byte} {s t : State} (h : acceptBlockByte b s = .next t) :
    s.rx.cnt.toNat < 1024 ∧
    t = s.setRx
      { s.rx with
        buf := s.rx.buf.write s.rx.cnt.toNat b
        crc := crcStep s.rx.crc b
        cnt := s.rx.cnt + 1 } := by
  obtain ⟨ha, hk⟩ := withWrite_next h
  exact ⟨ha, by cases hk; rfl⟩

/-- A block byte is accepted wherever `rx_cnt` is inside the buffer. -/
theorem acceptBlockByte_of_lt {b : Byte} {s : State} (h : s.rx.cnt.toNat < 1024) :
    acceptBlockByte b s = .next (s.setRx
      { s.rx with
        buf := s.rx.buf.write s.rx.cnt.toNat b
        crc := crcStep s.rx.crc b
        cnt := s.rx.cnt + 1 }) :=
  withWrite_of_lt h

/-! ### Running the operations of a cycle -/

@[simp] theorem runOps_nil (s : State) : runOps [] s = .next s := rfl

theorem runOps_cons (i : Instr) (ops : List Instr) (s : State) :
    runOps (i :: ops) s =
      match exec i s with
      | .next t => runOps ops t
      | .fault r => .fault r
      | .refused r => .refused r := rfl

/-- Operations that run answer one after the other. -/
theorem runOps_cons_next {i : Instr} {ops : List Instr} {s t : State} :
    runOps (i :: ops) s = .next t ↔ ∃ u, exec i s = .next u ∧ runOps ops u = .next t := by
  rw [runOps_cons]
  cases exec i s <;> simp

@[simp] theorem exec_idle (a : Agent) (s : State) : exec (.idle a) s = .next s := rfl

/-- `IDLE` in front changes nothing. -/
@[simp] theorem runOps_idle (a : Agent) (ops : List Instr) (s : State) :
    runOps (.idle a :: ops) s = runOps ops s := rfl

/-! ### The step -/

theorem fetchItem_cons {s : State} {i : Item} {rest : List Item} (h : s.script = i :: rest) :
    fetchItem s = (i, rest) := by
  simp [fetchItem, h]

theorem fetchItem_nil {s : State} (h : s.script = []) : fetchItem s = (.clock InPins.quiet, []) := by
  simp [fetchItem, h]

/-- A step with a queued item is the cycle of that item. -/
theorem step_cons {s : State} {i : Item} {rest : List Item} (h : s.script = i :: rest) :
    step s = cycle i rest s := by
  rw [step, fetchItem_cons h]

/-- A step with nothing queued is an idle cycle. -/
theorem step_nil {s : State} (h : s.script = []) : step s = cycle (.clock InPins.quiet) [] s := by
  rw [step, fetchItem_nil h]

/-- A cycle answers a next state exactly when operations are selected and all of them run. -/
theorem cycle_next {i : Item} {rest : List Item} {s t : State} :
    cycle i rest s = .next t ↔
      ∃ ops, decode s.view i = .ok ops ∧ runOps ops (beginCycle i rest s) = .next t := by
  unfold cycle
  cases decode s.view i <;> simp

/-- A step answers a next state exactly when the fetched item's operations are selected and all of them run. -/
theorem step_next {s t : State} :
    step s = .next t ↔
      ∃ ops, decode s.view (fetchItem s).1 = .ok ops ∧
        runOps ops (beginCycle (fetchItem s).1 (fetchItem s).2 s) = .next t :=
  cycle_next

end Sys2Proof.Machine
end

