-- ==== Sys2Proof/Laws/Exec.lean ====
section
/-! SUPPORT. One inversion lemma per operation: if it answers a next state, which state that is, and in which states it
does so. -/

namespace Sys2Proof.Machine

/-! ### Functions, the CRC port and control: every state -/

theorem exec_crcStep (c : U16) (b : Byte) (s : State) :
    exec (.crcStep c b) s = .next (s.setFn (.u16 (crcStep c b))) := rfl

theorem exec_crc16 (bytes : List Byte) (s : State) :
    exec (.crc16 bytes) s = .next (s.setFn (.u16 (crc16 bytes))) := rfl

theorem exec_encode (op : Byte) (args : List Byte) (s : State) :
    exec (.encode op args) s = .next (s.setFn (encodeFrame op args)) := rfl

theorem exec_gInit (s : State) : exec .gInit s = .next (s.setG params.crcInit) := rfl

theorem exec_gUpdate (b : Byte) (s : State) : exec (.gUpdate b) s = .next (s.setG (crcStep s.gCrc b)) := rfl

theorem exec_sysReset (s : State) : exec .sysReset s = .next (s.rxClear.txClear.setG params.crcInit) := rfl

theorem exec_sysClose (s : State) : exec .sysClose s = .next s.rxClear.txClear := rfl

/-! ### The decoder -/

theorem exec_rxMarkText_next {s t : State} (h : exec .rxMarkText s = .next t) :
    s.rx.state = .awaitingMarker ∧ t = s.setRx { s.rx with cnt := 0, state := .textBody } := by
  obtain ⟨-, he, hk⟩ := whenSelected_next h
  cases hk
  exact ⟨by simpa [Instr.enabledIn] using he, rfl⟩

theorem exec_rxMarkBin_next {s t : State} (h : exec .rxMarkBin s = .next t) :
    s.rx.state = .awaitingMarker ∧ t = s.setRx { s.rx with cnt := 0, state := .binaryLength } := by
  obtain ⟨-, he, hk⟩ := whenSelected_next h
  cases hk
  exact ⟨by simpa [Instr.enabledIn] using he, rfl⟩

theorem exec_rxMarkBad_next {b : Byte} {s t : State} (h : exec (.rxMarkBad b) s = .next t) :
    s.rx.state = .awaitingMarker ∧ b ≠ params.markText ∧ b ≠ params.markBin ∧
    t = s.raiseRx (.unrecognizedMarker b) := by
  obtain ⟨hw, he, hk⟩ := whenSelected_next h
  cases hk
  simp only [Instr.wellFormed, Bool.and_eq_true, bne_iff_ne, ne_eq] at hw
  exact ⟨by simpa [Instr.enabledIn] using he, hw.1, hw.2, rfl⟩

theorem exec_rxTextData_next {b : Byte} {s t : State} (h : exec (.rxTextData b) s = .next t) :
    s.rx.state = .textBody ∧ b ≠ params.textEnd ∧ s.rx.cnt.toNat + 1 < 1024 ∧
    t = s.setRx { s.rx with buf := s.rx.buf.write s.rx.cnt.toNat b, cnt := s.rx.cnt + 1 } := by
  obtain ⟨hw, he, hk⟩ := whenSelected_next h
  obtain ⟨-, hk⟩ := withWrite_next hk
  cases hk
  simp only [Instr.enabledIn, Bool.and_eq_true, beq_iff_eq, decide_eq_true_eq] at he
  exact ⟨he.1, by simpa [Instr.wellFormed] using hw, he.2, rfl⟩

theorem exec_rxTextEnd_next {s t : State} (h : exec .rxTextEnd s = .next t) :
    s.rx.state = .textBody ∧ s.rx.cnt.toNat ≤ 1024 ∧
    t = s.resolve (.textBlock (s.rx.buf.slice 0 s.rx.cnt.toNat)) := by
  obtain ⟨-, he, hk⟩ := whenSelected_next h
  obtain ⟨hle, hk⟩ := withRead_next hk
  cases hk
  exact ⟨by simpa [Instr.enabledIn] using he, by omega, rfl⟩

theorem exec_rxTextTrunc_next {b : Byte} {s t : State} (h : exec (.rxTextTrunc b) s = .next t) :
    s.rx.state = .textBody ∧ b ≠ params.textEnd ∧ s.rx.cnt.toNat + 1 = 1024 ∧
    t = (s.setRx { s.rx with buf := s.rx.buf.write s.rx.cnt.toNat b, cnt := s.rx.cnt + 1 }).raiseRx
      (.textTruncated ((s.rx.buf.write s.rx.cnt.toNat b).slice 0 1024)) := by
  obtain ⟨hw, he, hk⟩ := whenSelected_next h
  obtain ⟨-, hk⟩ := withWrite_next hk
  obtain ⟨-, hk⟩ := withRead_next hk
  cases hk
  simp only [Instr.enabledIn, Bool.and_eq_true, beq_iff_eq, decide_eq_true_eq] at he
  exact ⟨he.1, by simpa [Instr.wellFormed] using hw, he.2, rfl⟩

theorem exec_rxLen_next {n : Byte} {s t : State} (h : exec (.rxLen n) s = .next t) :
    s.rx.state = .binaryLength ∧
    t = s.setRx
      { s.rx with len := n, cnt := 0, crc := params.crcInit, trailHi := 0, state := .binaryPayload } := by
  obtain ⟨-, he, hk⟩ := whenSelected_next h
  cases hk
  exact ⟨by simpa [Instr.enabledIn] using he, rfl⟩

theorem exec_rxBinData_next {b : Byte} {s t : State} (h : exec (.rxBinData b) s = .next t) :
    s.rx.state = .binaryPayload ∧ s.rx.cnt.toNat < s.rx.len.toNat ∧
    t = s.setRx
      { s.rx with
        buf := s.rx.buf.write s.rx.cnt.toNat b
        crc := crcStep s.rx.crc b
        cnt := s.rx.cnt + 1 } := by
  obtain ⟨-, he, hk⟩ := whenSelected_next h
  simp only [Instr.enabledIn, Bool.and_eq_true, beq_iff_eq, decide_eq_true_eq] at he
  exact ⟨he.1, he.2, (acceptBlockByte_next hk).2⟩

theorem exec_rxBinCrcHi_next {b : Byte} {s t : State} (h : exec (.rxBinCrcHi b) s = .next t) :
    s.rx.state = .binaryPayload ∧ s.rx.cnt.toNat = s.rx.len.toNat ∧
    t = s.setRx { s.rx with trailHi := b, cnt := s.rx.cnt + 1 } := by
  obtain ⟨-, he, hk⟩ := whenSelected_next h
  cases hk
  simp only [Instr.enabledIn, Bool.and_eq_true, beq_iff_eq, decide_eq_true_eq] at he
  exact ⟨he.1, he.2, rfl⟩

/-- The event of R130. -/
def judgeEvent (r : RxRegs) (b : Byte) : RxEvent :=
  if r.crc ≠ be16 r.trailHi b then .crcMismatch r.len (be16 r.trailHi b) r.crc
  else if r.len = 0 then .emptyFrame (be16 r.trailHi b)
  else .frame (r.buf.read 0) (r.buf.slice 1 (r.len.toNat - 1)) r.len (be16 r.trailHi b)

theorem exec_rxBinCrcLo_next {b : Byte} {s t : State} (h : exec (.rxBinCrcLo b) s = .next t) :
    s.rx.state = .binaryPayload ∧ s.rx.cnt.toNat = s.rx.len.toNat + 1 ∧ t = s.resolve (judgeEvent s.rx b) := by
  obtain ⟨-, he, hk⟩ := whenSelected_next h
  simp only [Instr.enabledIn, Bool.and_eq_true, beq_iff_eq, decide_eq_true_eq] at he
  refine ⟨he.1, he.2, ?_⟩
  unfold judgeEvent
  by_cases hm : s.rx.crc = be16 s.rx.trailHi b
  · rw [if_neg (by simp [crcMatches, hm])] at hk
    rw [if_neg (by simp [hm])]
    split at hk
    · next hz => cases hk; rw [if_pos hz]
    · next hz =>
      obtain ⟨-, hk⟩ := withRead_next hk
      cases hk
      rw [if_neg hz]
  · rw [if_pos (by simp [crcMatches, hm])] at hk
    cases hk
    rw [if_pos hm]
    rfl

/-! ### The encoder -/

theorem exec_txCmd_next {op : Byte} {l : U16} {s t : State} (h : exec (.txCmd op l) s = .next t) :
    s.tx.state = .idle ∧ l.toNat ≤ 254 ∧
    t = s.setTx
      { op := op
        n := BitVec.ofNat 8 (l.toNat + 1)
        rem := BitVec.ofNat 8 l.toNat
        crc := params.crcInit
        state := .len } := by
  obtain ⟨hw, he, hk⟩ := whenSelected_next h
  cases hk
  exact ⟨by simpa [Instr.enabledIn] using he, by simpa [Instr.wellFormed] using hw, rfl⟩

theorem exec_txReject_next {op : Byte} {l : U16} {s t : State} (h : exec (.txReject op l) s = .next t) :
    s.tx.state = .idle ∧ 254 < l.toNat ∧ t = s.raiseTx (.encoderPayloadTooLong l) := by
  obtain ⟨hw, he, hk⟩ := whenSelected_next h
  cases hk
  exact ⟨by simpa [Instr.enabledIn] using he, by simpa [Instr.wellFormed] using hw, rfl⟩

theorem exec_txLen_next {s t : State} (h : exec .txLen s = .next t) :
    s.tx.state = .len ∧ t = (s.transmit s.tx.n).setTx { s.tx with state := .opcode } := by
  obtain ⟨-, he, hk⟩ := whenSelected_next h
  cases hk
  exact ⟨by simpa [Instr.enabledIn] using he, rfl⟩

theorem exec_txOpcode_next {s t : State} (h : exec .txOpcode s = .next t) :
    s.tx.state = .opcode ∧
    t = (s.transmit s.tx.op).setTx
      { s.tx with crc := crcStep s.tx.crc s.tx.op, state := if argsDone s.tx.rem then .crcHi else .args } := by
  obtain ⟨-, he, hk⟩ := whenSelected_next h
  cases hk
  exact ⟨by simpa [Instr.enabledIn] using he, rfl⟩

theorem exec_txArg_next {a : Byte} {s t : State} (h : exec (.txArg a) s = .next t) :
    s.tx.state = .args ∧ s.tx.rem ≠ 0 ∧
    t = (s.transmit a).setTx
      { s.tx with
        crc := crcStep s.tx.crc a
        rem := s.tx.rem - 1
        state := if argsDone (s.tx.rem - 1) then .crcHi else .args } := by
  obtain ⟨-, he, hk⟩ := whenSelected_next h
  cases hk
  simp only [Instr.enabledIn, Bool.and_eq_true, beq_iff_eq, bne_iff_ne] at he
  exact ⟨he.1, he.2, rfl⟩

theorem exec_txCrcHi_next {s t : State} (h : exec .txCrcHi s = .next t) :
    s.tx.state = .crcHi ∧ t = (s.transmit (hi8 s.tx.crc)).setTx { s.tx with state := .crcLo } := by
  obtain ⟨-, he, hk⟩ := whenSelected_next h
  cases hk
  exact ⟨by simpa [Instr.enabledIn] using he, rfl⟩

theorem exec_txCrcLo_next {s t : State} (h : exec .txCrcLo s = .next t) :
    s.tx.state = .crcLo ∧ t = (s.transmit (lo8 s.tx.crc)).txClear := by
  obtain ⟨-, he, hk⟩ := whenSelected_next h
  cases hk
  exact ⟨by simpa [Instr.enabledIn] using he, rfl⟩

/-! ### The informative opcode rows -/

theorem View.atOpcode_eq_true {s : State} (h : s.view.atOpcode = true) :
    s.rx.state = .binaryPayload ∧ s.rx.cnt = 0 ∧ s.rx.len ≠ 0 := by
  simp only [View.atOpcode, Bool.and_eq_true, beq_iff_eq, bne_iff_ne] at h
  exact ⟨h.1.1, h.1.2, h.2⟩

/-- An opcode row runs only in the opcode position, and there it is the block byte. -/
theorem opcode_row_next {i : Instr} {b : Byte} {s t : State} (hi : i.enabledIn s.view = s.view.atOpcode)
    (h : whenSelected i s (acceptBlockByte b s) = .next t) :
    s.rx.state = .binaryPayload ∧ s.rx.cnt = 0 ∧ s.rx.len ≠ 0 ∧ exec (.rxBinData b) s = .next t := by
  obtain ⟨-, he, hk⟩ := whenSelected_next h
  obtain ⟨h1, h2, h3⟩ := View.atOpcode_eq_true (hi ▸ he)
  refine ⟨h1, h2, h3, ?_⟩
  have hl : s.rx.len.toNat ≠ 0 := fun h0 => h3 (BitVec.eq_of_toNat_eq h0)
  have hen : (Instr.rxBinData b).enabledIn s.view = true := by
    simp only [Instr.enabledIn, h1, h2, beq_self_eq_true, Bool.true_and,
      decide_eq_true_eq]
    exact Nat.pos_of_ne_zero hl
  exact (whenSelected_of_enabled (k := acceptBlockByte b s) rfl hen).trans hk

end Sys2Proof.Machine
end

