-- ==== Sys2Proof/Laws/Agents.lean ====
section
/-! SUPPORT. The step said once, agent by agent: the decoder, the encoder and the CRC port as functions of their own
registers and inputs (spec/41_decoder.md R120), and the whole state after a cycle in terms of them. -/

namespace Sys2Proof.Machine

/-! ### The agents as functions -/

/-- `rx_step : (RxState, byte) → (RxState, optional Event)` (R120). Register values that no row covers stay as they are
here; the machine refuses them. -/
def rxStep (r : RxRegs) (b : Byte) : RxRegs × Option RxEvent :=
  match r.state with
  | .awaitingMarker =>
    if b = params.markText then ({ r with cnt := 0, state := .textBody }, none)
    else if b = params.markBin then ({ r with cnt := 0, state := .binaryLength }, none)
    else (r.clear, some (.unrecognizedMarker b))
  | .textBody =>
    if b = params.textEnd then (r.clear, some (.textBlock (r.buf.slice 0 r.cnt.toNat)))
    else if r.cnt.toNat + 1 < params.textCap then ({ r with buf := r.buf.write r.cnt.toNat b, cnt := r.cnt + 1 }, none)
    else if r.cnt.toNat + 1 = params.textCap then
      ({ r.clear with buf := r.buf.write r.cnt.toNat b },
        some (.textTruncated ((r.buf.write r.cnt.toNat b).slice 0 1024)))
    else (r, none)
  | .binaryLength => ({ r with len := b, cnt := 0, crc := params.crcInit, trailHi := 0, state := .binaryPayload }, none)
  | .binaryPayload =>
    if r.cnt.toNat < r.len.toNat then
      ({ r with buf := r.buf.write r.cnt.toNat b, crc := crcStep r.crc b, cnt := r.cnt + 1 }, none)
    else if r.cnt.toNat = r.len.toNat then ({ r with trailHi := b, cnt := r.cnt + 1 }, none)
    else if r.cnt.toNat = r.len.toNat + 1 then (r.clear, some (judgeEvent r b))
    else (r, none)

/-- The decoder in a cycle without `rst` and `link_close`. -/
def rxCycleStep (r : RxRegs) (p : InPins) : RxRegs × Option RxEvent :=
  if p.rxValid then rxStep r p.rxData else (r, none)

/-- The encoder in a cycle without `rst` and `link_close`: its registers, the bytes transferred, its event. -/
def txCycleStep (x : TxRegs) (p : InPins) : TxRegs × List Byte × Option TxEvent :=
  match x.state with
  | .idle =>
    if p.txCmdValid then
      if p.txCmdArgsLen.toNat ≤ params.argsMax then
        ({ op := p.txCmdOpcode
           n := BitVec.ofNat 8 (p.txCmdArgsLen.toNat + 1)
           rem := BitVec.ofNat 8 p.txCmdArgsLen.toNat
           crc := params.crcInit
           state := .len }, [], none)
      else (x, [], some (.encoderPayloadTooLong p.txCmdArgsLen))
    else (x, [], none)
  | .len => if p.txOutReady then ({ x with state := .opcode }, [x.n], none) else (x, [], none)
  | .opcode =>
    if p.txOutReady then
      ({ x with crc := crcStep x.crc x.op, state := if argsDone x.rem then .crcHi else .args }, [x.op], none)
    else (x, [], none)
  | .args =>
    if p.txOutReady && p.txArgValid then
      ({ x with
          crc := crcStep x.crc p.txArgData
          rem := x.rem - 1
          state := if argsDone (x.rem - 1) then .crcHi else .args }, [p.txArgData], none)
    else (x, [], none)
  | .crcHi => if p.txOutReady then ({ x with state := .crcLo }, [hi8 x.crc], none) else (x, [], none)
  | .crcLo => if p.txOutReady then (TxRegs.cleared, [lo8 x.crc], none) else (x, [], none)

/-- The CRC port in a cycle without `rst`. -/
def gCycleStep (g : U16) (p : InPins) : U16 :=
  if p.gInit then params.crcInit else if p.gEn then crcStep g p.gData else g

/-! ### The updates they stand for -/

/-- The decoder's registers replaced and its event, if any, emitted. -/
def State.putRx (s : State) (r : RxRegs × Option RxEvent) : State :=
  { s with rx := r.1, out := { s.out with ev := r.2.or s.out.ev }, events := s.events ++ r.2.toList }

/-- The encoder's registers replaced, its bytes transferred and its event, if any, emitted. -/
def State.putTx (s : State) (x : TxRegs × List Byte × Option TxEvent) : State :=
  { s with
    tx := x.1
    wire := s.wire ++ x.2.1
    out := { s.out with txEv := x.2.2.or s.out.txEv }
    txEvents := s.txEvents ++ x.2.2.toList }

/-- The state at the end of a clock cycle without `rst` and `link_close`. -/
def State.afterData (s : State) (p : InPins) (rest : List Item) : State :=
  (((beginCycle (.clock p) rest s).putRx (rxCycleStep s.rx p)).putTx (txCycleStep s.tx p)).setG
    (gCycleStep s.gCrc p)

/-! ### The operations are the functions -/

/-- The decoder's selected operation does what `rxStep` says. -/
theorem exec_selectRx {s t : State} {b : Byte} {i : Instr} (hsel : selectRx s.view b = .ok i)
    (h : exec i s = .next t) : t = s.putRx (rxStep s.rx b) := by
  unfold selectRx at hsel
  unfold rxStep
  cases hstate : s.rx.state <;> simp only [hstate] at hsel ⊢
  case awaitingMarker =>
    split at hsel
    · next hb => cases hsel; obtain ⟨-, rfl⟩ := exec_rxMarkText_next h; simp [hb, State.putRx, State.setRx]
    · split at hsel
      · next hb hb' =>
        cases hsel; obtain ⟨-, rfl⟩ := exec_rxMarkBin_next h
        rw [if_neg hb, if_pos hb']; simp [State.putRx, State.setRx]
      · next hb hb' =>
        cases hsel; obtain ⟨-, -, -, rfl⟩ := exec_rxMarkBad_next h
        rw [if_neg hb, if_neg hb']; rfl
  case textBody =>
    split at hsel
    · next hb => cases hsel; obtain ⟨-, -, rfl⟩ := exec_rxTextEnd_next h; rw [if_pos hb]; rfl
    · next hb =>
      rw [if_neg hb]
      split at hsel
      · next hc =>
        cases hsel; obtain ⟨-, -, -, rfl⟩ := exec_rxTextData_next h
        rw [if_pos hc]; simp [State.putRx, State.setRx, hstate]
      · next hc =>
        rw [if_neg hc]
        split at hsel
        · next hc' => cases hsel; obtain ⟨-, -, -, rfl⟩ := exec_rxTextTrunc_next h; rw [if_pos hc']; rfl
        · cases hsel
  case binaryLength =>
    cases hsel; obtain ⟨-, rfl⟩ := exec_rxLen_next h; simp [State.putRx, State.setRx]
  case binaryPayload =>
    split at hsel
    · next hc =>
      cases hsel; obtain ⟨-, -, rfl⟩ := exec_rxBinData_next h
      rw [if_pos hc]; simp [State.putRx, State.setRx, hstate]
    · next hc =>
      rw [if_neg hc]
      split at hsel
      · next hc' =>
        cases hsel; obtain ⟨-, -, rfl⟩ := exec_rxBinCrcHi_next h
        rw [if_pos hc']; simp [State.putRx, State.setRx, hstate]
      · next hc' =>
        rw [if_neg hc']
        split at hsel
        · next hc'' => cases hsel; obtain ⟨-, -, rfl⟩ := exec_rxBinCrcLo_next h; rw [if_pos hc'']; rfl
        · cases hsel

/-- The encoder's selected operation does what `txCycleStep` says. -/
theorem exec_selectTx {s t : State} {p : InPins} {i : Instr} (hsel : selectTx s.view p = .ok i)
    (h : exec i s = .next t) : t = s.putTx (txCycleStep s.tx p) := by
  have keep : s = s.putTx (s.tx, [], none) := by simp [State.putTx]
  unfold selectTx at hsel
  unfold txCycleStep
  cases hstate : s.tx.state <;> simp only [hstate] at hsel ⊢
  case idle =>
    split at hsel
    · next hv =>
      rw [if_pos hv]
      split at hsel
      · next hl =>
        cases hsel; obtain ⟨-, -, rfl⟩ := exec_txCmd_next h
        rw [if_pos hl]; simp [State.putTx, State.setTx]
      · next hl =>
        cases hsel; obtain ⟨-, -, rfl⟩ := exec_txReject_next h
        rw [if_neg hl]; simp [State.putTx, State.raiseTx, State.emitTx]
    · next hv => cases hsel; cases h; rw [if_neg hv]; exact keep
  case len =>
    split at hsel
    · next hv =>
      cases hsel; obtain ⟨-, rfl⟩ := exec_txLen_next h
      rw [if_pos hv]; simp [State.putTx, State.setTx, State.transmit]
    · next hv => cases hsel; cases h; rw [if_neg hv]; exact keep
  case opcode =>
    split at hsel
    · next hv =>
      cases hsel; obtain ⟨-, rfl⟩ := exec_txOpcode_next h
      rw [if_pos hv]; simp [State.putTx, State.setTx, State.transmit]
    · next hv => cases hsel; cases h; rw [if_neg hv]; exact keep
  case args =>
    split at hsel
    · next hv =>
      split at hsel
      · cases hsel
      · cases hsel; obtain ⟨-, -, rfl⟩ := exec_txArg_next h; rw [if_pos hv]; simp [State.putTx, State.setTx, State.transmit]
    · next hv => cases hsel; cases h; rw [if_neg hv]; exact keep
  case crcHi =>
    split at hsel
    · next hv =>
      cases hsel; obtain ⟨-, rfl⟩ := exec_txCrcHi_next h
      rw [if_pos hv]; simp [State.putTx, State.setTx, State.transmit]
    · next hv => cases hsel; cases h; rw [if_neg hv]; exact keep
  case crcLo =>
    split at hsel
    · next hv =>
      cases hsel; obtain ⟨-, rfl⟩ := exec_txCrcLo_next h
      rw [if_pos hv]; simp [State.putTx, State.txClear, State.setTx, State.transmit]
    · next hv => cases hsel; cases h; rw [if_neg hv]; exact keep

/-- The CRC port's operation does what `gCycleStep` says. -/
theorem exec_selectG (s : State) (p : InPins) :
    exec ((selectG p).getD (.idle .g)) s = .next (s.setG (gCycleStep s.gCrc p)) := by
  unfold selectG gCycleStep
  split
  · rfl
  · split <;> rfl

theorem runOps_selectG (s : State) (p : InPins) :
    runOps (selectG p).toList s = .next (s.setG (gCycleStep s.gCrc p)) := by
  unfold selectG gCycleStep
  split
  · rfl
  · split <;> rfl

/-! ### The cycle -/

/-- What a cycle's port values select: `SYS.RESET`, or `SYS.CLOSE` and the CRC port, or one operation for each agent. -/
theorem decodeClock_ok {v : View} {p : InPins} {ops : List Instr} (h : decodeClock v p = .ok ops) :
    (p.rst = true ∧ ops = [.sysReset]) ∨
    (p.rst = false ∧ p.linkClose = true ∧ ops = .sysClose :: (selectG p).toList) ∨
    (p.rst = false ∧ p.linkClose = false ∧ ∃ i j,
      (if p.rxValid then selectRx v p.rxData else .ok (.idle .rx)) = .ok i ∧ selectTx v p = .ok j ∧
      ops = [i, j, (selectG p).getD (.idle .g)]) := by
  unfold decodeClock at h
  split at h
  · next hr => cases h; exact .inl ⟨hr, rfl⟩
  · next hr =>
    split at h
    · next hc => cases h; exact .inr (.inl ⟨by simpa using hr, hc, rfl⟩)
    · next hc =>
      refine .inr (.inr ⟨by simpa using hr, by simpa using hc, ?_⟩)
      split at h
      · next hi hj => cases h; exact ⟨_, _, hi, hj, rfl⟩
      · cases h
      · cases h

/-- A cycle with `rst` (R180). -/
theorem step_rst {s : State} {p : InPins} {rest : List Item} (h : s.script = .clock p :: rest) (hr : p.rst = true) :
    step s = .next ((beginCycle (.clock p) rest s).rxClear.txClear.setG params.crcInit) := by
  rw [step_cons h, cycle]
  simp only [decode, decodeClock, hr, if_true]
  rfl

/-- A cycle with `link_close` and without `rst` (R181). -/
theorem step_close {s : State} {p : InPins} {rest : List Item} (h : s.script = .clock p :: rest) (hr : p.rst = false)
    (hc : p.linkClose = true) :
    step s = .next ((beginCycle (.clock p) rest s).rxClear.txClear.setG (gCycleStep s.gCrc p)) := by
  rw [step_cons h, cycle]
  simp only [decode, decodeClock, hr, hc, if_true, if_false, Bool.false_eq_true]
  rw [runOps_cons, exec_sysClose]
  exact runOps_selectG _ p

/-- A cycle with neither: if it answers, every agent has done its own step and nothing else has happened. -/
theorem step_data {s t : State} {p : InPins} {rest : List Item} (h : s.script = .clock p :: rest) (hr : p.rst = false)
    (hc : p.linkClose = false) (hstep : step s = .next t) : t = s.afterData p rest := by
  rw [step_cons h] at hstep
  obtain ⟨ops, hdec, hrun⟩ := cycle_next.mp hstep
  rcases decodeClock_ok hdec with ⟨h1, -⟩ | ⟨-, h1, -⟩ | ⟨-, -, i, j, hi, hj, rfl⟩
  · rw [hr] at h1; cases h1
  · rw [hc] at h1; cases h1
  · obtain ⟨u, hu, hrun⟩ := runOps_cons_next.mp hrun
    obtain ⟨w, hw, hrun⟩ := runOps_cons_next.mp hrun
    have hrx : u = (beginCycle (.clock p) rest s).putRx (rxCycleStep s.rx p) := by
      unfold rxCycleStep
      split at hi
      · next hv => rw [if_pos hv]; exact exec_selectRx (s := beginCycle (.clock p) rest s) hi hu
      · next hv => cases hi; cases hu; rw [if_neg hv]; simp [State.putRx, beginCycle, cycleOutputs]
    have hview : u.view.txState = s.view.txState ∧ u.view.txRem = s.view.txRem := by rw [hrx]; exact ⟨rfl, rfl⟩
    have hj' : selectTx u.view p = .ok j := by
      have : selectTx u.view p = selectTx s.view p := by unfold selectTx; rw [hview.1, hview.2]
      rw [this]; exact hj
    have htx : w = u.putTx (txCycleStep s.tx p) := by
      have := exec_selectTx hj' hw
      rwa [show u.tx = s.tx by rw [hrx]; rfl] at this
    have hg := runOps_cons_next.mp hrun
    obtain ⟨x, hx, hrun⟩ := hg
    rw [exec_selectG] at hx
    cases hx
    cases hrun
    subst htx hrx
    rfl

/-- What a cycle leaves in the registers and on the ports, agent by agent, whatever its control inputs are: each is a
function of that agent's registers and inputs (R61). -/
theorem step_agents {s t : State} {p : InPins} {rest : List Item} (h : s.script = .clock p :: rest)
    (hstep : step s = .next t) :
    t.rx = (if p.rst || p.linkClose then s.rx.clear else (rxCycleStep s.rx p).1) ∧
    t.out.ev = (if p.rst || p.linkClose then none else (rxCycleStep s.rx p).2) ∧
    t.tx = (if p.rst || p.linkClose then TxRegs.cleared else (txCycleStep s.tx p).1) ∧
    t.out.txEv = (if p.rst || p.linkClose then none else (txCycleStep s.tx p).2.2) ∧
    t.out.txCmdReady = txCmdReady s.tx p ∧ t.out.txArgReady = txArgReady s.tx p ∧ t.out.txOut = txOffer s.tx p ∧
    t.gCrc = (if p.rst then params.crcInit else gCycleStep s.gCrc p) := by
  by_cases hr : p.rst = true
  · rw [step_rst h hr] at hstep
    cases hstep
    simp only [hr]
    exact ⟨rfl, rfl, rfl, rfl, rfl, rfl, rfl, rfl⟩
  · simp only [Bool.not_eq_true] at hr
    by_cases hc : p.linkClose = true
    · rw [step_close h hr hc] at hstep
      cases hstep
      simp only [hr, hc]
      exact ⟨rfl, rfl, rfl, rfl, rfl, rfl, rfl, rfl⟩
    · simp only [Bool.not_eq_true] at hc
      cases step_data h hr hc hstep
      simp only [hr, hc]
      refine ⟨rfl, ?_, rfl, ?_, rfl, rfl, rfl, rfl⟩ <;> simp [State.afterData, State.putRx, State.putTx, State.setG]

/-- A cycle with neither, from registers that R29 and R45 allow: it answers. -/
theorem step_data_of_view {s : State} {p : InPins} {rest : List Item} (h : s.script = .clock p :: rest)
    (hr : p.rst = false) (hc : p.linkClose = false)
    (htext : s.rx.state = .textBody → s.rx.cnt.toNat ≤ 1023)
    (hbin : s.rx.state = .binaryPayload → s.rx.cnt.toNat ≤ s.rx.len.toNat + 1)
    (harg : s.tx.state = .args → s.tx.rem ≠ 0) : step s = .next (s.afterData p rest) := by
  have hrx : ∀ u : State, u.rx = s.rx → ∃ i u', (if p.rxValid then selectRx u.view p.rxData else .ok (.idle .rx)) = .ok i ∧
      exec i u = .next u' ∧ u'.tx = u.tx := by
    intro u hu
    have hlen := s.rx.len.isLt
    by_cases hv : p.rxValid
    · rw [if_pos hv]
      unfold selectRx
      simp only [hu]
      cases hs : s.rx.state <;> simp only
      case awaitingMarker =>
        split
        · exact ⟨_, _, rfl, whenSelected_of_enabled rfl (by simp [Instr.enabledIn, hu, hs]), rfl⟩
        · split
          · exact ⟨_, _, rfl, whenSelected_of_enabled rfl (by simp [Instr.enabledIn, hu, hs]), rfl⟩
          · next h1 h2 =>
            exact ⟨_, _, rfl, whenSelected_of_enabled (by simpa [Instr.wellFormed] using ⟨h1, h2⟩)
              (by simp [Instr.enabledIn, hu, hs]), rfl⟩
      case textBody =>
        have := htext hs
        split
        · refine ⟨_, _, rfl, (whenSelected_of_enabled rfl (by simp [Instr.enabledIn, hu, hs])).trans
            (withRead_of_le (by rw [hu]; omega)), rfl⟩
        · next h1 =>
          split
          · next h2 =>
            refine ⟨_, _, rfl, (whenSelected_of_enabled (by simpa [Instr.wellFormed] using h1)
              (by simpa [Instr.enabledIn, hu, hs] using h2)).trans (withWrite_of_lt (by rw [hu]; omega)), rfl⟩
          · next h2 =>
            have h3 : s.rx.cnt.toNat + 1 = params.textCap := by simp only at h2 ⊢; omega
            rw [if_pos h3]
            refine ⟨_, _, rfl, (whenSelected_of_enabled (by simpa [Instr.wellFormed] using h1)
              (by simpa [Instr.enabledIn, hu, hs] using h3)).trans ((withWrite_of_lt (by rw [hu]; omega)).trans
                (withRead_of_le (by simp))), rfl⟩
      case binaryLength =>
        exact ⟨_, _, rfl, whenSelected_of_enabled rfl (by simp [Instr.enabledIn, hu, hs]), rfl⟩
      case binaryPayload =>
        have := hbin hs
        split
        · next h1 =>
          exact ⟨_, _, rfl, (whenSelected_of_enabled rfl (by simpa [Instr.enabledIn, hu, hs] using h1)).trans
            (acceptBlockByte_of_lt (by rw [hu]; omega)), rfl⟩
        · next h1 =>
          split
          · next h2 =>
            exact ⟨_, _, rfl, whenSelected_of_enabled rfl (by simpa [Instr.enabledIn, hu, hs] using h2), rfl⟩
          · next h2 =>
            have h3 : s.rx.cnt.toNat = s.rx.len.toNat + 1 := by omega
            rw [if_pos h3]
            have hsel : exec (.rxBinCrcLo p.rxData) u = _ :=
              whenSelected_of_enabled rfl (by simpa [Instr.enabledIn, hu, hs] using h3)
            by_cases hm : crcMatches u.rx.crc (be16 u.rx.trailHi p.rxData) = true
            · by_cases hz : u.rx.len = 0
              · exact ⟨_, _, rfl, hsel.trans ((if_neg (by simp [hm])).trans (if_pos hz)), rfl⟩
              · exact ⟨_, _, rfl, hsel.trans ((if_neg (by simp [hm])).trans ((if_neg hz).trans
                  (withRead_of_le (by rw [hu]; omega)))), rfl⟩
            · exact ⟨_, _, rfl, hsel.trans (if_pos (by simpa using hm)), rfl⟩
    · rw [if_neg hv]
      exact ⟨_, _, rfl, rfl, rfl⟩
  have htx : ∀ u : State, u.tx = s.tx → ∃ j u', selectTx u.view p = .ok j ∧ exec j u = .next u' := by
    intro u hu
    unfold selectTx
    simp only [hu]
    cases hs : s.tx.state <;> simp only
    case idle =>
      split
      · split
        · next hl =>
          exact ⟨_, _, rfl, whenSelected_of_enabled (by simpa [Instr.wellFormed] using hl)
            (by simp [Instr.enabledIn, hu, hs])⟩
        · next hl =>
          exact ⟨_, _, rfl, whenSelected_of_enabled (by simpa [Instr.wellFormed] using hl)
            (by simp [Instr.enabledIn, hu, hs])⟩
      · exact ⟨_, _, rfl, rfl⟩
    case args =>
      split
      · rw [if_neg (harg hs)]
        exact ⟨_, _, rfl, whenSelected_of_enabled rfl (by simpa [Instr.enabledIn, hu, hs] using harg hs)⟩
      · exact ⟨_, _, rfl, rfl⟩
    all_goals
      split
      · exact ⟨_, _, rfl, whenSelected_of_enabled rfl (by simp [Instr.enabledIn, hu, hs])⟩
      · exact ⟨_, _, rfl, rfl⟩
  obtain ⟨i, u, hi, hu, hutx⟩ := hrx (beginCycle (.clock p) rest s) rfl
  obtain ⟨j, w, hj, hw⟩ := htx u (by rw [hutx]; rfl)
  have hsame : selectTx u.view p = selectTx s.view p := by
    unfold selectTx
    simp only [hutx, beginCycle_tx]
  have hrun : ∃ t, step s = .next t := by
    refine ⟨w.setG (gCycleStep w.gCrc p), ?_⟩
    rw [step_cons h, cycle]
    have hdec : decode s.view (.clock p) = .ok [i, j, (selectG p).getD (.idle .g)] := by
      simp only [decode, decodeClock, hr, hc, Bool.false_eq_true, if_false]
      rw [show (if p.rxValid = true then selectRx s.view p.rxData else Except.ok (Instr.idle .rx)) = .ok i from hi,
        show selectTx s.view p = .ok j from hsame ▸ hj]
    rw [hdec]
    show runOps _ _ = _
    rw [runOps_cons, hu]
    show runOps _ _ = _
    rw [runOps_cons, hw]
    show runOps _ _ = _
    rw [runOps_cons, exec_selectG]
    rfl
  obtain ⟨t, ht⟩ := hrun
  rw [ht, step_data h hr hc ht]

end Sys2Proof.Machine
end

