-- ==== Sys2Proof/Laws/PerInstr.lean ====
section
/-! SUPPORT. Statements about every operation as syntax, one lemma per constructor. -/

namespace Sys2Proof.Laws.AloneIdle

/-- A cycle that is there for `i` alone runs `i` (or, for `IDLE`, an idle agent) and otherwise only idle agents. -/
def Statement (i : Instr) : Prop := i ∈ i.alone ∧ ∀ j ∈ i.alone, j = i ∨ ∃ a, j = .idle a

/-- A row run alone. -/
theorem of_single {i : Instr} (h : i.alone = [i]) : Statement i := by
  rw [Statement, h]
  exact ⟨List.mem_singleton.mpr rfl, fun j hj => .inl (List.mem_singleton.mp hj)⟩

/-- A row in its agent's place, with the other two agents idle. -/
theorem of_mem {i : Instr} {l : List Instr} (h : i.alone = l) (hi : i ∈ l)
    (hl : l.all (fun j => j = i ∨ j = .idle .rx ∨ j = .idle .tx ∨ j = .idle .g) = true) : Statement i := by
  rw [Statement, h]
  refine ⟨hi, fun j hj => ?_⟩
  rcases of_decide_eq_true (List.all_eq_true.mp hl j hj) with h | h | h | h
  · exact .inl h
  · exact .inr ⟨.rx, h⟩
  · exact .inr ⟨.tx, h⟩
  · exact .inr ⟨.g, h⟩

/-- A decoder row. -/
theorem of_rx {i : Instr} (h : i.alone = [i, .idle .tx, .idle .g]) : Statement i :=
  of_mem h (.head _) (by simp)

/-- An encoder row. -/
theorem of_tx {i : Instr} (h : i.alone = [.idle .rx, i, .idle .g]) : Statement i :=
  of_mem h (.tail _ (.head _)) (by simp)

/-- A CRC port row. -/
theorem of_g {i : Instr} (h : i.alone = [.idle .rx, .idle .tx, i]) : Statement i :=
  of_mem h (.tail _ (.tail _ (.head _))) (by simp)

theorem crcStep (c : U16) (b : Byte) : Statement (.crcStep c b) := of_single rfl
theorem crc16 (bytes : List Byte) : Statement (.crc16 bytes) := of_single rfl
theorem encode (op : Byte) (args : List Byte) : Statement (.encode op args) := of_single rfl
theorem gInit : Statement .gInit := of_g rfl
theorem gUpdate (b : Byte) : Statement (.gUpdate b) := of_g rfl
theorem rxMarkText : Statement .rxMarkText := of_rx rfl
theorem rxMarkBin : Statement .rxMarkBin := of_rx rfl
theorem rxMarkBad (b : Byte) : Statement (.rxMarkBad b) := of_rx rfl
theorem rxTextData (b : Byte) : Statement (.rxTextData b) := of_rx rfl
theorem rxTextEnd : Statement .rxTextEnd := of_rx rfl
theorem rxTextTrunc (b : Byte) : Statement (.rxTextTrunc b) := of_rx rfl
theorem rxLen (n : Byte) : Statement (.rxLen n) := of_rx rfl
theorem rxBinData (b : Byte) : Statement (.rxBinData b) := of_rx rfl
theorem rxBinCrcHi (b : Byte) : Statement (.rxBinCrcHi b) := of_rx rfl
theorem rxBinCrcLo (b : Byte) : Statement (.rxBinCrcLo b) := of_rx rfl
theorem txCmd (op : Byte) (l : U16) : Statement (.txCmd op l) := of_tx rfl
theorem txReject (op : Byte) (l : U16) : Statement (.txReject op l) := of_tx rfl
theorem txLen : Statement .txLen := of_tx rfl
theorem txOpcode : Statement .txOpcode := of_tx rfl
theorem txArg (a : Byte) : Statement (.txArg a) := of_tx rfl
theorem txCrcHi : Statement .txCrcHi := of_tx rfl
theorem txCrcLo : Statement .txCrcLo := of_tx rfl
theorem sysReset : Statement .sysReset := of_single rfl
theorem sysClose : Statement .sysClose := of_single rfl
theorem idle (a : Agent) : Statement (.idle a) := by
  cases a
  · exact of_rx rfl
  · exact of_tx rfl
  · exact of_g rfl
theorem frameGetStatus : Statement .frameGetStatus := of_rx rfl
theorem frameStart : Statement .frameStart := of_rx rfl
theorem frameDelete : Statement .frameDelete := of_rx rfl
theorem frameSendData : Statement .frameSendData := of_rx rfl
theorem frameReceiveError : Statement .frameReceiveError := of_rx rfl
theorem frameDataFromTask : Statement .frameDataFromTask := of_rx rfl

end Sys2Proof.Laws.AloneIdle
end

