-- ==== Sys2Proof/Laws/Run.lean ====
section
/-! SUPPORT. Laws of runs: the model's `run` is the host's, a run of a sum of cycles is two runs, and an invariant that
every step keeps holds along every run. -/

namespace Sys2Proof.Machine

@[simp] theorem run_zero (s : State) : run 0 s = .next s := rfl

/-- A run goes on from what its first step answers. -/
theorem run_succ_next {k : Nat} {s t : State} :
    run (k + 1) s = .next t ↔ ∃ u, step s = .next u ∧ run k u = .next t := by
  rw [run]
  cases step s <;> simp

/-- A run of `j + k` cycles is a run of `j` cycles and then one of `k`. -/
theorem run_add_next {j k : Nat} {s t : State} :
    run (j + k) s = .next t ↔ ∃ u, run j s = .next u ∧ run k u = .next t := by
  induction j generalizing s with
  | zero => simp
  | succ j ih =>
    rw [Nat.add_right_comm, run_succ_next]
    constructor
    · rintro ⟨u, hu, hrun⟩
      obtain ⟨v, hv, hk⟩ := ih.mp hrun
      exact ⟨v, run_succ_next.mpr ⟨u, hu, hv⟩, hk⟩
    · rintro ⟨v, hv, hk⟩
      obtain ⟨u, hu, hj⟩ := run_succ_next.mp hv
      exact ⟨u, hu, ih.mpr ⟨v, hj, hk⟩⟩

theorem core_run_next (M : Host.Core) (k : Nat) {s t : M.State} (h : M.step s = .next t) :
    M.run (k + 1) s = M.run k t := by
  rw [Host.Core.run, h]

theorem core_run_fault (M : Host.Core) (k : Nat) {s : M.State} {r : M.Fault} (h : M.step s = .fault r) :
    M.run (k + 1) s = .fault r := by
  rw [Host.Core.run, h]

theorem core_run_refused (M : Host.Core) (k : Nat) {s : M.State} {r : M.Refusal} (h : M.step s = .refused r) :
    M.run (k + 1) s = .refused r := by
  rw [Host.Core.run, h]

/-- The model's runs are the host's runs of `core`. -/
theorem run_eq_core_run (k : Nat) (s : State) : Host.Core.run Sys2Proof.core k s = run k s := by
  induction k generalizing s with
  | zero => rfl
  | succ k ih =>
    cases h : step s with
    | next t => exact (core_run_next _ k h).trans ((ih t).trans (by rw [run, h]))
    | fault r => exact (core_run_fault _ k h).trans (by rw [run, h]; rfl)
    | refused r => exact (core_run_refused _ k h).trans (by rw [run, h]; rfl)

/-- An invariant that every step keeps holds along every run. -/
theorem run_keeps {P : State → Prop} (hstep : ∀ s t, P s → step s = .next t → P t) {k : Nat} {s t : State}
    (hs : P s) (h : run k s = .next t) : P t := by
  induction k generalizing s with
  | zero => cases h; exact hs
  | succ k ih =>
    obtain ⟨u, hu, hk⟩ := run_succ_next.mp h
    exact ih (hstep s u hs hu) hk

end Sys2Proof.Machine
end

