-- ==== Sys2Proof/Tests/Slice0.lean ====
section
/-! SUPPORT. Tests: what WellFormed refuses, the decoding of port values written out from spec/30_encoding.md R80 to R83
and R88, one-step tests with the values of spec/95_test_vectors.md and of the rules' own examples, and a witness for the
hypotheses of every statement that has some. -/

open Sys2Proof Sys2Proof.Machine

namespace Sys2Proof.Tests

set_option Elab.async false

/-! ### WellFormed refuses -/

theorem test_wf_refuses_bad_marker_02 : (Instr.rxMarkBad 0x02).wellFormed = false := by decide
theorem test_wf_refuses_bad_marker_FF : (Instr.rxMarkBad 0xFF).wellFormed = false := by decide
theorem test_wf_refuses_text_data_03 : (Instr.rxTextData 0x03).wellFormed = false := by decide
theorem test_wf_refuses_text_trunc_03 : (Instr.rxTextTrunc 0x03).wellFormed = false := by decide
theorem test_wf_refuses_cmd_255 : (Instr.txCmd 0x04 255).wellFormed = false := by decide
theorem test_wf_refuses_reject_254 : (Instr.txReject 0x04 254).wellFormed = false := by decide

/-! ### States -/

/-- The reset state with these decoder registers. -/
def rxIn (st : RxState) (len : Byte) (cnt : Cnt) (crc : U16) (trailHi : Byte) (buf : Buf) : State :=
  { State.reset with rx := { state := st, len := len, cnt := cnt, crc := crc, trailHi := trailHi, buf := buf } }

/-- The reset state with these encoder registers. -/
def txIn (st : TxState) (op n rem : Byte) (crc : U16) (wire : List Byte) : State :=
  { State.reset with tx := { state := st, op := op, n := n, rem := rem, crc := crc }, wire := wire }

/-- Port values with a received byte. -/
def recv (b : Byte) : InPins := { InPins.quiet with rxValid := true, rxData := b }

/-- Port values with a command. -/
def command (op : Byte) (l : U16) : InPins :=
  { InPins.quiet with txCmdValid := true, txCmdOpcode := op, txCmdArgsLen := l }

/-- Port values with the output ready. -/
def ready : InPins := { InPins.quiet with txOutReady := true }

/-- Port values with the output ready and an argument byte. -/
def argument (a : Byte) : InPins := { InPins.quiet with txOutReady := true, txArgValid := true, txArgData := a }

/-- `AwaitingMarker` with the leftovers `04 41` in the buffer. -/
def sIdle : State := rxIn .awaitingMarker 0 0 0xFFFF 0 [(0, 0x04), (1, 0x41)]
/-- `TextBody` after `02 41`. -/
def sText : State := rxIn .textBody 0 1 0xFFFF 0 [(0, 0x41)]
/-- `BinaryLength` after `FF`. -/
def sLen : State := rxIn .binaryLength 0 0 0xFFFF 0 []
/-- `BinaryPayload` after `FF 03`. -/
def sOpcode : State := rxIn .binaryPayload 3 0 0xFFFF 0 []
/-- `BinaryPayload` after `FF 03 02 05 01` (spec/95_test_vectors.md E4: the checksum is 0x9012). -/
def sHi : State := rxIn .binaryPayload 3 3 0x9012 0 [(0, 0x02), (1, 0x05), (2, 0x01)]
/-- `BinaryPayload` after `FF 03 02 05 01 90`. -/
def sLo : State := rxIn .binaryPayload 3 4 0x9012 0x90 [(0, 0x02), (1, 0x05), (2, 0x01)]
/-- `BinaryPayload` after `FF 00 FF`: an empty frame before its last byte. -/
def sEmptyLo : State := rxIn .binaryPayload 0 1 0xFFFF 0xFF []
/-- The encoder after the command `encode(0x02, [05, 01])`. -/
def sTxLen : State := txIn .len 0x02 3 2 0xFFFF []
/-- ... after its length byte. -/
def sTxOpcode : State := txIn .opcode 0x02 3 2 0xFFFF [0x03]
/-- ... after its opcode byte. -/
def sTxArgs : State := txIn .args 0x02 3 2 0x813E [0x03, 0x02]
/-- ... after its first argument byte. -/
def sTxLast : State := txIn .args 0x02 3 1 0xD3C0 [0x03, 0x02, 0x05]
/-- ... after its arguments. -/
def sTxHi : State := txIn .crcHi 0x02 3 0 0x9012 [0x03, 0x02, 0x05, 0x01]
/-- ... after its checksum's high byte. -/
def sTxLo : State := txIn .crcLo 0x02 3 0 0x9012 [0x03, 0x02, 0x05, 0x01, 0x90]

/-- One step with the given item next, seen through `f`; none when the machine stops. -/
def seen {α : Type} (f : State → α) (item : Item) (s : State) : Option α :=
  match step (s.withScript [item]) with
  | .next t => some (f t)
  | .fault _ => none
  | .refused _ => none

/-- `seen` with port values. -/
def seenAt {α : Type} (f : State → α) (p : InPins) (s : State) : Option α := seen f (.clock p) s

/-! ### Decoding, from port values written out bit by bit (R80 to R83, R88) -/

theorem test_decode_crcStep : decode sIdle.view (.crcStep 0xFFFF 0x01) = .ok [.crcStep 0xFFFF 0x01] := by decide
theorem test_decode_crc16 : decode sIdle.view (.crc16 [0x02, 0x01]) = .ok [.crc16 [0x02, 0x01]] := by decide
theorem test_decode_encode : decode sIdle.view (.encode 0x01 []) = .ok [.encode 0x01 []] := by decide

/-- R82: `g_init` wins over `g_en`. -/
theorem test_decode_gInit : selectG { InPins.quiet with gInit := true, gEn := true, gData := 0b00000101 } = some .gInit := by
  decide

theorem test_decode_gUpdate :
    decode sIdle.view (.clock { InPins.quiet with gEn := true, gData := 0b00000101 }) =
      .ok [.idle .rx, .idle .tx, .gUpdate 5] := by decide

theorem test_decode_rxMarkText : selectRx sIdle.view 0b00000010 = .ok .rxMarkText := by decide
theorem test_decode_rxMarkBin : selectRx sIdle.view 0b11111111 = .ok .rxMarkBin := by decide
theorem test_decode_rxMarkBad : selectRx sIdle.view 0b10011001 = .ok (.rxMarkBad 0x99) := by decide
theorem test_decode_rxTextData : selectRx sText.view 0b01000010 = .ok (.rxTextData 0x42) := by decide

/-- The last byte below the cap: `rx_cnt == 1022`. -/
theorem test_decode_rxTextData_last : selectRx (rxIn .textBody 0 1022 0xFFFF 0 []).view 0xFF = .ok (.rxTextData 0xFF) := by
  decide

/-- The terminator wins over the cap (R198 (c)). -/
theorem test_decode_rxTextEnd : selectRx (rxIn .textBody 0 1023 0xFFFF 0 []).view 0b00000011 = .ok .rxTextEnd := by decide

theorem test_decode_rxTextTrunc :
    selectRx (rxIn .textBody 0 1023 0xFFFF 0 []).view 0b01000001 = .ok (.rxTextTrunc 0x41) := by decide

/-- A second `FF` is a length. -/
theorem test_decode_rxLen : selectRx sLen.view 0b11111111 = .ok (.rxLen 255) := by decide
theorem test_decode_rxBinData : selectRx sOpcode.view 0b00000010 = .ok (.rxBinData 0x02) := by decide
theorem test_decode_rxBinCrcHi : selectRx sHi.view 0b10010000 = .ok (.rxBinCrcHi 0x90) := by decide
theorem test_decode_rxBinCrcLo : selectRx sLo.view 0b00010010 = .ok (.rxBinCrcLo 0x12) := by decide

theorem test_decode_txCmd :
    decode sIdle.view (.clock { InPins.quiet with
        txCmdValid := true, txCmdOpcode := 0b00000010, txCmdArgsLen := 0b0000000011111110 }) =
      .ok [.idle .rx, .txCmd 0x02 254, .idle .g] := by decide

/-- Bit 8 of `tx_cmd_args_len` counts. -/
theorem test_decode_txReject :
    decode sIdle.view (.clock { InPins.quiet with
        txCmdValid := true, txCmdOpcode := 0b00000010, txCmdArgsLen := 0b0000000100000000 }) =
      .ok [.idle .rx, .txReject 0x02 256, .idle .g] := by decide

theorem test_decode_txLen : selectTx sTxLen.view { InPins.quiet with txOutReady := true } = .ok .txLen := by decide
theorem test_decode_txOpcode : selectTx sTxOpcode.view { InPins.quiet with txOutReady := true } = .ok .txOpcode := by decide

theorem test_decode_txArg :
    selectTx sTxArgs.view { InPins.quiet with txOutReady := true, txArgValid := true, txArgData := 0b00000101 } =
      .ok (.txArg 5) := by decide

theorem test_decode_txCrcHi : selectTx sTxHi.view { InPins.quiet with txOutReady := true } = .ok .txCrcHi := by decide
theorem test_decode_txCrcLo : selectTx sTxLo.view { InPins.quiet with txOutReady := true } = .ok .txCrcLo := by decide

/-- `rst` wins over `link_close` and data. -/
theorem test_decode_sysReset :
    decode sText.view (.clock { recv 0x41 with rst := true, linkClose := true, gEn := true }) = .ok [.sysReset] := by decide

/-- `link_close` wins over data, but not over the CRC port. -/
theorem test_decode_sysClose :
    decode sText.view (.clock { recv 0x41 with linkClose := true, gEn := true, gData := 0x01 }) =
      .ok [.sysClose, .gUpdate 0x01] := by decide

/-- An argument byte waits while the output is not ready. -/
theorem test_decode_idle :
    decode sTxArgs.view (.clock { InPins.quiet with txArgValid := true }) = .ok [.idle .rx, .idle .tx, .idle .g] := by decide

theorem test_decode_frameGetStatus :
    decode sOpcode.view (.opcode 0b00000001) = .ok [.frameGetStatus, .idle .tx, .idle .g] := by decide
theorem test_decode_frameStart :
    decode sOpcode.view (.opcode 0b00000010) = .ok [.frameStart, .idle .tx, .idle .g] := by decide
theorem test_decode_frameDelete :
    decode sOpcode.view (.opcode 0b00000011) = .ok [.frameDelete, .idle .tx, .idle .g] := by decide
theorem test_decode_frameSendData :
    decode sOpcode.view (.opcode 0b00000100) = .ok [.frameSendData, .idle .tx, .idle .g] := by decide
theorem test_decode_frameReceiveError :
    decode sOpcode.view (.opcode 0b11111110) = .ok [.frameReceiveError, .idle .tx, .idle .g] := by decide
theorem test_decode_frameDataFromTask :
    decode sOpcode.view (.opcode 0b00000111) = .ok [.frameDataFromTask, .idle .tx, .idle .g] := by decide

/-- A value outside R88's list is a plain block byte. -/
theorem test_decode_opcode_unnamed :
    decode sOpcode.view (.opcode 0x05) = .ok [.rxBinData 0x05, .idle .tx, .idle .g] := by decide

/-- The words of the table, as the host asks for them. -/
theorem test_table_words :
    decodeTableWord 8 0xFF = some .rxMarkBin ∧ decodeTableWord 8 0x02 = some .rxMarkText ∧
      decodeTableWord 8 0x03 = some .rxTextEnd ∧ decodeTableWord 8 0x01 = some .frameGetStatus ∧
      decodeTableWord 8 0xFE = some .frameReceiveError ∧ decodeTableWord 16 0x02 = none := by decide

/-! ### The CRC family (spec/95_test_vectors.md section 2) -/

/-- The published check value (G2). -/
theorem test_crc16_check :
    crc16 [0x31, 0x32, 0x33, 0x34, 0x35, 0x36, 0x37, 0x38, 0x39] = 0x4B37 := by decide +kernel
/-- R102: the order of the bytes counts. -/
theorem test_crc16_order : crc16 [0x02, 0x01] = 0x10C1 := by decide +kernel
theorem test_exec_crc16 : seen (·.out.fn) (.crc16 [0x02, 0x05, 0x01]) sIdle = some (some (.u16 0x9012)) := by decide +kernel
theorem test_exec_crcStep : seen (·.out.fn) (.crcStep 0xFFFF 0x01) sIdle = some (some (.u16 0x807E)) := by decide
theorem test_exec_gInit : seenAt (·.gCrc) { InPins.quiet with gInit := true } { sIdle with gCrc := 0x807E } = some 0xFFFF := by
  decide
theorem test_exec_gUpdate :
    seenAt (·.gCrc) { InPins.quiet with gEn := true, gData := 0x05 } { sIdle with gCrc := 0x813E } = some 0xD3C0 := by decide

/-! ### The decoder (examples of R121 to R130) -/

theorem test_exec_rxMarkText : seenAt (·.rx.state) (recv 0x02) sIdle = some .textBody := by decide
theorem test_exec_rxMarkBin : seenAt (·.rx.state) (recv 0xFF) sIdle = some .binaryLength := by decide
theorem test_exec_rxMarkBad : seenAt (·.events) (recv 0x99) sIdle = some [.unrecognizedMarker 0x99] := by decide
/-- A marker byte inside a text body is content. -/
theorem test_exec_rxTextData : seenAt (·.rx.buf) (recv 0xFF) sText = some [(0, 0x41), (1, 0xFF)] := by decide
/-- An empty text block is an event too. -/
theorem test_exec_rxTextEnd_empty :
    seenAt (·.out.ev) (recv 0x03) (rxIn .textBody 0 0 0xFFFF 0 [(0, 0x41)]) = some (some (.textBlock [])) := by decide
theorem test_exec_rxTextEnd : seenAt (·.out.ev) (recv 0x03) sText = some (some (.textBlock [0x41])) := by decide
/-- The byte that completes the cap is stored at index 1023. -/
theorem test_exec_rxTextTrunc :
    seenAt (fun t => (t.rx.state, t.rx.cnt, t.rx.buf)) (recv 0x58) (rxIn .textBody 0 1023 0xFFFF 0 []) =
      some (.awaitingMarker, 0, [(1023, 0x58)]) := by decide
theorem test_exec_rxLen : seenAt (fun t => (t.rx.state, t.rx.len)) (recv 0xFF) sLen = some (.binaryPayload, 255) := by decide
/-- R128's example. -/
theorem test_exec_rxBinData : seenAt (fun t => (t.rx.cnt, t.rx.crc)) (recv 0x02) sOpcode = some (1, 0x813E) := by decide
theorem test_exec_rxBinCrcHi : seenAt (fun t => (t.rx.trailHi, t.rx.crc)) (recv 0x90) sHi = some (0x90, 0x9012) := by decide
/-- E4 of spec/95_test_vectors.md. -/
theorem test_exec_rxBinCrcLo : seenAt (·.out.ev) (recv 0x12) sLo = some (some (.frame 0x02 [0x05, 0x01] 3 0x9012)) := by decide
/-- E2 of spec/95_test_vectors.md: the low byte altered. -/
theorem test_exec_rxBinCrcLo_bad : seenAt (·.out.ev) (recv 0x13) sLo = some (some (.crcMismatch 3 0x9013 0x9012)) := by decide
theorem test_exec_frameGetStatus :
    seen (fun t => (t.rx.crc, t.rx.cnt)) (.opcode 0x01) (rxIn .binaryPayload 1 0 0xFFFF 0 []) = some (0x807E, 1) := by decide
theorem test_exec_frameStart : seen (fun t => (t.rx.crc, t.rx.buf)) (.opcode 0x02) sOpcode = some (0x813E, [(0, 0x02)]) := by
  decide
theorem test_exec_frameDelete : seen (·.rx.buf) (.opcode 0x03) sOpcode = some [(0, 0x03)] := by decide
theorem test_exec_frameSendData : seen (·.rx.buf) (.opcode 0x04) sOpcode = some [(0, 0x04)] := by decide
theorem test_exec_frameReceiveError : seen (·.rx.buf) (.opcode 0xFE) sOpcode = some [(0, 0xFE)] := by decide
theorem test_exec_frameDataFromTask : seen (·.rx.buf) (.opcode 0x07) sOpcode = some [(0, 0x07)] := by decide

/-! ### The encoder (examples of R150 to R158) -/

theorem test_exec_encode :
    seen (·.out.fn) (.encode 0x02 [0x05, 0x01]) sIdle = some (some (.wire [0x03, 0x02, 0x05, 0x01, 0x90, 0x12])) := by decide +kernel
theorem test_exec_txCmd :
    seenAt (fun t => (t.tx.n, t.tx.rem, t.tx.state)) (command 0x02 254) sIdle = some (255, 254, .len) := by decide
theorem test_exec_txReject :
    seenAt (fun t => (t.out.txEv, t.tx.state)) (command 0x04 256) sIdle =
      some (some (.encoderPayloadTooLong 256), .idle) := by decide
theorem test_exec_txLen : seenAt (·.wire) ready sTxLen = some [0x03] := by decide
theorem test_exec_txOpcode : seenAt (fun t => (t.tx.crc, t.tx.state)) ready sTxOpcode = some (0x813E, .args) := by decide
/-- With no arguments the encoder goes straight to the trailer. -/
theorem test_exec_txOpcode_bare : seenAt (·.tx.state) ready (txIn .opcode 0x01 1 0 0xFFFF [0x01]) = some .crcHi := by decide
theorem test_exec_txArg : seenAt (fun t => (t.tx.crc, t.tx.state)) (argument 0x05) sTxArgs = some (0xD3C0, .args) := by decide
theorem test_exec_txArg_last : seenAt (fun t => (t.tx.crc, t.tx.state)) (argument 0x01) sTxLast = some (0x9012, .crcHi) := by
  decide
theorem test_exec_txCrcHi : seenAt (fun t => (t.out.txOut, t.tx.state)) ready sTxHi = some (some 0x90, .crcLo) := by decide
theorem test_exec_txCrcLo :
    seenAt (fun t => (t.wire, t.tx.op, t.tx.crc)) ready sTxLo =
      some ([0x03, 0x02, 0x05, 0x01, 0x90, 0x12], 0, 0xFFFF) := by decide

/-! ### Control (R180 to R185) -/

theorem test_exec_sysReset :
    seenAt (fun t => (t.rx.state, t.tx.state, t.gCrc)) { InPins.quiet with rst := true } { sLo with gCrc := 0x1234 } =
      some (.awaitingMarker, .idle, 0xFFFF) := by decide
theorem test_exec_sysClose :
    seenAt (fun t => (t.rx.state, t.events, t.gCrc)) { InPins.quiet with linkClose := true } { sText with gCrc := 0x1234 } =
      some (.awaitingMarker, [], 0x1234) := by decide
theorem test_exec_idle : seenAt (fun t => (t.rx, t.tx)) InPins.quiet sLo = some (sLo.rx, sLo.tx) := by decide

/-! ### The event ports (R190, R191) -/

theorem test_evPins_mismatch :
    evPins (.crcMismatch 3 0x9013 0x9012) =
      { evValid := true, evKind := 6, evOpcode := 0, evN := 3, evLen := 0, evData := [], evByte := 0, evCrcRx := 0x9013,
        evCrcCalc := 0x9012 } := by decide
theorem test_txEvPins :
    txEvPins (.encoderPayloadTooLong 255) = { txEvValid := true, txEvKind := 7, txEvArgsLen := 255 } := by decide

/-! ### Witnesses of the statements' hypotheses: the states -/

theorem inv_sIdle : sIdle.Inv := ⟨⟨by decide, ⟨rfl, rfl, rfl⟩, rfl⟩, rfl⟩
theorem inv_sText : sText.Inv := ⟨⟨by decide, ⟨rfl, rfl, rfl⟩, by decide, by decide⟩, rfl⟩
theorem inv_sLen : sLen.Inv := ⟨⟨by decide, ⟨rfl, rfl, rfl⟩, rfl⟩, rfl⟩
theorem inv_sHi : sHi.Inv := ⟨⟨by decide, by decide, by decide +kernel, fun _ => rfl⟩, rfl⟩
theorem inv_sLo : sLo.Inv := ⟨⟨by decide, by decide, by decide +kernel, fun h => absurd rfl h⟩, rfl⟩
theorem inv_sTxLen : sTxLen.Inv := ⟨⟨by decide, ⟨rfl, rfl, rfl⟩, rfl⟩, rfl, rfl⟩
theorem inv_sTxArgs : sTxArgs.Inv :=
  ⟨⟨by decide, ⟨rfl, rfl, rfl⟩, rfl⟩, by decide, by decide, [], rfl, by decide +kernel, List.suffix_refl _⟩


/-! ### Witnesses, statement by statement -/

theorem witness_CrcStepIsTheBitLoop :
    ∃ v : Nat → U16, v 0 = 0xFFFF#16 ^^^ (0x01#8).setWidth 16 ∧
      ∀ k, v (k + 1) = if (v k).getLsbD 0 = true then (v k >>> 1) ^^^ 0xA001#16 else v k >>> 1 :=
  ⟨Nat.rec (0xFFFF#16 ^^^ (0x01#8).setWidth 16)
    fun _ x => if x.getLsbD 0 = true then (x >>> 1) ^^^ 0xA001#16 else x >>> 1, rfl, fun _ => rfl⟩

theorem witness_Crc16IsIncremental :
    ∃ acc : Nat → U16, acc 0 = params.crcInit ∧
      ∀ k (h : k < [0x02#8, 0x05#8].length), acc (k + 1) = crcStep (acc k) ([0x02#8, 0x05#8][k]) :=
  ⟨fun k => crc16 ([0x02#8, 0x05#8].take k), rfl, by decide +kernel⟩

theorem witness_CrcDetectsOneByteErrors : (0x00#8 : Byte) ≠ 0xFF#8 := by decide

theorem witness_GInitRestartsThePort : { InPins.quiet with gInit := true, gEn := true }.gInit = true := rfl

theorem witness_GUpdateAdvancesThePort :
    { InPins.quiet with gEn := true }.gInit = false ∧ { InPins.quiet with gEn := true }.gEn = true := ⟨rfl, rfl⟩

/-- A close, a byte summed and a byte received, in mid-frame. -/
theorem witness_GPortChecksumsWhatItIsGiven :
    ∃ (s : State) (ps : List InPins), s.Inv ∧ s.script = ps.map .clock ++ [] ∧ s.gCrc = params.crcInit ∧ ps.length = 3 ∧
      ∀ p ∈ ps, p.rst = false ∧ p.gInit = false :=
  ⟨{ sText with script := [.clock { InPins.quiet with linkClose := true, gEn := true },
        .clock { InPins.quiet with gEn := true, gData := 5 }, .clock (recv 0x02)] },
    [{ InPins.quiet with linkClose := true, gEn := true }, { InPins.quiet with gEn := true, gData := 5 }, recv 0x02],
    inv_sText, rfl, rfl, rfl, by decide⟩

theorem witness_MarkTextOpensTextBody : sIdle.rx.state = .awaitingMarker := rfl
theorem witness_MarkBinOpensBinaryFrame : sIdle.rx.state = .awaitingMarker := rfl

theorem witness_MarkBadReportsTheByte :
    sIdle.rx.state = .awaitingMarker ∧ (0x03#8 : Byte) ≠ 0x02#8 ∧ (0x03#8 : Byte) ≠ 0xFF#8 := by decide

/-- The last index below the cap. -/
theorem witness_TextDataStoresTheByte :
    ∃ s : State, s.rx.buf.wf = true ∧ s.rx.state = .textBody ∧ (0xFF#8 : Byte) ≠ 0x03#8 ∧ s.rx.cnt.toNat + 1 < 1024 ∧
      s.rx.cnt = 1022#11 :=
  ⟨rxIn .textBody 0 1022 0xFFFF 0 [(0, 0x41)], by decide⟩

theorem witness_TextEndEmitsTheText :
    ∃ s : State, s.rx.state = .textBody ∧ s.rx.cnt.toNat ≤ 1024 ∧ s.rx.cnt = 1024#11 :=
  ⟨rxIn .textBody 0 1024 0xFFFF 0 [], by decide⟩

theorem witness_TextTruncEmitsAllCollected :
    ∃ s : State, s.rx.buf.wf = true ∧ s.rx.state = .textBody ∧ (0x58#8 : Byte) ≠ 0x03#8 ∧ s.rx.cnt.toNat + 1 = 1024 :=
  ⟨rxIn .textBody 0 1023 0xFFFF 0 [(1022, 0x41)], by decide⟩

theorem witness_LenOpensPayload : sLen.rx.state = .binaryLength := rfl

theorem witness_BinDataAccumulates :
    ∃ s : State, s.rx.buf.wf = true ∧ s.rx.state = .binaryPayload ∧ s.rx.cnt.toNat < s.rx.len.toNat ∧ s.rx.cnt = 254#11 :=
  ⟨rxIn .binaryPayload 255 254 0xFFFF 0 [], by decide⟩

theorem witness_BinCrcHiHoldsTheByte :
    (∃ s : State, s.rx.state = .binaryPayload ∧ s.rx.cnt.toNat = s.rx.len.toNat ∧ s.rx.len = 255#8) ∧
    (∃ s : State, s.rx.state = .binaryPayload ∧ s.rx.cnt.toNat = s.rx.len.toNat ∧ s.rx.len = 0#8) :=
  ⟨⟨rxIn .binaryPayload 255 255 0xFFFF 0 [], by decide⟩, ⟨rxIn .binaryPayload 0 0 0xFFFF 0 [], by decide⟩⟩

/-- One state and byte for each branch: a wrong trailer, an empty frame, a frame. -/
theorem witness_BinCrcLoJudgesTheFrame :
    (sLo.rx.state = .binaryPayload ∧ sLo.rx.cnt.toNat = sLo.rx.len.toNat + 1 ∧
      sLo.rx.crc ≠ be16 sLo.rx.trailHi 0x13#8) ∧
    (sEmptyLo.rx.state = .binaryPayload ∧ sEmptyLo.rx.cnt.toNat = sEmptyLo.rx.len.toNat + 1 ∧
      sEmptyLo.rx.crc = be16 sEmptyLo.rx.trailHi 0xFF#8 ∧ sEmptyLo.rx.len = 0#8) ∧
    (sLo.rx.state = .binaryPayload ∧ sLo.rx.cnt.toNat = sLo.rx.len.toNat + 1 ∧
      sLo.rx.crc = be16 sLo.rx.trailHi 0x12#8 ∧ sLo.rx.len ≠ 0#8) := by decide

/-- For each of the six rows. -/
theorem witness_FrameOpcodesAreBlockBytes :
    [(Instr.frameGetStatus, 0x01#8), (.frameStart, 0x02#8), (.frameDelete, 0x03#8), (.frameSendData, 0x04#8),
      (.frameDataFromTask, 0x07#8), (.frameReceiveError, 0xFE#8)].length = 6 ∧
    (Instr.frameReceiveError, 0xFE#8) ∈
      [(Instr.frameGetStatus, 0x01#8), (.frameStart, 0x02#8), (.frameDelete, 0x03#8), (.frameSendData, 0x04#8),
        (.frameDataFromTask, 0x07#8), (.frameReceiveError, 0xFE#8)] ∧
    sOpcode.rx.buf.wf = true ∧ sOpcode.rx.state = .binaryPayload ∧ sOpcode.rx.cnt = 0#11 ∧ sOpcode.rx.len ≠ 0#8 := by
  decide

theorem witness_EncodeLaysOutTheFrame :
    254 < (List.replicate 255 (0x00#8 : Byte)).length ∧ (List.replicate 254 (0x00#8 : Byte)).length ≤ 254 :=
  ⟨by rw [List.length_replicate]; decide, by rw [List.length_replicate]⟩

theorem witness_CmdLoadsTheCommand :
    sIdle.tx.state = .idle ∧ (254#16).toNat ≤ 254 ∧ (command 0x04 254).txCmdValid = true ∧
      (command 0x04 254).txCmdOpcode = 0x04 ∧ (command 0x04 254).txCmdArgsLen = 254#16 := by decide

theorem witness_RejectReportsAndChangesNothing :
    sIdle.tx.state = .idle ∧ 254 < (255#16).toNat ∧ (command 0x04 255).txCmdValid = true ∧
      (command 0x04 255).txCmdOpcode = 0x04 ∧ (command 0x04 255).txCmdArgsLen = 255#16 := by decide

theorem witness_LenByteGoesOut : sTxLen.tx.state = .len ∧ ready.txOutReady = true := ⟨rfl, rfl⟩
theorem witness_OpcodeByteGoesOut : sTxOpcode.tx.state = .opcode ∧ ready.txOutReady = true := ⟨rfl, rfl⟩

/-- The last argument byte, and one of the most. -/
theorem witness_ArgumentByteGoesOut :
    (sTxLast.tx.state = .args ∧ 1 ≤ sTxLast.tx.rem.toNat ∧ sTxLast.tx.rem = 1#8) ∧
    ((txIn .args 0x02 255 254 0x813E []).tx.state = .args ∧ 1 ≤ (txIn .args 0x02 255 254 0x813E []).tx.rem.toNat) ∧
    (argument 0x05).txOutReady = true ∧ (argument 0x05).txArgValid = true ∧ (argument 0x05).txArgData = 0x05#8 := by decide

theorem witness_CrcHighByteGoesOut : sTxHi.tx.state = .crcHi ∧ ready.txOutReady = true := ⟨rfl, rfl⟩
theorem witness_CrcLowByteEndsTheCommand : sTxLo.tx.state = .crcLo ∧ ready.txOutReady = true := ⟨rfl, rfl⟩

theorem witness_ResetClearsEveryAgent : { recv 0x41 with rst := true, linkClose := true }.rst = true := rfl

theorem witness_CloseClearsTheLink :
    { recv 0x41 with linkClose := true }.rst = false ∧ { recv 0x41 with linkClose := true }.linkClose = true := ⟨rfl, rfl⟩

/-- In mid-frame and mid-command, with no agent's step condition met. -/
theorem witness_IdleChangesNothing :
    ∃ s : State, NoControl InPins.quiet ∧ s.script = .clock InPins.quiet :: [] ∧ (∃ t, step s = .next t) ∧
      InPins.quiet.rxValid = false ∧ selectTx s.view InPins.quiet = .ok (.idle .tx) ∧ InPins.quiet.gInit = false ∧
      InPins.quiet.gEn = false :=
  ⟨{ sLo with tx := sTxArgs.tx, script := [.clock InPins.quiet] }, ⟨rfl, rfl⟩, rfl, ⟨_, rfl⟩, rfl, rfl, rfl, rfl⟩

theorem witness_HoldingControlIsIdempotent :
    (∃ (s : State) (ps : List InPins), ps ≠ [] ∧ s.script = ps.map .clock ++ [] ∧ (∀ p ∈ ps, p.rst = true) ∧
      ps.length = 2) ∧
    (∃ (s : State) (ps : List InPins), ps ≠ [] ∧ s.script = ps.map .clock ++ [] ∧
      (∀ p ∈ ps, p.rst = false ∧ p.linkClose = true) ∧ (∀ p ∈ ps, p.gInit = false ∧ p.gEn = false) ∧ ps.length = 2) :=
  ⟨⟨{ sLo with script := [.clock { recv 1 with rst := true }, .clock { InPins.quiet with rst := true }] },
      [{ recv 1 with rst := true }, { InPins.quiet with rst := true }], by decide⟩,
    ⟨{ sLo with script := [.clock { recv 1 with linkClose := true }, .clock { InPins.quiet with linkClose := true }] },
      [{ recv 1 with linkClose := true }, { InPins.quiet with linkClose := true }], by decide⟩⟩

/-- Each of the clauses on the CRC port has a cycle of its own. -/
theorem witness_ControlCycleConsumesNothing :
    ∃ p₁ p₂ p₃ p₄ : InPins,
      (p₁.rst = true ∧ p₁.linkClose = true ∧ p₁.gEn = true) ∧
      (p₂.rst = false ∧ p₂.linkClose = true ∧ p₂.gInit = true) ∧
      (p₃.rst = false ∧ p₃.linkClose = true ∧ p₃.gInit = false ∧ p₃.gEn = true) ∧
      (p₄.rst = false ∧ p₄.linkClose = true ∧ p₄.gInit = false ∧ p₄.gEn = false) ∧
      ∀ p ∈ [p₁, p₂, p₃, p₄], ∃ s : State, s.script = .clock p :: [] :=
  ⟨{ recv 1 with rst := true, linkClose := true, gEn := true }, { recv 1 with linkClose := true, gInit := true },
    { recv 1 with linkClose := true, gEn := true }, { recv 1 with linkClose := true }, by decide, by decide, by decide,
    by decide, fun p _ => ⟨{ sLo with script := [.clock p] }, rfl⟩⟩

theorem witness_RxSelectionIsTheTable :
    (∃ v : View, v.rxState = .textBody ∧ v.rxCnt.toNat ≤ 1023 ∧ v.rxCnt = 1023#11) ∧
    (∃ v : View, v.rxState = .binaryPayload ∧ v.rxCnt.toNat ≤ v.rxLen.toNat + 1 ∧ v.rxCnt = 256#11) :=
  ⟨⟨(rxIn .textBody 0 1023 0 0 []).view, by decide⟩, ⟨(rxIn .binaryPayload 255 256 0 0 []).view, by decide⟩⟩

theorem witness_DecodeOfEncode :
    (Instr.txArg 0x05).wellFormed = true ∧ (Instr.txArg 0x05).enabledIn sTxLast.view = true ∧
    (Instr.rxTextTrunc 0xFF).wellFormed = true ∧
      (Instr.rxTextTrunc 0xFF).enabledIn (rxIn .textBody 0 1023 0 0 []).view = true := by decide

theorem witness_DecodedOperationsAreSelected :
    decode sText.view (.clock { recv 0x03 with gEn := true }) = .ok [.rxTextEnd, .idle .tx, .gUpdate 0] ∧
      Instr.rxTextEnd ∈ [Instr.rxTextEnd, .idle .tx, .gUpdate 0] := by decide

/-- One input for each of the three clauses. -/
theorem witness_StepRunsWhatIsDecoded :
    ({ sText with script := [.clock (recv 0x42)] }.script = .clock (recv 0x42) :: [] ∧
      decode sText.view (.clock (recv 0x42)) = .ok [.rxTextData 0x42, .idle .tx, .idle .g]) ∧
    ((Instr.rxTextData 0x42).wellFormed = true ∧ (Instr.rxTextData 0x42).enabledIn sText.view = true ∧
      { sText with script := [encode (.rxTextData 0x42)] }.script = encode (.rxTextData 0x42) :: []) ∧
    sText.script = [] := by decide

/-- An operation its row admits in a state of the invariant, and one it does not. -/
theorem witness_OperationsRunWhereSelected :
    sText.Inv ∧ ((Instr.rxTextEnd).wellFormed = true ∧ (Instr.rxTextEnd).enabledIn sText.view = true) ∧
      ¬((Instr.rxTextData 0x03).wellFormed = true ∧ (Instr.rxTextData 0x03).enabledIn sText.view = true) :=
  ⟨inv_sText, by decide, by decide⟩

theorem witness_NoInputStopsTheMachine : sLo.Inv := inv_sLo

/-- One state for each clause, at the edge of the range. -/
theorem witness_UnreachableRegistersStop :
    (∃ s : State, s.script = .clock (rxCycle 0x41#8) :: [] ∧ s.rx.state = .textBody ∧ (0x41#8 : Byte) ≠ 0x03#8 ∧
      1024 ≤ s.rx.cnt.toNat) ∧
    (∃ s : State, s.script = .clock (rxCycle 0x41#8) :: [] ∧ s.rx.state = .binaryPayload ∧
      s.rx.len.toNat + 1 < s.rx.cnt.toNat) ∧
    (∃ s : State, s.script = .clock (argCycle 0x41#8) :: [] ∧ s.tx.state = .args ∧ s.tx.rem = 0#8) ∧
    (∃ s : State, s.rx.state = .textBody ∧ 1024 < s.rx.cnt.toNat) :=
  ⟨⟨{ rxIn .textBody 0 1024 0xFFFF 0 [] with script := [.clock (rxCycle 0x41)] }, by decide⟩,
    ⟨{ rxIn .binaryPayload 3 5 0xFFFF 0 [] with script := [.clock (rxCycle 0x41)] }, by decide⟩,
    ⟨{ txIn .args 0 1 0 0xFFFF [] with script := [.clock (argCycle 0x41)] }, by decide⟩,
    ⟨rxIn .textBody 0 1025 0xFFFF 0 [], by decide⟩⟩

theorem witness_StepKeepsRxInvariant : sHi.rx.Inv ∧ ∃ t, step { sHi with script := [.clock (recv 0x90)] } = .next t :=
  ⟨inv_sHi.1, _, rfl⟩

theorem witness_StepKeepsTxInvariant :
    sTxArgs.tx.Inv sTxArgs.wire ∧ ∃ t, step { sTxArgs with script := [.clock (argument 5)] } = .next t :=
  ⟨inv_sTxArgs.2, _, rfl⟩

/-- A step with a decoder event, and one with the encoder's. -/
theorem witness_EmittedEventsAreInRange :
    (∃ s t : State, s.Inv ∧ step s = .next t ∧ t.out.ev = some (.frame 0x02 [0x05, 0x01] 3 0x9012)) ∧
    (∃ s t : State, s.Inv ∧ step s = .next t ∧ t.out.txEv = some (.encoderPayloadTooLong 255)) :=
  ⟨⟨{ sLo with script := [.clock (recv 0x12)] }, _, inv_sLo, rfl, by decide⟩,
    ⟨{ sIdle with script := [.clock (command 0x04 255)] }, _, inv_sIdle, rfl, by decide⟩⟩

theorem witness_AtMostOneEventPerStep : ∃ t, step { sText with script := [.clock (recv 0x03)] } = .next t := ⟨_, rfl⟩

/-- For the first clause a step with an event; for the second a step in mid-frame with one and a step without one. -/
theorem witness_EveryEventLeavesTheDecoderIdle :
    (∃ s t : State, s.script = .clock (recv 0x03) :: [] ∧ NoControl (recv 0x03) ∧ s.rx.state ≠ .awaitingMarker ∧
      step s = .next t ∧ t.out.ev ≠ none) ∧
    (∃ s t : State, s.script = .clock (recv 0x41) :: [] ∧ NoControl (recv 0x41) ∧ s.rx.state ≠ .awaitingMarker ∧
      step s = .next t ∧ t.out.ev = none) :=
  ⟨⟨{ sText with script := [.clock (recv 0x03)] }, _, rfl, ⟨rfl, rfl⟩, by decide, rfl, by decide⟩,
    ⟨{ sText with script := [.clock (recv 0x41)] }, _, rfl, ⟨rfl, rfl⟩, by decide, rfl, by decide⟩⟩

theorem witness_HandshakesFollowStateAndInputs :
    ∃ s t : State, s.script = .clock (argument 0x05) :: [] ∧ step s = .next t ∧ s.tx.state = .args :=
  ⟨{ sTxArgs with script := [.clock (argument 0x05)] }, _, rfl, rfl, rfl⟩

/-- For each agent, two states that agree on it and differ on the others, with inputs that do the same. -/
theorem witness_AgentsDoNotInterfere :
    ∃ (s s₁ s₂ s₃ : State) (p p₁ p₂ p₃ : InPins),
      (s.script = .clock p :: [] ∧ (∃ t, step s = .next t)) ∧
      (s₁.script = .clock p₁ :: [] ∧ (∃ t, step s₁ = .next t) ∧ s₁.rx = s.rx ∧ SameForRx p p₁ ∧ s₁.tx ≠ s.tx) ∧
      (s₂.script = .clock p₂ :: [] ∧ (∃ t, step s₂ = .next t) ∧ s₂.tx = s.tx ∧ SameForTx p p₂ ∧ s₂.rx ≠ s.rx) ∧
      (s₃.script = .clock p₃ :: [] ∧ (∃ t, step s₃ = .next t) ∧ s₃.gCrc = s.gCrc ∧ SameForG p p₃ ∧ s₃.rx ≠ s.rx) :=
  ⟨{ sText with script := [.clock (recv 0x03)] },
    { sText with tx := sTxLen.tx, script := [.clock { recv 0x03 with txOutReady := true }] },
    { sLo with script := [.clock { recv 0x12 with gEn := true }] },
    { sLo with script := [.clock { command 0x04 255 with gData := 9 }] },
    recv 0x03, { recv 0x03 with txOutReady := true }, { recv 0x12 with gEn := true }, { command 0x04 255 with gData := 9 },
    ⟨rfl, _, rfl⟩, ⟨rfl, ⟨_, rfl⟩, rfl, ⟨rfl, rfl, rfl, fun _ => rfl⟩, by decide⟩,
    ⟨rfl, ⟨_, rfl⟩, rfl, ⟨rfl, rfl, rfl, rfl, rfl, by decide, by decide⟩, by decide⟩,
    ⟨rfl, ⟨_, rfl⟩, rfl, ⟨rfl, rfl, rfl, by decide⟩, by decide⟩⟩

/-- Two text bodies that differ in a byte beyond the live part. -/
theorem witness_StaleBufferBytesAreNeverRead :
    ∃ s s' : State, s.Inv ∧ s'.Inv ∧ SameLive s.rx s'.rx ∧ s' = { s with rx := s'.rx } ∧ (∃ t, step s = .next t) ∧
      s'.rx ≠ s.rx :=
  ⟨{ sText with script := [.clock (recv 0x03)] },
    { rxIn .textBody 0 1 0xFFFF 0 [(0, 0x41), (7, 0x99)] with script := [.clock (recv 0x03)] }, inv_sText,
    ⟨⟨by decide, ⟨rfl, rfl, rfl⟩, by decide, by decide⟩, rfl⟩,
    ⟨rfl, rfl, rfl, rfl, rfl, by decide, by decide⟩, rfl, ⟨_, rfl⟩, by decide⟩

theorem witness_DecoderInvertsEncoder :
    ∃ (s : State) (bytes : List Byte), s.rx.Idle ∧ s.rx.buf.wf = true ∧ [0x05#8, 0x01#8].length ≤ 254 ∧
      encodeFrame 0x02#8 [0x05#8, 0x01#8] = .wire bytes ∧ s.script = feedBytes ([0xFF#8] ++ bytes) ++ [] :=
  ⟨{ sIdle with script := feedBytes ([0xFF#8] ++ wireBytes 0x02#8 [0x05#8, 0x01#8]) }, _, ⟨rfl, ⟨rfl, rfl, rfl⟩, rfl⟩,
    by decide, by decide, rfl, rfl⟩

theorem witness_WrongTrailerIsAlwaysCaught :
    ∃ s : State, s.rx.Idle ∧ [0x05#8, 0x01#8].length ≤ 254 ∧ 0x9013#16 ≠ crc16 (0x02#8 :: [0x05#8, 0x01#8]) ∧
      s.script = feedBytes (badFrameBytes 0x02#8 [0x05#8, 0x01#8] 0x9013#16) ++ [] :=
  ⟨{ sIdle with script := feedBytes (badFrameBytes 0x02#8 [0x05#8, 0x01#8] 0x9013#16) }, ⟨rfl, ⟨rfl, rfl, rfl⟩, rfl⟩,
    by decide, by decide +kernel, rfl⟩

/-- One text for each of the two clauses. -/
theorem witness_TextFramesResolveAtTheirLastByte :
    (∃ (s : State) (body : List Byte), s.rx.Idle ∧ s.rx.buf.wf = true ∧ 0x03#8 ∉ body ∧ body.length ≤ 1023 ∧
      s.script = feedBytes (textBytes body) ++ [] ∧ body = [0x41, 0xFF]) ∧
    (∃ (s : State) (body : List Byte), s.rx.Idle ∧ s.rx.buf.wf = true ∧ 0x03#8 ∉ body ∧ body.length = 1024 ∧
      s.script = feedBytes ([0x02#8] ++ body) ++ []) :=
  ⟨⟨{ sIdle with script := feedBytes (textBytes [0x41, 0xFF]) }, [0x41, 0xFF], ⟨rfl, ⟨rfl, rfl, rfl⟩, rfl⟩, by decide,
      by decide, by decide, rfl, rfl⟩,
    ⟨{ sIdle with script := feedBytes ([0x02#8] ++ List.replicate 1024 0x41#8) }, List.replicate 1024 0x41#8,
      ⟨rfl, ⟨rfl, rfl, rfl⟩, rfl⟩, by decide,
      by rw [List.mem_replicate]; decide, List.length_replicate, (List.append_nil _).symm⟩⟩

theorem witness_StepsAgreeWithWholeFrames :
    ∃ s : State, s.rx.Idle ∧ s.rx.buf.wf = true ∧ s.script = feedBytes [0x99, 0x02, 0x41, 0x03, 0xFF] ++ [] :=
  ⟨{ sIdle with script := feedBytes [0x99, 0x02, 0x41, 0x03, 0xFF] }, ⟨rfl, ⟨rfl, rfl, rfl⟩, rfl⟩, by decide, rfl⟩

/-- A state with bytes to come, and one with none. -/
theorem witness_DecoderResolvesInBoundedBytes :
    (∃ (s : State) (bytes : List Byte), s.rx.Inv ∧ bytes.length = resolveBound s.rx ∧
      s.script = feedBytes bytes ++ [] ∧ bytes = [0x90, 0x12]) ∧
    (∃ (s : State) (ps : List InPins), s.Inv ∧ s.script = ps.map .clock ++ [] ∧
      (∀ p ∈ ps, NoControl p ∧ p.rxValid = false) ∧ ps = [ready, InPins.quiet]) :=
  ⟨⟨{ sHi with script := feedBytes [0x90, 0x12] }, _, inv_sHi.1, rfl, rfl, rfl⟩,
    ⟨{ sHi with script := [ready, InPins.quiet].map .clock }, _, inv_sHi, rfl,
      by intro p hp; fin_cases hp <;> exact ⟨⟨rfl, rfl⟩, rfl⟩, rfl⟩⟩

/-- A stall, then the enabling cycle: the shape of every segment below. -/
theorem until_ready_after_stall : UntilReady [InPins.quiet, ready] :=
  ⟨[InPins.quiet], ready, rfl, by intro p hp; fin_cases hp; exact ⟨⟨rfl, rfl⟩, rfl⟩, ⟨rfl, rfl⟩, rfl, trivial⟩

theorem until_cmd_at_once (op : Byte) (l : U16) : UntilCmd op l [command op l] :=
  ⟨[], command op l, rfl, by simp, ⟨rfl, rfl⟩, rfl, rfl, rfl⟩

/-- An argument byte that first waits for the output. -/
theorem until_arg_after_stall (a : Byte) : UntilArg a [{ InPins.quiet with txArgValid := true, txArgData := a }, argument a] :=
  ⟨[{ InPins.quiet with txArgValid := true, txArgData := a }], argument a, rfl,
    by intro p hp; fin_cases hp; exact ⟨⟨rfl, rfl⟩, rfl⟩, ⟨rfl, rfl⟩, rfl, rfl⟩

/-- Argument bytes all alike, each with the same segment. -/
theorem forall_until_arg {a : Byte} {seg : List InPins} (h : UntilArg a seg) (n : Nat) :
    List.Forall₂ UntilArg (List.replicate n a) (List.replicate n seg) := by
  induction n with
  | zero => exact .nil
  | succ n ih => exact .cons h ih

/-- The longest command, 254 argument bytes, each taken after a stall. -/
theorem witness_EncoderStepsComputeEncode_longest :
    ∃ (s : State) (args bytes : List Byte) (cmd len opc hi lo : List InPins) (argSegs : List (List InPins)),
      s.Inv ∧ s.tx.state = .idle ∧ args.length ≤ 254 ∧ args.length = 254 ∧ encodeFrame 0x02#8 args = .wire bytes ∧
      UntilCmd 0x02#8 (BitVec.ofNat 16 args.length) cmd ∧ UntilReady len ∧ UntilReady opc ∧
      List.Forall₂ UntilArg args argSegs ∧ UntilReady hi ∧ UntilReady lo ∧
      s.script = (cmd ++ len ++ opc ++ argSegs.flatten ++ hi ++ lo).map .clock ++ [] := by
  have hlen : (List.replicate 254 (0x05 : Byte)).length = 254 := List.length_replicate
  exact ⟨{ sIdle with script := ([command 0x02 254] ++ [InPins.quiet, ready] ++ [InPins.quiet, ready] ++
          (List.replicate 254 [{ InPins.quiet with txArgValid := true, txArgData := 0x05 }, argument 0x05]).flatten ++
          [InPins.quiet, ready] ++ [InPins.quiet, ready]).map .clock },
    List.replicate 254 0x05, wireBytes 0x02 (List.replicate 254 0x05), [command 0x02 254], [InPins.quiet, ready],
    [InPins.quiet, ready], [InPins.quiet, ready], [InPins.quiet, ready], _, inv_sIdle, rfl, hlen.le, hlen,
    if_neg (by rw [block, List.length_cons, hlen]; decide), by rw [hlen]; exact until_cmd_at_once _ _,
    until_ready_after_stall, until_ready_after_stall, forall_until_arg (until_arg_after_stall 0x05) 254,
    until_ready_after_stall, until_ready_after_stall, (List.append_nil _).symm⟩

/-- A command of one argument with a stall before each byte, and an over-long command. -/
theorem witness_EncoderStepsComputeEncode :
    (∃ (s : State) (bytes : List Byte) (cmd len opc hi lo : List InPins) (argSegs : List (List InPins)),
      s.Inv ∧ s.tx.state = .idle ∧ [0x05#8].length ≤ 254 ∧ encodeFrame 0x02#8 [0x05#8] = .wire bytes ∧
      UntilCmd 0x02#8 (BitVec.ofNat 16 [0x05#8].length) cmd ∧ UntilReady len ∧ UntilReady opc ∧
      List.Forall₂ UntilArg [0x05#8] argSegs ∧ UntilReady hi ∧ UntilReady lo ∧
      s.script = (cmd ++ len ++ opc ++ argSegs.flatten ++ hi ++ lo).map .clock ++ []) ∧
    (∃ (s : State) (cmd : List InPins), s.Inv ∧ s.tx.state = .idle ∧ 254 < (255#16).toNat ∧ UntilCmd 0x02#8 255#16 cmd ∧
      s.script = cmd.map .clock ++ []) :=
  ⟨⟨{ sIdle with script := [command 0x02 1, InPins.quiet, ready, InPins.quiet, ready,
          { InPins.quiet with txArgValid := true, txArgData := 0x05 }, argument 0x05, InPins.quiet, ready, InPins.quiet,
          ready].map .clock }, _, [command 0x02 1], [InPins.quiet, ready], [InPins.quiet, ready],
      [InPins.quiet, ready], [InPins.quiet, ready],
      [[{ InPins.quiet with txArgValid := true, txArgData := 0x05 }, argument 0x05]],
      inv_sIdle, rfl, by decide, rfl, until_cmd_at_once _ _, until_ready_after_stall, until_ready_after_stall,
      .cons (until_arg_after_stall 0x05) .nil, until_ready_after_stall, until_ready_after_stall, rfl⟩,
    ⟨{ sIdle with script := [.clock (command 0x02 255)] }, _, inv_sIdle, rfl, by decide, until_cmd_at_once _ _, rfl⟩⟩

theorem witness_StallingHoldsTheByte :
    ∃ (s : State) (ps : List InPins), s.Inv ∧ s.tx.state ≠ .idle ∧ s.script = ps.map .clock ++ [] ∧
      (∀ p ∈ ps, NoControl p ∧ (p.txOutReady = true → s.tx.state = .args ∧ p.txArgValid = false)) ∧ ps ≠ [] ∧
      s.tx.state = .len :=
  ⟨{ sTxLen with script := [InPins.quiet, recv 0x99].map .clock }, [InPins.quiet, recv 0x99], inv_sTxLen, by decide, rfl,
    by intro p hp; fin_cases hp <;> exact ⟨⟨rfl, rfl⟩, by decide⟩, by simp, rfl⟩

end Sys2Proof.Tests
end

section
/-! PROOFS. The step in terms of decoding and `exec` (spec/30_encoding.md section 4): what a cycle selects where only one
agent has inputs, that `encode` of a selected operation decodes to that operation alone, and what running it alone does. -/

namespace Sys2Proof.Machine

/-! ### Selection with the inputs of one agent -/

/-- R185: without a command and without a ready output the encoder is idle in every state. -/
theorem selectTx_eq_idle {p : InPins} (v : View) (hcmd : p.txCmdValid = false) (hready : p.txOutReady = false) :
    selectTx v p = .ok (.idle .tx) := by
  unfold selectTx
  cases v.txState <;> simp [hcmd, hready]

/-- R152, R158: a command presented to the idle encoder is taken or rejected by its announced length. -/
theorem selectTx_cmdCycle {v : View} (op : Byte) (l : U16) (h : v.txState = .idle) :
    selectTx v (cmdCycle op l) =
      if l.toNat ≤ params.argsMax then .ok (.txCmd op l) else .ok (.txReject op l) := by
  simp only [selectTx, h]
  rfl

/-- A received byte alone: the decoder's operation, and the other agents idle. -/
theorem decodeClock_rxCycle {v : View} {b : Byte} {i : Instr} (h : selectRx v b = .ok i) :
    decodeClock v (rxCycle b) = .ok [i, .idle .tx, .idle .g] := by
  have hrx : selectRx v (rxCycle b).rxData = .ok i := h
  have htx : selectTx v (rxCycle b) = .ok (.idle .tx) := selectTx_eq_idle v rfl rfl
  simp only [decodeClock, htx, hrx]
  rfl

/-- Encoder inputs alone: the encoder's operation, and the other agents idle. -/
theorem decodeClock_tx {v : View} {p : InPins} {i : Instr} (hrst : p.rst = false) (hclose : p.linkClose = false)
    (hrx : p.rxValid = false) (hg : selectG p = none) (h : selectTx v p = .ok i) :
    decodeClock v p = .ok [.idle .rx, i, .idle .g] := by
  simp [decodeClock, hrst, hclose, hrx, hg, h]

/-- CRC port inputs alone: the port's operation, if any, and the other agents idle. -/
theorem decodeClock_g {p : InPins} (v : View) (hrst : p.rst = false) (hclose : p.linkClose = false)
    (hrx : p.rxValid = false) (hcmd : p.txCmdValid = false) (hready : p.txOutReady = false) :
    decodeClock v p = .ok [.idle .rx, .idle .tx, (selectG p).getD (.idle .g)] := by
  simp [decodeClock, hrst, hclose, hrx, selectTx_eq_idle v hcmd hready]

/-- R88: where the next byte is a frame's opcode, an opcode item is the row its byte names. -/
theorem decode_opcode {v : View} (b : Byte) (h : v.atOpcode = true) :
    decode v (.opcode b) = .ok [nameOpcode b, .idle .tx, .idle .g] := if_pos h

/-! ### Encoding, then decoding -/

/-- The item that `encode` gives for an operation decodes, in every state that selects it, to that operation and idle
agents. -/
theorem decode_encode {v : View} {i : Instr} (hw : i.wellFormed = true) (he : i.enabledIn v = true) :
    decode v (encode i) = .ok i.alone := by
  cases i with
  | crcStep _ _ | crc16 _ | encode _ _ | sysReset | sysClose => rfl
  | gInit | gUpdate _ | idle _ => exact decodeClock_g v rfl rfl rfl rfl rfl
  | rxMarkText | rxMarkBin | rxMarkBad _ =>
    exact decodeClock_rxCycle (by simp_all [selectRx, Instr.enabledIn, Instr.wellFormed])
  | rxTextData _ | rxTextEnd | rxTextTrunc _ =>
    exact decodeClock_rxCycle (by simp_all [selectRx, Instr.enabledIn, Instr.wellFormed])
  | rxLen _ | rxBinData _ | rxBinCrcHi _ | rxBinCrcLo _ =>
    exact decodeClock_rxCycle (by simp_all [selectRx, Instr.enabledIn])
  | txCmd _ _ =>
    exact decodeClock_tx rfl rfl rfl rfl
      ((selectTx_cmdCycle _ _ (eq_of_beq he)).trans (if_pos (of_decide_eq_true hw)))
  | txReject _ _ =>
    exact decodeClock_tx rfl rfl rfl rfl
      ((selectTx_cmdCycle _ _ (eq_of_beq he)).trans (if_neg (Nat.not_le.mpr (of_decide_eq_true hw))))
  | txLen | txOpcode | txCrcHi | txCrcLo =>
    exact decodeClock_tx rfl rfl rfl rfl (by simp_all [selectTx, readyCycle, Instr.enabledIn])
  | txArg _ => exact decodeClock_tx rfl rfl rfl rfl (by simp_all [selectTx, argCycle, Instr.enabledIn])
  | frameGetStatus | frameStart | frameDelete | frameSendData | frameReceiveError | frameDataFromTask =>
    exact decode_opcode _ he

/-! ### Running one operation alone -/

/-- Idle agents change nothing. -/
theorem runOps_map_idle (agents : List Agent) (s : State) : runOps (agents.map .idle) s = .next s := by
  induction agents with
  | nil => rfl
  | cons a agents ih => exact (runOps_idle a _ s).trans ih

/-- An operation with only idle agents after it is its `exec`. -/
theorem runOps_cons_map_idle (i : Instr) (agents : List Agent) (s : State) :
    runOps (i :: agents.map .idle) s = exec i s := by
  rw [runOps_cons]
  cases exec i s with
  | next t => exact runOps_map_idle agents t
  | fault r | refused r => rfl

/-- What a cycle that is there for one operation runs is `exec` of that operation. -/
theorem runOps_alone (i : Instr) (s : State) : runOps i.alone s = exec i s := by
  cases i with
  | crcStep _ _ | crc16 _ | encode _ _ | sysReset | sysClose => exact runOps_cons_map_idle _ [] s
  | rxMarkText | rxMarkBin | rxMarkBad _ | rxTextData _ | rxTextEnd | rxTextTrunc _ | rxLen _ | rxBinData _
  | rxBinCrcHi _ | rxBinCrcLo _ => exact runOps_cons_map_idle _ [.tx, .g] s
  | txCmd _ _ | txReject _ _ | txLen | txOpcode | txArg _ | txCrcHi | txCrcLo =>
    exact (runOps_idle .rx _ s).trans (runOps_cons_map_idle _ [.g] s)
  | gInit | gUpdate _ =>
    exact (runOps_idle .rx _ s).trans ((runOps_idle .tx _ s).trans (runOps_cons_map_idle _ [] s))
  | idle _ => exact runOps_map_idle [.rx, .tx, .g] s
  | frameGetStatus | frameStart | frameDelete | frameSendData | frameReceiveError | frameDataFromTask =>
    exact runOps_cons_map_idle _ [.tx, .g] s

/-! ### The step -/

/-- A step with an item queued runs the operations that the item selects. -/
theorem step_of_decode {s : State} {item : Item} {rest : List Item} {ops : List Instr} (hs : s.script = item :: rest)
    (hdec : decode s.view item = .ok ops) : step s = runOps ops (beginCycle item rest s) := by
  rw [step_cons hs, cycle, hdec]

/-- A step with the item of one selected operation queued is `exec` of that operation. -/
theorem step_of_encode {s : State} {i : Instr} {rest : List Item} (hw : i.wellFormed = true)
    (he : i.enabledIn s.view = true) (hs : s.script = encode i :: rest) :
    step s = exec i (beginCycle (encode i) rest s) :=
  (step_of_decode hs (decode_encode hw he)).trans (runOps_alone i _)

/-- A step with nothing queued is a cycle of idle agents: it sets the output ports and changes nothing else. -/
theorem step_of_script_nil {s : State} (hs : s.script = []) :
    step s = .next { s with out := cycleOutputs s.tx InPins.quiet } := by
  have hdec : decode s.view (.clock InPins.quiet) = .ok [.idle .rx, .idle .tx, .idle .g] :=
    decodeClock_g s.view rfl rfl rfl rfl rfl
  calc step s
    _ = cycle (.clock InPins.quiet) [] s := step_nil hs
    _ = .next (beginCycle (.clock InPins.quiet) [] s) := by
      rw [cycle, hdec]
      exact runOps_map_idle [.rx, .tx, .g] _
    _ = .next { s with out := cycleOutputs s.tx InPins.quiet } := by rw [beginCycle, itemPins, ← hs]

/-- Settles O41: `cycle` runs what is decoded, `encode` of a selected operation decodes to that operation among idle
agents, and a quiet cycle decodes to idle agents only. -/
theorem stepRunsWhatIsDecoded : Obligations.StepRunsWhatIsDecoded :=
  ⟨fun _ _ _ _ hs hdec => step_of_decode hs hdec, fun _ _ _ hw he hs => step_of_encode hw he hs,
    fun _ hs => step_of_script_nil hs⟩

end Sys2Proof.Machine
end

section
/-! PROOFS. The whole state after a step, for every item and all control inputs, as one function of the state before it:
each agent's part is a function of that agent's registers and the cycle's inputs (spec/20_memory.md R61). The statements
about every step are then statements about these functions. -/

namespace Sys2Proof.Machine

/-! ### Each agent in any cycle, control cycles included -/

/-- The decoder in any cycle: cleared by `rst` and `link_close` (R180, R181), else its step. -/
def rxCycleNext (r : RxRegs) (p : InPins) : RxRegs × Option RxEvent :=
  if p.rst || p.linkClose then (r.clear, none) else rxCycleStep r p

/-- The encoder in any cycle: its registers, the bytes transferred, its event. -/
def txCycleNext (x : TxRegs) (p : InPins) : TxRegs × List Byte × Option TxEvent :=
  if p.rst || p.linkClose then (TxRegs.cleared, [], none) else txCycleStep x p

/-- The CRC port in any cycle: `link_close` does not reach it (R181). -/
def gCycleNext (g : U16) (p : InPins) : U16 :=
  if p.rst then params.crcInit else gCycleStep g p

theorem rxCycleNext_control {p : InPins} (r : RxRegs) (h : (p.rst || p.linkClose) = true) :
    rxCycleNext r p = (r.clear, none) := if_pos h

theorem rxCycleNext_data {p : InPins} (r : RxRegs) (h : NoControl p) : rxCycleNext r p = rxCycleStep r p :=
  if_neg (by simp [h.1, h.2])

theorem txCycleNext_control {p : InPins} (x : TxRegs) (h : (p.rst || p.linkClose) = true) :
    txCycleNext x p = (TxRegs.cleared, [], none) := if_pos h

theorem txCycleNext_data {p : InPins} (x : TxRegs) (h : NoControl p) : txCycleNext x p = txCycleStep x p :=
  if_neg (by simp [h.1, h.2])

/-- A cycle either has a control input or has none. -/
theorem control_or_noControl (p : InPins) : (p.rst || p.linkClose) = true ∨ NoControl p := by
  cases hr : p.rst <;> cases hc : p.linkClose <;> simp [NoControl, hr, hc]

/-- A cycle in which nothing is presented moves no agent (R185). -/
theorem rxCycleNext_quiet (r : RxRegs) : rxCycleNext r InPins.quiet = (r, none) := rfl

theorem txCycleNext_quiet (x : TxRegs) : txCycleNext x InPins.quiet = (x, [], none) := by
  rw [txCycleNext_data x ⟨rfl, rfl⟩, txCycleStep]
  cases x.state <;> rfl

theorem gCycleNext_quiet (g : U16) : gCycleNext g InPins.quiet = g := rfl

/-! ### The state after a cycle -/

/-- The result that a function row leaves on the model's result port (log entry 10). -/
def itemResult : Item → Option FnResult
  | .clock _ => none
  | .crcStep c b => some (.u16 (crcStep c b))
  | .crc16 bytes => some (.u16 (crc16 bytes))
  | .encode op args => some (encodeFrame op args)
  | .opcode _ => none

/-- The state at the end of a cycle with a given item. -/
def State.afterCycle (s : State) (item : Item) (rest : List Item) : State where
  rx := (rxCycleNext s.rx (itemPins item)).1
  tx := (txCycleNext s.tx (itemPins item)).1
  gCrc := gCycleNext s.gCrc (itemPins item)
  out :=
    { cycleOutputs s.tx (itemPins item) with
      ev := (rxCycleNext s.rx (itemPins item)).2
      txEv := (txCycleNext s.tx (itemPins item)).2.2
      fn := itemResult item }
  events := s.events ++ (rxCycleNext s.rx (itemPins item)).2.toList
  txEvents := s.txEvents ++ (txCycleNext s.tx (itemPins item)).2.2.toList
  wire := s.wire ++ (txCycleNext s.tx (itemPins item)).2.1
  script := rest

/-- The state after a step: the cycle of the next item. -/
def State.afterStep (s : State) : State := s.afterCycle (fetchItem s).1 (fetchItem s).2

theorem afterStep_of_script {s : State} {item : Item} {rest : List Item} (h : s.script = item :: rest) :
    s.afterStep = s.afterCycle item rest := by
  rw [State.afterStep, fetchItem_cons h]

/-- The state after a cycle of a function row: the row's result is all that the cycle leaves. -/
theorem afterCycle_of_quiet {s : State} {item : Item} {rest : List Item} {r : FnResult}
    (hp : itemPins item = InPins.quiet) (hr : itemResult item = some r) :
    s.afterCycle item rest = (beginCycle item rest s).setFn r := by
  simp [State.afterCycle, hp, hr, rxCycleNext_quiet, txCycleNext_quiet, gCycleNext_quiet, State.setFn, beginCycle,
    cycleOutputs]

/-! ### The cycle answers that state -/

/-- A cycle is the step of a state that has the item queued. -/
theorem cycle_eq_step (item : Item) (rest : List Item) (s : State) :
    cycle item rest s = step { s with script := item :: rest } := rfl

theorem toNat_ne_zero_of_ne_zero {b : Byte} (h : b ≠ 0) : b.toNat ≠ 0 := fun h0 => h (BitVec.eq_of_toNat_eq h0)

/-- The opcode position is a position in the block. -/
theorem cnt_lt_len_of_atOpcode {s : State} (h : s.view.atOpcode = true) :
    s.rx.state = .binaryPayload ∧ s.rx.cnt.toNat < s.rx.len.toNat := by
  obtain ⟨hstate, hcnt, hlen⟩ := View.atOpcode_eq_true h
  refine ⟨hstate, ?_⟩
  rw [hcnt]
  exact Nat.pos_of_ne_zero (toNat_ne_zero_of_ne_zero hlen)

/-- A row of R88's list does what the block byte it names does (R84 (b)). -/
theorem exec_nameOpcode {s : State} (b : Byte) (h : s.view.atOpcode = true) :
    exec (nameOpcode b) s = exec (.rxBinData b) s := by
  obtain ⟨hstate, hcnt⟩ := cnt_lt_len_of_atOpcode h
  have hsel : (Instr.rxBinData b).enabledIn s.view = true := by simpa [Instr.enabledIn, hstate] using hcnt
  have hdata : exec (.rxBinData b) s = acceptBlockByte b s := whenSelected_of_enabled rfl hsel
  rw [hdata]
  unfold nameOpcode
  split
  · next hb => exact hb ▸ whenSelected_of_enabled (i := .frameGetStatus) rfl h
  split
  · next hb => exact hb ▸ whenSelected_of_enabled (i := .frameStart) rfl h
  split
  · next hb => exact hb ▸ whenSelected_of_enabled (i := .frameDelete) rfl h
  split
  · next hb => exact hb ▸ whenSelected_of_enabled (i := .frameSendData) rfl h
  split
  · next hb => exact hb ▸ whenSelected_of_enabled (i := .frameDataFromTask) rfl h
  split
  · next hb => exact hb ▸ whenSelected_of_enabled (i := .frameReceiveError) rfl h
  · exact hdata

/-- Where the next byte is a frame's opcode, the decoder takes a received byte as a block byte (R80). -/
theorem selectRx_of_atOpcode {s : State} (b : Byte) (h : s.view.atOpcode = true) :
    selectRx s.view b = .ok (.rxBinData b) := by
  obtain ⟨hstate, hcnt⟩ := cnt_lt_len_of_atOpcode h
  simp only [selectRx, hstate]
  exact if_pos hcnt

/-- A byte named as an opcode is a received byte like any other, whatever the position (log entry 12). -/
theorem cycle_opcode (b : Byte) (rest : List Item) (s : State) :
    cycle (.opcode b) rest s = cycle (.clock (rxCycle b)) rest s := by
  by_cases h : s.view.atOpcode = true
  · have hclock : decode s.view (.clock (rxCycle b)) = .ok [.rxBinData b, .idle .tx, .idle .g] :=
      decodeClock_rxCycle (selectRx_of_atOpcode b h)
    have hexec := exec_nameOpcode (s := beginCycle (.opcode b) rest s) b h
    rw [cycle, cycle, decode_opcode b h, hclock]
    exact (runOps_cons_map_idle _ [.tx, .g] _).trans (hexec.trans (runOps_cons_map_idle _ [.tx, .g] _).symm)
  · have hdec : decode s.view (.opcode b) = decode s.view (.clock (rxCycle b)) := if_neg h
    rw [cycle, cycle, hdec]
    rfl

/-- The state after a cycle of port values, when it answers. -/
theorem cycle_clock_next {p : InPins} {rest : List Item} {s t : State} (h : cycle (.clock p) rest s = .next t) :
    t = s.afterCycle (.clock p) rest := by
  rw [cycle_eq_step] at h
  cases hr : p.rst with
  | true =>
    rw [step_rst rfl hr] at h
    cases h
    simp [State.afterCycle, rxCycleNext, txCycleNext, gCycleNext, itemPins, itemResult, hr, State.rxClear, State.txClear,
      State.setRx, State.setTx, State.setG, beginCycle, cycleOutputs]
  | false =>
    cases hc : p.linkClose with
    | true =>
      rw [step_close rfl hr hc] at h
      cases h
      simp [State.afterCycle, rxCycleNext, txCycleNext, gCycleNext, itemPins, itemResult, hr, hc, State.rxClear,
        State.txClear, State.setRx, State.setTx, State.setG, beginCycle, cycleOutputs]
    | false =>
      cases step_data rfl hr hc h
      simp [State.afterCycle, rxCycleNext, txCycleNext, gCycleNext, itemPins, itemResult, hr, hc, State.afterData,
        State.putRx, State.putTx, State.setG, beginCycle, cycleOutputs]

/-- A cycle that answers leaves the state that `afterCycle` says. -/
theorem cycle_next_eq {item : Item} {rest : List Item} {s t : State} (h : cycle item rest s = .next t) :
    t = s.afterCycle item rest := by
  cases item with
  | clock p => exact cycle_clock_next h
  | opcode b =>
    rw [cycle_opcode] at h
    exact cycle_clock_next h
  | crcStep c b | crc16 bytes | encode op args =>
    cases h
    exact (afterCycle_of_quiet rfl rfl).symm

/-- A step that answers leaves the state that `afterStep` says. -/
theorem step_next_eq {s t : State} (h : step s = .next t) : t = s.afterStep := cycle_next_eq h

/-! ### From the invariant the cycle answers -/

theorem RxRegs.Inv.textBody {r : RxRegs} (h : r.Inv) (hs : r.state = .textBody) :
    r.noFrame ∧ r.cnt.toNat ≤ 1023 ∧ params.textEnd ∉ r.buf.slice 0 r.cnt.toNat := by
  simpa only [hs] using h.2

theorem RxRegs.Inv.binaryPayload {r : RxRegs} (h : r.Inv) (hs : r.state = .binaryPayload) :
    r.cnt.toNat ≤ r.len.toNat + 1 ∧ r.crc = crc16 (r.buf.slice 0 (min r.cnt.toNat r.len.toNat)) ∧
    (r.cnt.toNat ≠ r.len.toNat + 1 → r.trailHi = 0) := by
  simpa only [hs] using h.2

theorem TxRegs.Inv.args {x : TxRegs} {wire : List Byte} (h : x.Inv wire) (hs : x.state = .args) :
    1 ≤ x.rem.toNat ∧ x.rem.toNat ≤ 254 ∧
    ∃ a : List Byte, a.length + x.rem.toNat + 1 = x.n.toNat ∧ x.crc = crc16 (x.op :: a) ∧
      (x.n :: x.op :: a) <:+ wire := by
  simpa only [TxRegs.Inv, hs] using h

/-- R29 (b): the text counter's range, which R80's rows for text need. -/
theorem RxRegs.Inv.cnt_le_of_textBody {r : RxRegs} (h : r.Inv) (hs : r.state = .textBody) : r.cnt.toNat ≤ 1023 := by
  obtain ⟨-, hcnt, -⟩ := h.textBody hs
  exact hcnt

/-- R29 (d): the block counter's range, which R80's rows for a frame need. -/
theorem RxRegs.Inv.cnt_le_of_binaryPayload {r : RxRegs} (h : r.Inv) (hs : r.state = .binaryPayload) :
    r.cnt.toNat ≤ r.len.toNat + 1 := by
  obtain ⟨hcnt, -⟩ := h.binaryPayload hs
  exact hcnt

/-- R45 (c): there is an argument byte to go in `TxArgs`. -/
theorem TxRegs.Inv.rem_ne_zero {x : TxRegs} {wire : List Byte} (h : x.Inv wire) (hs : x.state = .args) : x.rem ≠ 0 := by
  obtain ⟨hpos, -⟩ := h.args hs
  intro hrem
  rw [hrem] at hpos
  exact absurd hpos (by decide)

/-- From a state of the invariant a cycle of port values answers (R120, R211). -/
theorem cycle_clock_of_inv {s : State} (hs : s.Inv) (p : InPins) (rest : List Item) :
    cycle (.clock p) rest s = .next (s.afterCycle (.clock p) rest) := by
  obtain ⟨hrx, htx⟩ := hs
  have answers : ∃ t, cycle (.clock p) rest s = .next t := by
    rw [cycle_eq_step]
    cases hr : p.rst with
    | true => exact ⟨_, step_rst rfl hr⟩
    | false =>
      cases hc : p.linkClose with
      | true => exact ⟨_, step_close rfl hr hc⟩
      | false =>
        exact ⟨_, step_data_of_view rfl hr hc hrx.cnt_le_of_textBody hrx.cnt_le_of_binaryPayload htx.rem_ne_zero⟩
  obtain ⟨t, ht⟩ := answers
  rw [ht, cycle_clock_next ht]

/-- From a state of the invariant every cycle answers. -/
theorem cycle_of_inv {s : State} (hs : s.Inv) (item : Item) (rest : List Item) :
    cycle item rest s = .next (s.afterCycle item rest) := by
  cases item with
  | clock p => exact cycle_clock_of_inv hs p rest
  | opcode b => exact (cycle_opcode b rest s).trans (cycle_clock_of_inv hs (rxCycle b) rest)
  | crcStep c b | crc16 bytes | encode op args => rw [afterCycle_of_quiet rfl rfl]; rfl

/-- From a state of the invariant every step answers. -/
theorem step_of_inv {s : State} (hs : s.Inv) : step s = .next s.afterStep := cycle_of_inv hs _ _

end Sys2Proof.Machine
end

section
/-! PROOFS. R29: the decoder's invariant is kept by every step (spec/10_state.md). -/

namespace Sys2Proof.Machine

/-- R103: the checksum of a sequence with one byte more is one step further. -/
theorem crc16_append_singleton (bytes : List Byte) (b : Byte) : crc16 (bytes ++ [b]) = crcStep (crc16 bytes) b :=
  List.foldl_concat ..

/-- Below its largest value the received-byte counter counts up without wrapping (R136). -/
theorem cnt_add_one_toNat {c : Cnt} (h : c.toNat < 2047) : (c + 1).toNat = c.toNat + 1 := by
  bv_omega

/-- R29 (a): `rx_clear()` leads into the invariant from any registers with a canonical buffer. -/
theorem RxRegs.clear_inv {r : RxRegs} (h : r.buf.wf = true) : r.clear.Inv := ⟨h, ⟨rfl, rfl, rfl⟩, rfl⟩

/-- R29 (b): a text byte that is not the terminator keeps the invariant. -/
theorem RxRegs.textData_inv {r : RxRegs} {b : Byte} (h : r.Inv) (hs : r.state = .textBody) (hb : b ≠ params.textEnd)
    (hc : r.cnt.toNat + 1 < 1024) :
    RxRegs.Inv { r with buf := r.buf.write r.cnt.toNat b, cnt := r.cnt + 1 } := by
  obtain ⟨hframe, -, htext⟩ := h.textBody hs
  have hcnt : (r.cnt + 1).toNat = r.cnt.toNat + 1 := cnt_add_one_toNat (by omega)
  have hslice : (r.buf.write r.cnt.toNat b).slice 0 (r.cnt.toNat + 1) = r.buf.slice 0 r.cnt.toNat ++ [b] := by
    simpa using Buf.slice_write_succ h.1 0 r.cnt.toNat b
  refine ⟨Buf.write_wf h.1 (by simp only; omega) b, ?_⟩
  simp only [hs, hcnt, hslice]
  exact ⟨hframe, by omega, List.not_mem_append htext fun hmem => hb (List.mem_singleton.mp hmem).symm⟩

/-- R29 (d): a block byte keeps the invariant; the checksum takes it in as the buffer does. -/
theorem RxRegs.binData_inv {r : RxRegs} {b : Byte} (h : r.Inv) (hs : r.state = .binaryPayload)
    (hc : r.cnt.toNat < r.len.toNat) :
    RxRegs.Inv { r with buf := r.buf.write r.cnt.toNat b, crc := crcStep r.crc b, cnt := r.cnt + 1 } := by
  obtain ⟨-, hcrc, htrail⟩ := h.binaryPayload hs
  have hlen := r.len.isLt
  have hcnt : (r.cnt + 1).toNat = r.cnt.toNat + 1 := cnt_add_one_toNat (by omega)
  have hslice : (r.buf.write r.cnt.toNat b).slice 0 (r.cnt.toNat + 1) = r.buf.slice 0 r.cnt.toNat ++ [b] := by
    simpa using Buf.slice_write_succ h.1 0 r.cnt.toNat b
  rw [Nat.min_eq_left hc.le] at hcrc
  refine ⟨Buf.write_wf h.1 (by simp only; omega) b, ?_⟩
  simp only [hs, hcnt, Nat.min_eq_left (Nat.succ_le_of_lt hc), hslice, crc16_append_singleton, ← hcrc]
  exact ⟨by omega, trivial, fun _ => htrail (by omega)⟩

/-- R29 (d): the trailer's high byte keeps the invariant; the block is not touched. -/
theorem RxRegs.binCrcHi_inv {r : RxRegs} {b : Byte} (h : r.Inv) (hs : r.state = .binaryPayload)
    (hc : r.cnt.toNat = r.len.toNat) : RxRegs.Inv { r with trailHi := b, cnt := r.cnt + 1 } := by
  obtain ⟨-, hcrc, -⟩ := h.binaryPayload hs
  have hlen := r.len.isLt
  have hcnt : (r.cnt + 1).toNat = r.len.toNat + 1 := by rw [cnt_add_one_toNat (by omega), hc]
  rw [hc, Nat.min_self] at hcrc
  refine ⟨h.1, ?_⟩
  simp only [hs, hcnt, Nat.min_eq_right (Nat.le_succ _)]
  exact ⟨le_rfl, hcrc, fun hne => absurd rfl hne⟩

/-- R29: a received byte keeps the decoder's invariant. -/
theorem rxStep_inv {r : RxRegs} (h : r.Inv) (b : Byte) : (rxStep r b).1.Inv := by
  have hwf : r.buf.wf = true := h.1
  obtain ⟨st, len, cnt, crc, trailHi, buf⟩ := r
  cases st <;> simp only [rxStep]
  case awaitingMarker =>
    obtain ⟨-, hframe, -⟩ := h
    split
    · exact ⟨hwf, hframe, Nat.zero_le _, List.not_mem_nil⟩
    split
    · exact ⟨hwf, hframe, rfl⟩
    · exact RxRegs.clear_inv hwf
  case textBody =>
    split
    · exact RxRegs.clear_inv hwf
    · next hb =>
      split
      · next hc => exact RxRegs.textData_inv h rfl hb hc
      split
      · exact ⟨Buf.write_wf hwf (by simp only; omega) b, ⟨rfl, rfl, rfl⟩, rfl⟩
      · exact h
  case binaryLength => exact ⟨hwf, Nat.zero_le _, rfl, fun _ => rfl⟩
  case binaryPayload =>
    split
    · next hc => exact RxRegs.binData_inv h rfl hc
    split
    · next hc => exact RxRegs.binCrcHi_inv h rfl hc
    split
    · exact RxRegs.clear_inv hwf
    · exact h

/-- R29: every cycle keeps the decoder's invariant. -/
theorem rxCycleNext_inv {r : RxRegs} (h : r.Inv) (p : InPins) : (rxCycleNext r p).1.Inv := by
  rcases control_or_noControl p with hp | hp
  · rw [rxCycleNext_control r hp]
    exact RxRegs.clear_inv h.1
  · rw [rxCycleNext_data r hp, rxCycleStep]
    split
    · exact rxStep_inv h p.rxData
    · exact h

/-- Settles O46: the decoder's part of a step is `rxCycleNext`, which keeps R29 row by row. -/
theorem stepKeepsRxInvariant : Obligations.StepKeepsRxInvariant := by
  intro s t hs ht
  rw [step_next_eq ht]
  exact rxCycleNext_inv hs _

end Sys2Proof.Machine
end

section
/-! PROOFS. R45: the encoder's invariant is kept by every step (spec/10_state.md). -/

namespace Sys2Proof.Machine

/-- A byte sent after the bytes a stream ends with: the stream ends with all of them. -/
theorem suffix_append_singleton {sent wire : List Byte} (h : sent <:+ wire) (b : Byte) :
    sent ++ [b] <:+ wire ++ [b] := by
  obtain ⟨before, rfl⟩ := h
  exact ⟨before, (List.append_assoc ..).symm⟩

/-- R45 (c), (d): with the opcode and the argument bytes `a` sent and `rem` to go, the encoder is in the invariant in the
state that R154 and R155 choose by `rem`. -/
theorem TxRegs.inv_of_sent {op n rem : Byte} {a wire : List Byte} (hlen : a.length + rem.toNat + 1 = n.toNat)
    (hwire : n :: op :: a <:+ wire) :
    TxRegs.Inv
      { state := if argsDone rem then .crcHi else .args, op := op, n := n, rem := rem, crc := crc16 (op :: a) } wire := by
  have hn := n.isLt
  by_cases hr : rem = 0
  · rw [if_pos (by simp [argsDone, hr])]
    rw [hr] at hlen
    exact ⟨hr, a, hlen, rfl, hwire⟩
  · have hpos := toNat_ne_zero_of_ne_zero hr
    rw [if_neg (by simpa [argsDone] using hr)]
    exact ⟨Nat.pos_of_ne_zero hpos, by simp only; omega, a, hlen, rfl, hwire⟩

/-- R45 (b): a command within the limit is loaded into the invariant; `L + 1` fits 8 bits (R160). -/
theorem TxRegs.cmd_inv {l : U16} (hl : l.toNat ≤ params.argsMax) (op : Byte) (wire : List Byte) :
    TxRegs.Inv
      { state := .len, op := op, n := BitVec.ofNat 8 (l.toNat + 1), rem := BitVec.ofNat 8 l.toNat, crc := params.crcInit }
      wire := by
  simp only at hl
  refine ⟨?_, rfl⟩
  simp only [BitVec.toNat_ofNat]
  omega

/-- R45: a cycle without control inputs keeps the encoder's invariant, with the bytes it sends added to the stream. -/
theorem txCycleStep_inv {x : TxRegs} {wire : List Byte} (h : x.Inv wire) (p : InPins) :
    (txCycleStep x p).1.Inv (wire ++ (txCycleStep x p).2.1) := by
  have stall : x.Inv (wire ++ []) := by rwa [List.append_nil]
  obtain ⟨st, op, n, rem, crc⟩ := x
  cases st <;> simp only [txCycleStep]
  case idle =>
    split
    · split
      · next hl => exact TxRegs.cmd_inv hl _ _
      · exact stall
    · exact stall
  case len =>
    split
    · obtain ⟨hn, hcrc⟩ := h
      exact ⟨hn, hcrc, List.suffix_append _ _⟩
    · exact stall
  case opcode =>
    split
    · obtain ⟨hn, rfl, hwire⟩ := h
      exact TxRegs.inv_of_sent (a := []) (by simp only at hn; simp [hn]) (suffix_append_singleton hwire op)
    · exact stall
  case args =>
    split
    · obtain ⟨hpos, -, a, hlen, hcrc, hwire⟩ := h
      simp only at hpos hlen hcrc hwire
      have hrem : (rem - 1).toNat = rem.toNat - 1 := by bv_omega
      simp only [hcrc, ← crc16_append_singleton, List.cons_append]
      refine TxRegs.inv_of_sent ?_ (suffix_append_singleton hwire p.txArgData)
      rw [List.length_append, List.length_singleton]
      omega
    · exact stall
  case crcHi =>
    split
    · obtain ⟨hrem, a, hlen, hcrc, hwire⟩ := h
      exact ⟨hrem, a, hlen, hcrc, suffix_append_singleton hwire (hi8 crc)⟩
    · exact stall
  case crcLo =>
    split
    · exact rfl
    · exact stall

/-- R45: every cycle keeps the encoder's invariant. -/
theorem txCycleNext_inv {x : TxRegs} {wire : List Byte} (h : x.Inv wire) (p : InPins) :
    (txCycleNext x p).1.Inv (wire ++ (txCycleNext x p).2.1) := by
  rcases control_or_noControl p with hp | hp
  · rw [txCycleNext_control x hp]
    exact rfl
  · rw [txCycleNext_data x hp]
    exact txCycleStep_inv h p

/-- Settles O47: the encoder's part of a step is `txCycleNext`, which keeps R45 state by state. -/
theorem stepKeepsTxInvariant : Obligations.StepKeepsTxInvariant := by
  intro s t hs ht
  rw [step_next_eq ht]
  exact txCycleNext_inv hs _

/-- Settles O45: the registers of R44 are the idle values of R29 (a) and R45 (a), and an empty buffer is canonical. -/
theorem resetSatisfiesTheInvariant : Obligations.ResetSatisfiesTheInvariant :=
  ⟨⟨reset_buf_wf, ⟨rfl, rfl, rfl⟩, rfl⟩, rfl⟩

end Sys2Proof.Machine
end

section
/-! PROOFS. The output ports and the streams after a step (spec/10_state.md R33, R36, R37). -/

namespace Sys2Proof.Machine

/-- Settles O49: an agent's part of a cycle has at most one event, and the port and the stream get the same. -/
theorem atMostOneEventPerStep : Obligations.AtMostOneEventPerStep := by
  intro s t ht
  rw [step_next_eq ht]
  exact ⟨rfl, rfl⟩

/-- R36, R183: a command is awaited exactly in `TxIdle`, and in no control cycle. -/
theorem txCmdReady_iff {x : TxRegs} {p : InPins} :
    txCmdReady x p = true ↔ x.state = .idle ∧ p.rst = false ∧ p.linkClose = false := by
  simp only [txCmdReady, Bool.and_eq_true, Bool.not_eq_true', beq_iff_eq]
  tauto

/-- R36, R183: an argument byte is taken exactly in `TxArgs` with the output ready, and in no control cycle. -/
theorem txArgReady_iff {x : TxRegs} {p : InPins} :
    txArgReady x p = true ↔ x.state = .args ∧ p.txOutReady = true ∧ p.rst = false ∧ p.linkClose = false := by
  simp only [txArgReady, Bool.and_eq_true, Bool.not_eq_true', beq_iff_eq]
  tauto

theorem txOffer_control {p : InPins} (x : TxRegs) (h : (p.rst || p.linkClose) = true) : txOffer x p = none := if_pos h

/-- R36, R162: a byte is offered exactly in a working state, in `TxArgs` only with an argument byte, and in no control
cycle. -/
theorem txOffer_ne_none_iff {x : TxRegs} {p : InPins} :
    txOffer x p ≠ none ↔ NoControl p ∧ x.state ≠ .idle ∧ (x.state = .args → p.txArgValid = true) := by
  rcases control_or_noControl p with hp | hp
  · have hnot : ¬NoControl p := fun h => by simp [h.1, h.2] at hp
    simp [txOffer_control x hp, hnot]
  · have hp' : ¬(p.rst || p.linkClose) = true := by simp [hp.1, hp.2]
    rw [txOffer, if_neg hp']
    cases x.state <;> simp [hp]

/-- R36: what a cycle transfers is the byte offered, exactly when the output is ready. -/
theorem txCycleNext_sent (x : TxRegs) (p : InPins) :
    (txCycleNext x p).2.1 = if p.txOutReady = true then (txOffer x p).toList else [] := by
  rcases control_or_noControl p with hp | hp
  · simp [txCycleNext_control x hp, txOffer_control x hp]
  · have hp' : ¬(p.rst || p.linkClose) = true := by simp [hp.1, hp.2]
    rw [txCycleNext_data x hp, txCycleStep, txOffer, if_neg hp']
    cases x.state with
    | idle => cases p.txCmdValid <;> by_cases hl : p.txCmdArgsLen.toNat ≤ params.argsMax <;> simp [hl]
    | args => cases p.txOutReady <;> cases p.txArgValid <;> rfl
    | len | opcode | crcHi | crcLo => cases p.txOutReady <;> rfl

/-- Settles O51: the handshake outputs are those of the state before the edge, and the stream grows by what the cycle
transfers. -/
theorem handshakesFollowStateAndInputs : Obligations.HandshakesFollowStateAndInputs := by
  intro s t p rest hs ht
  have hout : t = s.afterCycle (.clock p) rest := (step_next_eq ht).trans (afterStep_of_script hs)
  subst hout
  exact ⟨txCmdReady_iff, txArgReady_iff, txOffer_ne_none_iff, congrArg (s.wire ++ ·) (txCycleNext_sent s.tx p), rfl⟩

end Sys2Proof.Machine
end

section
/-! PROOFS. R29 (e): no step reads a byte of `rx_buf` that was not written in the frame in progress. -/

namespace Sys2Proof.Machine

/-- Two buffers agree on the indices below `n`. -/
def AgreeBelow (n : Nat) (m m' : Buf) : Prop := ∀ i, i < n → m'.read i = m.read i

theorem AgreeBelow.zero (m m' : Buf) : AgreeBelow 0 m m' := fun _ hi => absurd hi (Nat.not_lt_zero _)

/-- Slices of the agreeing part are equal. -/
theorem AgreeBelow.slice_eq {n a k : Nat} {m m' : Buf} (h : AgreeBelow n m m') (hk : a + k ≤ n) :
    m'.slice a k = m.slice a k :=
  Buf.slice_congr fun i hi => h (a + i) (by omega)

/-- The same byte written just above the agreeing part extends it. -/
theorem AgreeBelow.write {n : Nat} {m m' : Buf} (h : AgreeBelow n m m') (hm : m.wf = true) (hm' : m'.wf = true)
    (v : Byte) : AgreeBelow (n + 1) (m.write n v) (m'.write n v) := by
  intro i hi
  rw [Buf.read_write hm, Buf.read_write hm']
  split
  · rfl
  · exact h i (by omega)

/-- `SameLive` is about the buffer alone: every other register is equal. -/
theorem sameLive_iff {r r' : RxRegs} :
    SameLive r r' ↔ ∃ m, r' = { r with buf := m } ∧ (r.state = .textBody → AgreeBelow r.cnt.toNat r.buf m) ∧
      (r.state = .binaryPayload → AgreeBelow (min r.cnt.toNat r.len.toNat) r.buf m) := by
  constructor
  · rintro ⟨hstate, hlen, hcnt, hcrc, htrail, htext, hbin⟩
    refine ⟨r'.buf, ?_, htext, hbin⟩
    rw [← hstate, ← hlen, ← hcnt, ← hcrc, ← htrail]
  · rintro ⟨m, rfl, htext, hbin⟩
    exact ⟨rfl, rfl, rfl, rfl, rfl, htext, hbin⟩

/-- Outside `TextBody` and `BinaryPayload` no byte of the buffer is live. -/
theorem sameLive_of_state {r : RxRegs} (m : Buf) (htext : r.state ≠ .textBody) (hbin : r.state ≠ .binaryPayload) :
    SameLive r { r with buf := m } :=
  sameLive_iff.mpr ⟨m, rfl, fun h => absurd h htext, fun h => absurd h hbin⟩

/-- `rx_clear()` leaves no byte live. -/
theorem sameLive_clear (r : RxRegs) (m : Buf) : SameLive r.clear { r.clear with buf := m } :=
  sameLive_of_state m (by simp) (by simp)

/-- The event of R130 depends on the block bytes alone. -/
theorem judgeEvent_congr {r : RxRegs} {m : Buf} (h : AgreeBelow r.len.toNat r.buf m) (b : Byte) :
    judgeEvent { r with buf := m } b = judgeEvent r b := by
  unfold judgeEvent
  simp only
  split
  · rfl
  split
  · rfl
  · next hlen =>
    have hpos := toNat_ne_zero_of_ne_zero hlen
    rw [h 0 (by omega), h.slice_eq (by omega)]

/-- R29 (e): a received byte leads two decoders that agree but for stale bytes to the same event and again to such
decoders. -/
theorem rxStep_sameLive {r r' : RxRegs} (hlive : SameLive r r') (hi : r.Inv) (hi' : r'.Inv) (b : Byte) :
    SameLive (rxStep r b).1 (rxStep r' b).1 ∧ (rxStep r' b).2 = (rxStep r b).2 := by
  obtain ⟨m, rfl, htext, hbin⟩ := sameLive_iff.mp hlive
  have hwf : r.buf.wf = true := hi.1
  have hwf' : m.wf = true := hi'.1
  obtain ⟨st, len, cnt, crc, trailHi, buf⟩ := r
  cases st <;> simp only [rxStep]
  case awaitingMarker =>
    split
    · exact ⟨sameLive_iff.mpr ⟨m, rfl, fun _ => AgreeBelow.zero _ _, nofun⟩, rfl⟩
    split
    · exact ⟨sameLive_of_state m nofun nofun, rfl⟩
    · exact ⟨sameLive_clear _ m, rfl⟩
  case textBody =>
    have hagree : AgreeBelow cnt.toNat buf m := htext rfl
    have hwrite := hagree.write hwf hwf' b
    split
    · exact ⟨sameLive_clear _ m, by rw [hagree.slice_eq (Nat.zero_add _).le]⟩
    split
    · have hcnt : (cnt + 1).toNat = cnt.toNat + 1 := cnt_add_one_toNat (by omega)
      exact ⟨sameLive_iff.mpr ⟨_, rfl, fun _ => by simpa only [hcnt] using hwrite, nofun⟩, rfl⟩
    split
    · exact ⟨sameLive_of_state _ nofun nofun, by rw [hwrite.slice_eq (by omega)]⟩
    · exact ⟨hlive, rfl⟩
  case binaryLength =>
    exact ⟨sameLive_iff.mpr ⟨m, rfl, nofun, fun _ => AgreeBelow.zero _ _⟩, trivial⟩
  case binaryPayload =>
    have hagree : AgreeBelow (min cnt.toNat len.toNat) buf m := hbin rfl
    have hlen := len.isLt
    split
    · next hc =>
      have hcnt : (cnt + 1).toNat = cnt.toNat + 1 := cnt_add_one_toNat (by omega)
      rw [Nat.min_eq_left hc.le] at hagree
      refine ⟨sameLive_iff.mpr ⟨_, rfl, nofun, fun _ => ?_⟩, rfl⟩
      simpa only [hcnt, Nat.min_eq_left (Nat.succ_le_of_lt hc)] using hagree.write hwf hwf' b
    split
    · next hc =>
      have hcnt : (cnt + 1).toNat = len.toNat + 1 := by rw [cnt_add_one_toNat (by omega), hc]
      rw [hc, Nat.min_self] at hagree
      refine ⟨sameLive_iff.mpr ⟨_, rfl, nofun, fun _ => ?_⟩, rfl⟩
      simpa only [hcnt, Nat.min_eq_right (Nat.le_succ _)] using hagree
    split
    · next hc =>
      rw [hc, Nat.min_eq_right (Nat.le_succ _)] at hagree
      exact ⟨sameLive_clear _ m,
        congrArg some (judgeEvent_congr (r := ⟨.binaryPayload, len, cnt, crc, trailHi, buf⟩) hagree b)⟩
    · exact ⟨hlive, rfl⟩

/-- R29 (e): the same for every cycle. -/
theorem rxCycleNext_sameLive {r r' : RxRegs} (hlive : SameLive r r') (hi : r.Inv) (hi' : r'.Inv) (p : InPins) :
    SameLive (rxCycleNext r p).1 (rxCycleNext r' p).1 ∧ (rxCycleNext r' p).2 = (rxCycleNext r p).2 := by
  rcases control_or_noControl p with hp | hp
  · rw [rxCycleNext_control r hp, rxCycleNext_control r' hp]
    exact ⟨sameLive_clear r r'.buf, rfl⟩
  · rw [rxCycleNext_data r hp, rxCycleNext_data r' hp, rxCycleStep, rxCycleStep]
    split
    · exact rxStep_sameLive hlive hi hi' p.rxData
    · exact ⟨hlive, rfl⟩

/-- Where two decoders have the same event, the rest of the state after a step does not depend on which of them it has. -/
theorem afterStep_setRx {s : State} {r' : RxRegs}
    (hev : (rxCycleNext r' (itemPins (fetchItem s).1)).2 = (rxCycleNext s.rx (itemPins (fetchItem s).1)).2) :
    State.afterStep { s with rx := r' } =
      { s.afterStep with rx := (rxCycleNext r' (itemPins (fetchItem s).1)).1 } := by
  have hfetch : fetchItem { s with rx := r' } = fetchItem s := rfl
  simp only [State.afterStep, State.afterCycle, hfetch, hev]

/-- Settles O53: the second state answers because it is of the invariant, and the two decoders' parts of the cycle agree
but for stale bytes. -/
theorem staleBufferBytesAreNeverRead : Obligations.StaleBufferBytesAreNeverRead := by
  intro s s' t hs hs' hlive hsame ht
  obtain ⟨hnext, hev⟩ := rxCycleNext_sameLive hlive hs.1 hs'.1 (itemPins (fetchItem s).1)
  have hafter : s'.afterStep = { s.afterStep with rx := s'.afterStep.rx } := by
    rw [hsame]
    exact afterStep_setRx hev
  have hrx : s'.afterStep.rx = (rxCycleNext s'.rx (itemPins (fetchItem s).1)).1 := by
    rw [hsame]
    rfl
  rw [step_next_eq ht]
  exact ⟨s'.afterStep, step_of_inv hs', hrx ▸ hnext, hafter⟩

end Sys2Proof.Machine
end

section
/-! PROOFS. Where an operation runs and where it is refused (spec/30_encoding.md section 4), and the registers outside the
invariant that stop the machine (spec/93_implementation_defined.md U4, U5). -/

namespace Sys2Proof.Machine

/-- Log entry 9: an operation that its row does not select is refused. The rows without a condition are always selected. -/
theorem exec_of_not_selected {i : Instr} {s : State} (h : ¬(i.wellFormed = true ∧ i.enabledIn s.view = true)) :
    exec i s = .refused .notSelected := by
  cases i with
  | crcStep _ _ | crc16 _ | encode _ _ | gInit | gUpdate _ | sysReset | sysClose | idle _ => exact absurd ⟨rfl, rfl⟩ h
  | rxMarkText | rxMarkBin | rxMarkBad _ | rxTextData _ | rxTextEnd | rxTextTrunc _ | rxLen _ | rxBinData _
  | rxBinCrcHi _ | rxBinCrcLo _ => exact whenSelected_refused h
  | txCmd _ _ | txReject _ _ | txLen | txOpcode | txArg _ | txCrcHi | txCrcLo => exact whenSelected_refused h
  | frameGetStatus | frameStart | frameDelete | frameSendData | frameReceiveError | frameDataFromTask =>
    exact whenSelected_refused h

/-- A selected operation runs when its meaning answers there. -/
theorem exists_next_of_selected {i : Instr} {s : State} {k : Host.Outcome State Fault Refusal}
    (h : i.wellFormed = true ∧ i.enabledIn s.view = true) (hk : ∃ t, k = .next t) :
    ∃ t, whenSelected i s k = .next t := by
  rwa [whenSelected_of_enabled h.1 h.2]

theorem exists_next_acceptBlockByte {s : State} (b : Byte) (h : s.rx.cnt.toNat < 1024) :
    ∃ t, acceptBlockByte b s = .next t := ⟨_, acceptBlockByte_of_lt h⟩

/-- In the opcode position there is room for the block byte. -/
theorem cnt_lt_of_atOpcode {s : State} (h : s.view.atOpcode = true) : s.rx.cnt.toNat < 1024 := by
  have hcnt := (cnt_lt_len_of_atOpcode h).2
  have hlen := s.rx.len.isLt
  omega

/-- Where R29 (b) bounds the text counter, a selected operation runs: its row's own condition keeps every other buffer
access inside. -/
theorem exec_of_selected {i : Instr} {s : State} (htext : s.rx.state = .textBody → s.rx.cnt.toNat ≤ 1023)
    (h : i.wellFormed = true ∧ i.enabledIn s.view = true) : ∃ t, exec i s = .next t := by
  have hlen := s.rx.len.isLt
  cases i with
  | crcStep _ _ | crc16 _ | encode _ _ | gInit | gUpdate _ | sysReset | sysClose | idle _ => exact ⟨_, rfl⟩
  | rxMarkText | rxMarkBin | rxMarkBad _ | rxLen _ | rxBinCrcHi _ => exact exists_next_of_selected h ⟨_, rfl⟩
  | txCmd _ _ | txReject _ _ | txLen | txOpcode | txArg _ | txCrcHi | txCrcLo =>
    exact exists_next_of_selected h ⟨_, rfl⟩
  | rxTextData _ =>
    have hcnt : s.rx.cnt.toNat + 1 < 1024 := of_decide_eq_true (Bool.and_eq_true_iff.mp h.2).2
    exact exists_next_of_selected h ⟨_, withWrite_of_lt (by omega)⟩
  | rxTextEnd =>
    have hcnt := htext (eq_of_beq h.2)
    exact exists_next_of_selected h ⟨_, withRead_of_le (by omega)⟩
  | rxTextTrunc _ =>
    have hcnt : s.rx.cnt.toNat + 1 = 1024 := of_decide_eq_true (Bool.and_eq_true_iff.mp h.2).2
    exact exists_next_of_selected h ⟨_, (withWrite_of_lt (by omega)).trans (withRead_of_le (by simp))⟩
  | rxBinData b =>
    have hcnt : s.rx.cnt.toNat < s.rx.len.toNat := of_decide_eq_true (Bool.and_eq_true_iff.mp h.2).2
    exact exists_next_of_selected h (exists_next_acceptBlockByte b (by omega))
  | rxBinCrcLo b =>
    refine exists_next_of_selected h ?_
    split
    · exact ⟨_, rfl⟩
    split
    · exact ⟨_, rfl⟩
    · exact ⟨_, withRead_of_le (by omega)⟩
  | frameGetStatus | frameStart | frameDelete | frameSendData | frameReceiveError | frameDataFromTask =>
    exact exists_next_of_selected h (exists_next_acceptBlockByte _ (cnt_lt_of_atOpcode h.2))

/-- Settles O42: `exec_of_selected` under the text bound that R29 gives, and `exec_of_not_selected`. -/
theorem operationsRunWhereSelected : Obligations.OperationsRunWhereSelected :=
  fun _ _ hs => ⟨exec_of_selected hs.1.cnt_le_of_textBody, exec_of_not_selected⟩

/-! ### Stops outside the invariant -/

/-- A received byte that no row of R80 covers stops the machine (log entry 8). -/
theorem step_rxCycle_of_error {s : State} {b : Byte} {rest : List Item} {e : DecodeError}
    (hs : s.script = .clock (rxCycle b) :: rest) (h : selectRx s.view b = .error e) :
    step s = .refused (.undecodable e) := by
  have hdec : decode s.view (.clock (rxCycle b)) = .error e := by
    have hrx : selectRx s.view (rxCycle b).rxData = .error e := h
    simp only [decode, decodeClock, hrx]
    rfl
  rw [step_cons hs, cycle, hdec]

/-- An argument byte that no row of R81 covers stops the machine (log entry 19). -/
theorem step_argCycle_of_error {s : State} {a : Byte} {rest : List Item} {e : DecodeError}
    (hs : s.script = .clock (argCycle a) :: rest) (h : selectTx s.view (argCycle a) = .error e) :
    step s = .refused (.undecodable e) := by
  have hdec : decode s.view (.clock (argCycle a)) = .error e := by
    simp only [decode, decodeClock, h]
    rfl
  rw [step_cons hs, cycle, hdec]

/-- A text byte beyond the cap has no row. -/
theorem selectRx_text_error {v : View} {b : Byte} (hs : v.rxState = .textBody) (hb : b ≠ params.textEnd)
    (hc : 1024 ≤ v.rxCnt.toNat) : selectRx v b = .error .rxNoRow := by
  have hlt : ¬v.rxCnt.toNat + 1 < params.textCap := by simp only; omega
  have heq : v.rxCnt.toNat + 1 ≠ params.textCap := by simp only; omega
  simp only [selectRx, hs, if_neg hb, if_neg hlt, if_neg heq]

/-- A byte beyond the trailer has no row. -/
theorem selectRx_payload_error {v : View} (b : Byte) (hs : v.rxState = .binaryPayload)
    (hc : v.rxLen.toNat + 1 < v.rxCnt.toNat) : selectRx v b = .error .rxNoRow := by
  have hlt : ¬v.rxCnt.toNat < v.rxLen.toNat := by omega
  have hhi : v.rxCnt.toNat ≠ v.rxLen.toNat := by omega
  have hlo : v.rxCnt.toNat ≠ v.rxLen.toNat + 1 := by omega
  simp only [selectRx, hs, if_neg hlt, if_neg hhi, if_neg hlo]

/-- An argument byte with none to go has no row. -/
theorem selectTx_args_error {v : View} (a : Byte) (hs : v.txState = .args) (hr : v.txRem = 0) :
    selectTx v (argCycle a) = .error .txNoRow := by
  simp only [selectTx, hs, hr]
  rfl

/-- A text longer than the buffer cannot be read (log entry 7). -/
theorem exec_rxTextEnd_fault {s : State} (hs : s.rx.state = .textBody) (hc : 1024 < s.rx.cnt.toNat) :
    exec .rxTextEnd s = .fault .bufferIndex := by
  have hsel : Instr.rxTextEnd.enabledIn s.view = true := beq_iff_eq.mpr hs
  refine (whenSelected_of_enabled rfl hsel).trans ?_
  rw [withRead, memRead_eq_none.mpr (by omega)]

/-- Settles O44: the three register values that no row covers, and the read outside the buffer. -/
theorem unreachableRegistersStop : Obligations.UnreachableRegistersStop :=
  ⟨fun _ _ _ hscript hs hb hc => step_rxCycle_of_error hscript (selectRx_text_error hs hb hc),
    fun _ b _ hscript hs hc => step_rxCycle_of_error hscript (selectRx_payload_error b hs hc),
    fun _ a _ hscript hs hr => step_argCycle_of_error hscript (selectTx_args_error a hs hr),
    fun _ hs hc => exec_rxTextEnd_fault hs hc⟩

end Sys2Proof.Machine
end

section
/-! PROOFS. R60, R61: each agent's part of a cycle is a function of its own registers and its own inputs
(spec/20_memory.md): inputs that an agent cannot tell apart lead it to the same registers, event and port values. -/

namespace Sys2Proof.Machine

/-! ### The decoder -/

/-- Without control inputs the decoder reads `rx_data` only where `rx_valid` is 1. -/
theorem rxCycleStep_congr {p p' : InPins} (r : RxRegs) (hvalid : p.rxValid = p'.rxValid)
    (hdata : p.rxValid = true → p.rxData = p'.rxData) : rxCycleStep r p' = rxCycleStep r p := by
  rw [rxCycleStep, rxCycleStep, ← hvalid]
  split
  · next hv => rw [hdata hv]
  · rfl

theorem rxCycleNext_congr {p p' : InPins} (r : RxRegs) (h : SameForRx p p') : rxCycleNext r p' = rxCycleNext r p := by
  obtain ⟨hrst, hclose, hvalid, hdata⟩ := h
  rw [rxCycleNext, rxCycleNext, ← hrst, ← hclose, rxCycleStep_congr r hvalid hdata]

/-! ### The encoder -/

/-- Without control inputs the encoder reads a command or an argument byte only where its valid input is 1. -/
theorem txCycleStep_congr {p p' : InPins} (x : TxRegs) (hcmd : p.txCmdValid = p'.txCmdValid)
    (harg : p.txArgValid = p'.txArgValid) (hready : p.txOutReady = p'.txOutReady)
    (hcommand : p.txCmdValid = true → p.txCmdOpcode = p'.txCmdOpcode ∧ p.txCmdArgsLen = p'.txCmdArgsLen)
    (hbyte : p.txArgValid = true → p.txArgData = p'.txArgData) : txCycleStep x p' = txCycleStep x p := by
  rw [txCycleStep, txCycleStep]
  cases x.state with
  | idle =>
    simp only [← hcmd]
    split
    · next hv =>
      obtain ⟨hop, hlen⟩ := hcommand hv
      rw [hop, hlen]
    · rfl
  | args =>
    simp only [← hready, ← harg]
    split
    · next hv => rw [hbyte (Bool.and_eq_true_iff.mp hv).2]
    · rfl
  | len | opcode | crcHi | crcLo => simp only [hready]

theorem txCycleNext_congr {p p' : InPins} (x : TxRegs) (h : SameForTx p p') : txCycleNext x p' = txCycleNext x p := by
  obtain ⟨hrst, hclose, hcmd, harg, hready, hcommand, hbyte⟩ := h
  rw [txCycleNext, txCycleNext, ← hrst, ← hclose, txCycleStep_congr x hcmd harg hready hcommand hbyte]

/-- The byte offered in `TxArgs` is read from the inputs only where `tx_arg_valid` is 1. -/
theorem txOffer_congr {p p' : InPins} (x : TxRegs) (h : SameForTx p p') : txOffer x p' = txOffer x p := by
  obtain ⟨hrst, hclose, -, harg, -, -, hbyte⟩ := h
  have hoffer : (if p'.txArgValid then some p'.txArgData else none) =
      if p.txArgValid then some p.txArgData else none := by
    rw [← harg]
    split
    · next hv => rw [hbyte hv]
    · rfl
  simp only [txOffer, ← hrst, ← hclose, hoffer]

/-- The ports of a cycle before any event are the encoder's alone. -/
theorem cycleOutputs_congr {p p' : InPins} (x : TxRegs) (h : SameForTx p p') : cycleOutputs x p' = cycleOutputs x p := by
  have hoffer := txOffer_congr x h
  obtain ⟨hrst, hclose, -, -, hready, -, -⟩ := h
  simp only [cycleOutputs, txCmdReady, txArgReady, ← hrst, ← hclose, ← hready, hoffer]

/-! ### The CRC port -/

/-- Without `rst` the CRC port reads `g_data` only where `g_en` is 1. -/
theorem gCycleStep_congr {p p' : InPins} (g : U16) (hinit : p.gInit = p'.gInit) (hen : p.gEn = p'.gEn)
    (hdata : p.gEn = true → p.gData = p'.gData) : gCycleStep g p' = gCycleStep g p := by
  rw [gCycleStep, gCycleStep, ← hinit, ← hen]
  split
  · rfl
  split
  · next hv => rw [hdata hv]
  · rfl

theorem gCycleNext_congr {p p' : InPins} (g : U16) (h : SameForG p p') : gCycleNext g p' = gCycleNext g p := by
  obtain ⟨hrst, hinit, hen, hdata⟩ := h
  rw [gCycleNext, gCycleNext, ← hrst, gCycleStep_congr g hinit hen hdata]

/-! ### The step -/

/-- A step that takes a cycle of port values and answers leaves the state that `afterCycle` says. -/
theorem step_clock_next_eq {s t : State} {p : InPins} {rest : List Item} (hs : s.script = .clock p :: rest)
    (ht : step s = .next t) : t = s.afterCycle (.clock p) rest :=
  (step_next_eq ht).trans (afterStep_of_script hs)

/-- R61 for the decoder: its registers and its event port. -/
theorem afterCycle_rx_congr {s s' : State} {p p' : InPins} (rest rest' : List Item) (hregs : s'.rx = s.rx)
    (h : SameForRx p p') :
    (s'.afterCycle (.clock p') rest').rx = (s.afterCycle (.clock p) rest).rx ∧
    (s'.afterCycle (.clock p') rest').out.ev = (s.afterCycle (.clock p) rest).out.ev := by
  have hnext : rxCycleNext s'.rx p' = rxCycleNext s.rx p := by rw [hregs, rxCycleNext_congr s.rx h]
  exact ⟨congrArg Prod.fst hnext, congrArg Prod.snd hnext⟩

/-- R61 for the encoder: its registers, its event port and its handshake outputs. -/
theorem afterCycle_tx_congr {s s' : State} {p p' : InPins} (rest rest' : List Item) (hregs : s'.tx = s.tx)
    (h : SameForTx p p') :
    (s'.afterCycle (.clock p') rest').tx = (s.afterCycle (.clock p) rest).tx ∧
    (s'.afterCycle (.clock p') rest').out.txEv = (s.afterCycle (.clock p) rest).out.txEv ∧
    (s'.afterCycle (.clock p') rest').out.txCmdReady = (s.afterCycle (.clock p) rest).out.txCmdReady ∧
    (s'.afterCycle (.clock p') rest').out.txArgReady = (s.afterCycle (.clock p) rest).out.txArgReady ∧
    (s'.afterCycle (.clock p') rest').out.txOut = (s.afterCycle (.clock p) rest).out.txOut := by
  have hnext : txCycleNext s'.tx p' = txCycleNext s.tx p := by rw [hregs, txCycleNext_congr s.tx h]
  have hports : cycleOutputs s'.tx p' = cycleOutputs s.tx p := by rw [hregs, cycleOutputs_congr s.tx h]
  exact ⟨congrArg Prod.fst hnext, congrArg (·.2.2) hnext, (congrArg Outputs.txCmdReady hports :),
    (congrArg Outputs.txArgReady hports :), (congrArg Outputs.txOut hports :)⟩

/-- R61 for the CRC port: its register, which is also its output (R37). -/
theorem afterCycle_g_congr {s s' : State} {p p' : InPins} (rest rest' : List Item) (hregs : s'.gCrc = s.gCrc)
    (h : SameForG p p') :
    (s'.afterCycle (.clock p') rest').gCrc = (s.afterCycle (.clock p) rest).gCrc ∧
    (s'.afterCycle (.clock p') rest').gCrcOut = (s.afterCycle (.clock p) rest).gCrcOut := by
  have hnext : gCycleNext s'.gCrc p' = gCycleNext s.gCrc p := by rw [hregs, gCycleNext_congr s.gCrc h]
  exact ⟨hnext, hnext⟩

/-- Settles O52: the state after each step is `afterCycle`, whose part for an agent reads that agent's registers and
inputs alone. -/
theorem agentsDoNotInterfere : Obligations.AgentsDoNotInterfere := by
  intro s s' t t' p p' rest rest' hs hs' ht ht'
  rw [step_clock_next_eq hs ht, step_clock_next_eq hs' ht']
  exact ⟨afterCycle_rx_congr rest rest', afterCycle_tx_congr rest rest', afterCycle_g_congr rest rest'⟩

end Sys2Proof.Machine
end

section
/-! PROOFS. The selection of operations and its inverse (spec/30_encoding.md R80 to R83, R88): every operation that the
decoder gives is one its row admits in that state, and the decoder's rows are exactly those that `encode` gives a received
byte. -/

namespace Sys2Proof.Machine

/-- Operation `i` is one that its row admits in `v`: the operand condition and the state condition hold. -/
def SelectedIn (v : View) (i : Instr) : Prop := i.wellFormed = true ∧ i.enabledIn v = true

/-- `IDLE` has no condition (R185). -/
theorem selectedIn_idle (v : View) (a : Agent) : SelectedIn v (.idle a) := ⟨rfl, rfl⟩

/-! ### The cycle of one operation -/

/-- The cycle for one operation has that operation and otherwise idle agents, row by row. -/
theorem alone_idle (i : Instr) : Laws.AloneIdle.Statement i := by
  cases i with
  | crcStep c b => exact Laws.AloneIdle.crcStep c b
  | crc16 bytes => exact Laws.AloneIdle.crc16 bytes
  | encode op args => exact Laws.AloneIdle.encode op args
  | sysReset | sysClose => exact Laws.AloneIdle.of_single rfl
  | gInit | gUpdate _ => exact Laws.AloneIdle.of_g rfl
  | rxMarkText | rxMarkBin | rxMarkBad _ | rxTextData _ | rxTextEnd | rxTextTrunc _ | rxLen _ | rxBinData _
  | rxBinCrcHi _ | rxBinCrcLo _ => exact Laws.AloneIdle.of_rx rfl
  | txCmd _ _ | txReject _ _ | txLen | txOpcode | txArg _ | txCrcHi | txCrcLo => exact Laws.AloneIdle.of_tx rfl
  | idle a => exact Laws.AloneIdle.idle a
  | frameGetStatus | frameStart | frameDelete | frameSendData | frameReceiveError | frameDataFromTask =>
    exact Laws.AloneIdle.of_rx rfl

/-- Settles O39: `decode_encode` gives the operations of the cycle, and `alone_idle` says which they are. -/
theorem decodeOfEncode : Obligations.DecodeOfEncode :=
  fun _ i hw he => ⟨decode_encode hw he, alone_idle i⟩

/-! ### The decoder's rows (R80) -/

/-- A selected decoder operation is a row with the byte received whose operand and state conditions hold. -/
theorem selectRx_row {v : View} {b : Byte} {i : Instr} (h : selectRx v b = .ok i) :
    encode i = .clock (rxCycle b) ∧ SelectedIn v i := by
  unfold selectRx at h
  cases hstate : v.rxState <;> simp only [hstate] at h
  case awaitingMarker =>
    have he : (v.rxState == .awaitingMarker) = true := beq_iff_eq.mpr hstate
    split at h
    · next hb => cases h; exact ⟨hb ▸ rfl, rfl, he⟩
    · next hText =>
      split at h
      · next hb => cases h; exact ⟨hb ▸ rfl, rfl, he⟩
      · next hBin => cases h; exact ⟨rfl, Bool.and_eq_true_iff.mpr ⟨bne_iff_ne.mpr hText, bne_iff_ne.mpr hBin⟩, he⟩
  case textBody =>
    split at h
    · next hb => cases h; exact ⟨hb ▸ rfl, rfl, beq_iff_eq.mpr hstate⟩
    · next hb =>
      have hw : (b != params.textEnd) = true := bne_iff_ne.mpr hb
      split at h
      · next hc => cases h; exact ⟨rfl, hw, by simpa [Instr.enabledIn, hstate] using hc⟩
      · split at h
        · next hc => cases h; exact ⟨rfl, hw, by simpa [Instr.enabledIn, hstate] using hc⟩
        · cases h
  case binaryLength => cases h; exact ⟨rfl, rfl, beq_iff_eq.mpr hstate⟩
  case binaryPayload =>
    split at h
    · next hc => cases h; exact ⟨rfl, rfl, by simpa [Instr.enabledIn, hstate] using hc⟩
    · split at h
      · next hc => cases h; exact ⟨rfl, rfl, by simpa [Instr.enabledIn, hstate] using hc⟩
      · split at h
        · next hc => cases h; exact ⟨rfl, rfl, by simpa [Instr.enabledIn, hstate] using hc⟩
        · cases h

/-- What a received byte alone decodes to is the decoder's operation and idle agents. -/
theorem decodeClock_rxCycle_ok {v : View} {b : Byte} {ops : List Instr} (h : decodeClock v (rxCycle b) = .ok ops) :
    ∃ i, selectRx v b = .ok i ∧ ops = [i, .idle .tx, .idle .g] := by
  rcases decodeClock_ok h with ⟨hrst, -⟩ | ⟨-, hclose, -⟩ | ⟨-, -, i, j, hi, hj, rfl⟩
  · cases hrst
  · cases hclose
  · have hidle : j = .idle .tx := Except.ok.inj (hj.symm.trans (selectTx_eq_idle v rfl rfl))
    exact ⟨i, hi, hidle ▸ rfl⟩

/-- `IDLE` is no row of the decoder's table: its cycle presents no byte. -/
theorem encode_idle_ne_rxCycle (a : Agent) (b : Byte) : encode (.idle a) ≠ .clock (rxCycle b) := fun h =>
  Bool.false_ne_true (congrArg InPins.rxValid (Item.clock.inj h))

/-- A row with the byte received whose conditions hold is selected: its cycle decodes to it and idle agents. -/
theorem selectRx_of_row {v : View} {b : Byte} {i : Instr} (henc : encode i = .clock (rxCycle b)) (h : SelectedIn v i) :
    selectRx v b = .ok i := by
  have hdec : decode v (.clock (rxCycle b)) = .ok i.alone := henc ▸ decode_encode h.1 h.2
  obtain ⟨j, hj, halone⟩ := decodeClock_rxCycle_ok hdec
  have hmem : i ∈ [j, .idle .tx, .idle .g] := halone ▸ (alone_idle i).1
  have hidle : ∀ a, i ≠ .idle a := fun a hi => encode_idle_ne_rxCycle a b (hi ▸ henc)
  have hij : i = j := by simpa [hidle] using hmem
  rw [hij, hj]

/-- Within the counter ranges of R29 every received byte has a row. -/
theorem exists_selectRx {v : View} (b : Byte) (htext : v.rxState = .textBody → v.rxCnt.toNat ≤ 1023)
    (hbin : v.rxState = .binaryPayload → v.rxCnt.toNat ≤ v.rxLen.toNat + 1) : ∃ i, selectRx v b = .ok i := by
  unfold selectRx
  cases hstate : v.rxState <;> simp only
  case awaitingMarker => split_ifs <;> exact ⟨_, rfl⟩
  case textBody =>
    have hcnt := htext hstate
    split_ifs
    · exact ⟨_, rfl⟩
    · exact ⟨_, rfl⟩
    · exact ⟨_, rfl⟩
    · omega
  case binaryLength => exact ⟨_, rfl⟩
  case binaryPayload =>
    have hcnt := hbin hstate
    split_ifs
    · exact ⟨_, rfl⟩
    · exact ⟨_, rfl⟩
    · exact ⟨_, rfl⟩
    · omega

/-- Settles O37: `selectRx_row` and `selectRx_of_row` are the two directions, `exists_selectRx` the totality. -/
theorem rxSelectionIsTheTable : Obligations.RxSelectionIsTheTable :=
  ⟨fun _ _ _ => ⟨selectRx_row, fun ⟨henc, h⟩ => selectRx_of_row henc h⟩, fun _ b => exists_selectRx b⟩

/-! ### The other agents' rows (R81, R82) -/

/-- A selected encoder operation is one that its row admits. -/
theorem selectTx_selected {v : View} {p : InPins} {i : Instr} (h : selectTx v p = .ok i) : SelectedIn v i := by
  unfold selectTx at h
  cases hstate : v.txState <;> simp only [hstate] at h
  case idle =>
    have he : (v.txState == .idle) = true := beq_iff_eq.mpr hstate
    split at h
    · split at h
      · next hl => cases h; exact ⟨decide_eq_true hl, he⟩
      · next hl => cases h; exact ⟨decide_eq_true (Nat.lt_of_not_le hl), he⟩
    · cases h; exact selectedIn_idle v .tx
  case args =>
    split at h
    · split at h
      · cases h
      · next hrem => cases h; exact ⟨rfl, by simpa [Instr.enabledIn, hstate] using hrem⟩
    · cases h; exact selectedIn_idle v .tx
  case len | opcode | crcHi | crcLo =>
    split at h
    · cases h; exact ⟨rfl, beq_iff_eq.mpr hstate⟩
    · cases h; exact selectedIn_idle v .tx

/-- A selected CRC port operation is one that its row admits: the port's rows have no condition. -/
theorem selectG_selected (v : View) {p : InPins} {i : Instr} (h : selectG p = some i) : SelectedIn v i := by
  unfold selectG at h
  split at h
  · cases h; exact ⟨rfl, rfl⟩
  · split at h
    · cases h; exact ⟨rfl, rfl⟩
    · cases h

/-! ### The opcode position (R88) -/

theorem atOpcode_iff {v : View} :
    v.atOpcode = true ↔ v.rxState = .binaryPayload ∧ v.rxCnt = 0 ∧ v.rxLen ≠ 0 := by
  simp [View.atOpcode, and_assoc]

/-- In the opcode position a block byte is selected: the block has a byte to come. -/
theorem rxBinData_selected {v : View} (b : Byte) (h : v.atOpcode = true) : SelectedIn v (.rxBinData b) := by
  obtain ⟨hstate, hcnt, hlen⟩ := atOpcode_iff.mp h
  have hpos : 0 < v.rxLen.toNat := Nat.pos_of_ne_zero (toNat_ne_zero_of_ne_zero hlen)
  exact ⟨rfl, by simpa [Instr.enabledIn, hstate, hcnt] using hpos⟩

/-- In the opcode position the row that names a byte is selected, for a byte without a name the block byte's row. -/
theorem nameOpcode_selected {v : View} (b : Byte) (h : v.atOpcode = true) : SelectedIn v (nameOpcode b) := by
  unfold nameOpcode
  iterate 6
    split
    · exact ⟨rfl, h⟩
  exact rxBinData_selected b h

/-! ### Every item -/

/-- What a cycle's port values select is selected agent by agent. -/
theorem decodeClock_selected {v : View} {p : InPins} {ops : List Instr} (h : decodeClock v p = .ok ops) :
    ∀ i ∈ ops, SelectedIn v i := by
  rcases decodeClock_ok h with ⟨-, rfl⟩ | ⟨-, -, rfl⟩ | ⟨-, -, i, j, hi, hj, rfl⟩
  · exact List.forall_mem_singleton.mpr ⟨rfl, rfl⟩
  · exact List.forall_mem_cons.mpr ⟨⟨rfl, rfl⟩, fun k hk => selectG_selected v (Option.mem_toList.mp hk)⟩
  · have hrx : SelectedIn v i := by
      split at hi
      · exact (selectRx_row hi).2
      · cases hi; exact selectedIn_idle v .rx
    have hg : SelectedIn v ((selectG p).getD (.idle .g)) := by
      cases hsel : selectG p with
      | none => exact selectedIn_idle v .g
      | some k => exact selectG_selected v hsel
    simp [hrx, selectTx_selected hj, hg]

/-- Settles O40, item by item: port values by `decodeClock_selected`, a named opcode by `nameOpcode_selected`. -/
theorem decodedOperationsAreSelected : Obligations.DecodedOperationsAreSelected := by
  intro v item ops h
  change ∀ i ∈ ops, SelectedIn v i
  cases item with
  | clock p => exact decodeClock_selected h
  | crcStep _ _ | crc16 _ | encode _ _ => cases h; exact List.forall_mem_singleton.mpr ⟨rfl, rfl⟩
  | opcode b =>
    by_cases hop : v.atOpcode = true
    · cases (decode_opcode b hop).symm.trans h
      simp [nameOpcode_selected b hop, selectedIn_idle]
    · exact decodeClock_selected ((if_neg hop).symm.trans h)

/-- Settles O38: three cycles with the inputs of one agent, and one with `rst`, which comes before everything else. -/
theorem sampleInputsDecode : Obligations.SampleInputsDecode := by
  have htx : selectTx State.reset.view (cmdCycle 4#8 256#16) = .ok (.txReject 4#8 256#16) :=
    (selectTx_cmdCycle 4#8 256#16 rfl).trans (if_neg (by decide))
  exact ⟨decodeClock_rxCycle (v := State.reset.view) (b := 0x02#8) rfl,
    decodeClock_tx (v := State.reset.view) (p := cmdCycle 4#8 256#16) rfl rfl rfl rfl htx,
    decodeClock_g State.reset.view rfl rfl rfl rfl rfl, rfl⟩

end Sys2Proof.Machine
end

section
/-! PROOFS. What the rows that no port selects do: the function rows (spec/40_crc.md, spec/42_encoder.md section 1) and the
informative opcode rows (spec/30_encoding.md R88). -/

namespace Sys2Proof.Machine

/-- Settles O8: a function row sets the result port to its function's value. -/
theorem functionRowsRunEverywhere : Obligations.FunctionRowsRunEverywhere :=
  fun s => ⟨fun c b => exec_crcStep c b s, fun bytes => exec_crc16 bytes s, fun op args => exec_encode op args s⟩

/-- R88's list: the informative rows with their bytes. -/
def frameRows : List (Instr × Byte) :=
  [(.frameGetStatus, 0x01#8), (.frameStart, 0x02#8), (.frameDelete, 0x03#8), (.frameSendData, 0x04#8),
    (.frameDataFromTask, 0x07#8), (.frameReceiveError, 0xFE#8)]

/-- Each row of the list is the name of its byte. -/
theorem nameOpcode_of_mem_frameRows : ∀ r ∈ frameRows, nameOpcode r.2 = r.1 := by decide

/-- In the opcode position a block byte is stored at index 0, summed and counted (R128). -/
theorem exec_rxBinData_atOpcode {s : State} (b : Byte) (h : s.view.atOpcode = true) :
    exec (.rxBinData b) s = .next (s.setRx
      { s.rx with buf := s.rx.buf.write 0 b, crc := crcStep s.rx.crc b, cnt := 1 }) := by
  obtain ⟨hw, he⟩ := rxBinData_selected b h
  have hcnt : s.rx.cnt = 0 := (atOpcode_iff.mp h).2.1
  calc exec (.rxBinData b) s
    _ = acceptBlockByte b s := whenSelected_of_enabled hw he
    _ = _ := acceptBlockByte_of_lt (cnt_lt_of_atOpcode h)
    _ = _ := by rw [hcnt]; rfl

/-- A write to the buffer in canonical form stores the byte and keeps every other (R51). -/
theorem storesOnly_of_write {s t : State} {a : Nat} {b : Byte} (hbuf : s.rx.buf.wf = true)
    (ht : t.rx.buf = s.rx.buf.write a b) : StoresOnly a b s t :=
  ⟨by rw [ht, Buf.read_write hbuf, if_pos rfl], fun _ hne => by rw [ht, Buf.read_write hbuf, if_neg hne]⟩

/-- Settles O22: a row of R88's list runs as the block byte it names, which in the opcode position goes to index 0. -/
theorem frameOpcodesAreBlockBytes : Obligations.FrameOpcodesAreBlockBytes := by
  intro s i b hrow hbuf hstate hcnt hlen
  have hop : s.view.atOpcode = true := atOpcode_iff.mpr ⟨hstate, hcnt, hlen⟩
  have hname : nameOpcode b = i := nameOpcode_of_mem_frameRows (i, b) hrow
  have hdata : exec i s = exec (.rxBinData b) s := hname ▸ exec_nameOpcode b hop
  exact ⟨hdata, _, hdata.trans (exec_rxBinData_atOpcode b hop), storesOnly_of_write hbuf rfl, rfl, rfl, rfl,
    ⟨rfl, rfl⟩, ⟨rfl, rfl, rfl, rfl, rfl, rfl⟩⟩

end Sys2Proof.Machine
end

section
/-! PROOFS. The CRC-16/MODBUS functions (spec/40_crc.md R101 to R109): the loop is linear over GF(2), it loses no bit of
the accumulator, and the accumulator's high byte only moves down. The table form, the single-cycle form, the error
detection and the residue follow from these three facts. -/

namespace Sys2Proof.Machine

/-! ### A u16 and its bytes -/

theorem getLsbD_zext16 (b : Byte) (i : Nat) : (zext16 b).getLsbD i = b.getLsbD i := by
  rw [zext16, BitVec.getLsbD_setWidth]
  by_cases hi : i < 16
  · simp [hi]
  · simp [hi, BitVec.getLsbD_of_ge b i (by omega)]

theorem getLsbD_lo8 (v : U16) (i : Nat) : (lo8 v).getLsbD i = (decide (i < 8) && v.getLsbD i) := by
  rw [lo8, BitVec.getLsbD_extractLsb', Nat.zero_add]

theorem getLsbD_hi8 (v : U16) (i : Nat) : (hi8 v).getLsbD i = (decide (i < 8) && v.getLsbD (8 + i)) :=
  BitVec.getLsbD_extractLsb' ..

theorem zext16_zero : zext16 0#8 = 0#16 := rfl

theorem zext16_xor (x y : Byte) : zext16 (x ^^^ y) = zext16 x ^^^ zext16 y := BitVec.setWidth_xor

theorem lo8_zext16 (b : Byte) : lo8 (zext16 b) = b :=
  BitVec.eq_of_getLsbD_eq fun i hi => by simp only [getLsbD_lo8, getLsbD_zext16, hi, decide_true, Bool.true_and]

theorem zext16_injective : Function.Injective zext16 := Function.LeftInverse.injective lo8_zext16

theorem zext16_ushiftRight_eight (b : Byte) : zext16 b >>> 8 = 0#16 :=
  BitVec.eq_of_getLsbD_eq fun i _ => by
    rw [BitVec.getLsbD_ushiftRight, getLsbD_zext16, BitVec.getLsbD_of_ge b (8 + i) (by omega), BitVec.getLsbD_zero]

/-- R8: the high byte stands above the low byte. -/
theorem ushiftRight_eight (v : U16) : v >>> 8 = zext16 (hi8 v) :=
  BitVec.eq_of_getLsbD_eq fun i _ => by
    rw [BitVec.getLsbD_ushiftRight, getLsbD_zext16, getLsbD_hi8]
    by_cases hi : i < 8
    · simp only [hi, decide_true, Bool.true_and]
    · simp only [hi, decide_false, Bool.false_and, BitVec.getLsbD_of_ge v (8 + i) (by omega)]

/-- R8: a u16 is put together from its two bytes. -/
theorem be16_hi8_lo8 (v : U16) : be16 (hi8 v) (lo8 v) = v := by
  rw [be16, hi8, lo8, BitVec.extractLsb'_append_extractLsb'_eq_extractLsb' (Nat.zero_add 8).symm]
  exact BitVec.extractLsb'_eq_self

/-! ### One iteration of the loop of R101 -/

/-- What an iteration adds for the bit shifted out: the polynomial, or nothing. -/
def crcMask (out : Bool) : U16 := if out then params.crcPoly else 0

theorem crcMask_xor (x y : Bool) : crcMask (x ^^ y) = crcMask x ^^^ crcMask y := by
  cases x <;> cases y <;> rfl

/-- The polynomial's top bit is 1. -/
theorem getLsbD_crcMask_top (out : Bool) : (crcMask out).getLsbD 15 = out := by
  cases out <;> rfl

theorem crcShift_eq (v : U16) : crcShift v = (v >>> 1) ^^^ crcMask (v.getLsbD 0) := by
  rw [crcShift, crcMask]
  split
  · rfl
  · exact (BitVec.xor_zero).symm

/-- R108 (b) for one iteration. -/
theorem crcShift_xor (v w : U16) : crcShift (v ^^^ w) = crcShift v ^^^ crcShift w := by
  simp only [crcShift_eq, BitVec.ushiftRight_xor_distrib, BitVec.getLsbD_xor, crcMask_xor]
  ac_rfl

/-- The bit shifted out comes back at the top, so an iteration loses nothing. -/
theorem getLsbD_crcShift_top (v : U16) : (crcShift v).getLsbD 15 = v.getLsbD 0 := by
  rw [crcShift_eq, BitVec.getLsbD_xor, BitVec.getLsbD_ushiftRight, getLsbD_crcMask_top,
    BitVec.getLsbD_of_ge v (1 + 15) le_rfl, Bool.false_xor]

theorem crcShift_of_bit_clear {v : U16} (h : v.getLsbD 0 = false) : crcShift v = v >>> 1 := by
  rw [crcShift_eq, h]
  exact BitVec.xor_zero

theorem eq_zero_of_crcShift_eq_zero {v : U16} (h : crcShift v = 0#16) : v = 0#16 := by
  have hout : v.getLsbD 0 = false := by rw [← getLsbD_crcShift_top, h, BitVec.getLsbD_zero]
  have hrest : v >>> 1 = 0#16 := crcShift_of_bit_clear hout ▸ h
  refine BitVec.eq_of_getLsbD_eq fun i _ => ?_
  rw [BitVec.getLsbD_zero]
  cases i with
  | zero => exact hout
  | succ i => rw [Nat.add_comm, ← BitVec.getLsbD_ushiftRight, hrest, BitVec.getLsbD_zero]

theorem crcShift_injective : Function.Injective crcShift := by
  intro v w h
  have hzero : crcShift (v ^^^ w) = 0#16 := by rw [crcShift_xor, h, BitVec.xor_self]
  exact BitVec.xor_eq_zero_iff.mp (eq_zero_of_crcShift_eq_zero hzero)

/-! ### Several iterations -/

theorem crcShifts_succ (k : Nat) (v : U16) : crcShifts (k + 1) v = crcShifts k (crcShift v) := rfl

theorem crcShifts_xor (k : Nat) (v w : U16) : crcShifts k (v ^^^ w) = crcShifts k v ^^^ crcShifts k w := by
  induction k generalizing v w with
  | zero => rfl
  | succ k ih => rw [crcShifts_succ, crcShift_xor, ih, crcShifts_succ, crcShifts_succ]

theorem crcShifts_injective (k : Nat) : Function.Injective (crcShifts k) := by
  induction k with
  | zero => exact Function.injective_id
  | succ k ih => exact ih.comp crcShift_injective

/-- While the bits shifted out are 0 the loop only shifts. -/
theorem crcShifts_of_low_bits_clear {k : Nat} {v : U16} (h : ∀ i, i < k → v.getLsbD i = false) :
    crcShifts k v = v >>> k := by
  induction k generalizing v with
  | zero => rfl
  | succ k ih =>
    have hlow : ∀ i, i < k → (v >>> 1).getLsbD i = false := fun i hi => by
      rw [BitVec.getLsbD_ushiftRight]
      exact h (1 + i) (by omega)
    rw [crcShifts_succ, crcShift_of_bit_clear (h 0 (Nat.succ_pos k)), ih hlow, Nat.add_comm, BitVec.shiftRight_add]

/-- A u16 whose low byte is 0 comes down to its high byte. -/
theorem crcShifts_of_lo8_eq_zero {v : U16} (h : lo8 v = 0#8) : crcShifts 8 v = v >>> 8 := by
  refine crcShifts_of_low_bits_clear fun i hi => ?_
  have hbit := getLsbD_lo8 v i
  rwa [h, BitVec.getLsbD_zero, decide_eq_true hi, Bool.true_and, eq_comm] at hbit

theorem lo8_xor_zext16 (v : U16) (b : Byte) : lo8 (v ^^^ zext16 b) = lo8 v ^^^ b :=
  BitVec.eq_of_getLsbD_eq fun i hi => by
    simp only [getLsbD_lo8, BitVec.getLsbD_xor, getLsbD_zext16, hi, decide_true, Bool.true_and]

/-- A u16 is its low byte and a rest that the loop only shifts. -/
theorem crcShifts_eight_rest (v : U16) : crcShifts 8 (v ^^^ zext16 (lo8 v)) = v >>> 8 := by
  rw [crcShifts_of_lo8_eq_zero (by rw [lo8_xor_zext16, BitVec.xor_self]), BitVec.ushiftRight_xor_distrib,
    zext16_ushiftRight_eight, BitVec.xor_zero]

/-! ### `crc_step` -/

/-- R108 (c). -/
theorem crcStep_eq_crcStep_zero (c : U16) (b : Byte) : crcStep c b = crcStep (c ^^^ zext16 b) 0#8 := by
  rw [crcStep, crcStep, zext16_zero, BitVec.xor_zero]

/-- R108 (b). -/
theorem crcStep_xor (c₁ c₂ : U16) (b₁ b₂ : Byte) :
    crcStep (c₁ ^^^ c₂) (b₁ ^^^ b₂) = crcStep c₁ b₁ ^^^ crcStep c₂ b₂ := by
  have hsum : (c₁ ^^^ c₂) ^^^ zext16 (b₁ ^^^ b₂) = (c₁ ^^^ zext16 b₁) ^^^ (c₂ ^^^ zext16 b₂) := by
    rw [zext16_xor]
    ac_rfl
  rw [crcStep, hsum, crcShifts_xor, crcStep, crcStep]

theorem crcTable_eq (i : Byte) : crcTable i = crcShifts 8 (zext16 i) := congrArg (crcShifts 8) BitVec.zero_xor

/-- R107: the byte's part of the sum stands in the table, and the rest moves down. -/
theorem crcStep_eq_crcTable (c : U16) (b : Byte) : crcStep c b = (c >>> 8) ^^^ crcTable (lo8 (c ^^^ zext16 b)) := by
  have hsplit (v : U16) : v = (v ^^^ zext16 (lo8 v)) ^^^ zext16 (lo8 v) := by
    rw [BitVec.xor_assoc, BitVec.xor_self, BitVec.xor_zero]
  have hshift : (c ^^^ zext16 b) >>> 8 = c >>> 8 := by
    rw [BitVec.ushiftRight_xor_distrib, zext16_ushiftRight_eight, BitVec.xor_zero]
  rw [crcStep, hsplit (c ^^^ zext16 b), crcShifts_xor, crcShifts_eight_rest, hshift, ← crcTable_eq, ← hsplit]

/-- R108 (d): for a fixed byte the accumulator is not lost. -/
theorem crcStep_injective_crc (b : Byte) : Function.Injective fun c => crcStep c b :=
  fun _ _ h => (BitVec.xor_left_inj (zext16 b)).mp (crcShifts_injective 8 h)

/-- R108 (d): for a fixed accumulator the byte is not lost. -/
theorem crcStep_injective_byte (c : U16) : Function.Injective fun b => crcStep c b :=
  fun _ _ h => zext16_injective ((BitVec.xor_right_inj c).mp (crcShifts_injective 8 h))

/-- Different accumulators stay different over the same bytes. -/
theorem foldl_crcStep_injective (bytes : List Byte) : Function.Injective fun c => bytes.foldl crcStep c := by
  induction bytes with
  | nil => exact Function.injective_id
  | cons b bytes ih => exact ih.comp (crcStep_injective_crc b)

/-! ### The single-cycle form (R104) -/

/-- Bit by bit: the sixteen sums take the accumulator's high byte as it stands and read the rest through
`c ^ zext_16(b)`. -/
theorem crcStepParallel_eq (c : U16) (b : Byte) :
    crcStepParallel c b = (c >>> 8) ^^^ crcStepParallel 0 (lo8 (c ^^^ zext16 b)) := by
  have hlow (j : Nat) (hj : j < 8) : (lo8 (c ^^^ zext16 b)).getLsbD j = (c.getLsbD j ^^ b.getLsbD j) := by
    simp only [getLsbD_lo8, BitVec.getLsbD_xor, getLsbD_zext16, hj, decide_true, Bool.true_and]
  refine BitVec.eq_of_getLsbD_eq fun i hi => ?_
  rw [BitVec.xor_comm, BitVec.getLsbD_xor, BitVec.getLsbD_ushiftRight]
  simp only [crcStepParallel, hlow, Nat.reduceLT, BitVec.getLsbD_ofBoolListLE]
  interval_cases i <;> simp

/-- On a zero accumulator the sixteen sums are the table of R107. -/
theorem crcStepParallel_zero : ∀ i : Byte, crcStepParallel 0 i = crcTable i := by decide

/-! ### The residue (R109) -/

/-- A checksum's own low byte leaves its high byte. -/
theorem crcStep_lo8_self (c : U16) : crcStep c (lo8 c) = zext16 (hi8 c) :=
  (crcShifts_eight_rest c).trans (ushiftRight_eight c)

/-- An accumulator that is only a low byte is cancelled by that byte. -/
theorem crcStep_zext16_self (b : Byte) : crcStep (zext16 b) b = 0#16 := by
  rw [crcStep, BitVec.xor_self]
  rfl

/-! ### The statements -/

/-- R101: a sequence of accumulators that takes one iteration at a time reaches `crcShifts`. -/
theorem crcShifts_eq_of_iterates {v : Nat → U16} (hv : ∀ k, v (k + 1) = crcShift (v k)) (k j : Nat) :
    crcShifts k (v j) = v (j + k) := by
  induction k generalizing j with
  | zero => rfl
  | succ k ih => rw [crcShifts_succ, ← hv, ih, Nat.add_right_comm, Nat.add_assoc]

/-- Settles O1: the loop's values are `crcShifts` of the start; the corner cases are computed. -/
theorem crcStepIsTheBitLoop : Obligations.CrcStepIsTheBitLoop := by
  refine ⟨fun c b v hzero hsucc => ?_, by decide, by decide, by decide, by decide⟩
  calc crcStep c b
    _ = crcShifts 8 (v 0) := by rw [crcStep, hzero, zext16]
    _ = v 8 := crcShifts_eq_of_iterates hsucc 8 0

/-- R103: an accumulator that takes `crc_step` of each byte holds the checksum of the bytes it has seen. -/
theorem accumulator_eq_crc16_take {s : List Byte} {acc : Nat → U16} (hzero : acc 0 = params.crcInit)
    (hsucc : ∀ k (h : k < s.length), acc (k + 1) = crcStep (acc k) s[k]) {k : Nat} (hk : k ≤ s.length) :
    acc k = crc16 (s.take k) := by
  induction k with
  | zero => exact hzero
  | succ k ih => rw [hsucc k hk, ih (Nat.le_of_succ_le hk), List.take_succ_eq_append_getElem hk, crc16_append_singleton]

/-- Settles O2: `crc16` is a left fold; the accumulator by induction on the bytes seen. -/
theorem crc16IsIncremental : Obligations.Crc16IsIncremental :=
  ⟨rfl, crc16_append_singleton, fun _ _ hzero hsucc _ => accumulator_eq_crc16_take hzero hsucc⟩

/-- Settles O3: both forms move the high byte down, and on the low byte they have the same table. -/
theorem crcStepSingleCycleForm : Obligations.CrcStepSingleCycleForm := by
  intro c b
  rw [crcStepParallel_eq, crcStepParallel_zero, crcStep_eq_crcTable]

/-- Settles O4: the table form, and the three entries computed. -/
theorem crcStepTableForm : Obligations.CrcStepTableForm :=
  ⟨crcStep_eq_crcTable, fun _ => rfl, by decide, by decide, by decide⟩

/-- Settles O5: the loop is linear, and `crc_step` starts it at `c ^ zext_16(b)`. -/
theorem crcStepIsLinear : Obligations.CrcStepIsLinear := ⟨crcStep_xor, crcStep_eq_crcStep_zero⟩

/-- Settles O6: a changed byte gives another accumulator, and the bytes after it keep the two apart. -/
theorem crcDetectsOneByteErrors : Obligations.CrcDetectsOneByteErrors := by
  refine ⟨fun b => Finite.injective_iff_bijective.mp (crcStep_injective_crc b), crcStep_injective_byte, ?_⟩
  intro before after x y hne h
  rw [crc16, crc16, List.foldl_append, List.foldl_append] at h
  exact hne (crcStep_injective_byte _ (foldl_crcStep_injective after h))

/-- R109 (a): the low byte first leaves the high byte, which then cancels itself. -/
theorem crc16_append_lo8_hi8 (s : List Byte) : crc16 (s ++ [lo8 (crc16 s), hi8 (crc16 s)]) = 0#16 := by
  calc crc16 (s ++ [lo8 (crc16 s), hi8 (crc16 s)])
    _ = crcStep (crcStep (crc16 s) (lo8 (crc16 s))) (hi8 (crc16 s)) := List.foldl_append
    _ = 0#16 := by rw [crcStep_lo8_self, crcStep_zext16_self]

/-- R109: the accumulator over a block and its trailer as this protocol sends it, high byte first. -/
theorem crc16_append_trailer (s : List Byte) :
    crc16 (s ++ trailer s) = crcStep (crcStep (crc16 s) (hi8 (crc16 s))) (lo8 (crc16 s)) := List.foldl_append

/-- Settles O7: `crc16_append_lo8_hi8` for the low byte first. With the high byte first the empty sequence, whose
checksum has two equal bytes, has the residue 0, and the sequence of one zero byte has not. -/
theorem residueOnlyWithLowByteFirst : Obligations.ResidueOnlyWithLowByteFirst := by
  have hempty : crc16 ([] ++ trailer []) = 0x0000#16 := crc16_append_lo8_hi8 []
  have hcrc : crc16 [0x00#8] = 0x40BF#16 := by decide
  have hhigh : crcStep 0x40BF#16 (hi8 0x40BF#16) = 0x4000#16 := by decide
  refine ⟨crc16_append_lo8_hi8, [], [0x00#8], ?_⟩
  rw [hempty, crc16_append_trailer, hcrc, hhigh]
  decide

/-! ### The CRC port's operations -/

/-- Settles O9: `g_init` is tested first, and `G.INIT` writes `g_crc` alone. -/
theorem gInitRestartsThePort : Obligations.GInitRestartsThePort := ⟨fun _ h => if_pos h, exec_gInit⟩

/-- Settles O10: without `g_init` the test of `g_en` decides, and `G.UPDATE` writes `g_crc` alone. -/
theorem gUpdateAdvancesThePort : Obligations.GUpdateAdvancesThePort :=
  ⟨fun _ hinit hen => (if_neg (by simp [hinit])).trans (if_pos hen), fun s b => exec_gUpdate b s⟩

end Sys2Proof.Machine
end

section
/-! PROOFS. Runs over received bytes: the decoder alone as a function of the bytes fed to it (spec/41_decoder.md R120),
and the machine's run over a byte stream in terms of it. -/

namespace Sys2Proof.Machine

/-! ### The decoder fed with bytes -/

/-- The decoder's registers after the bytes, and the events on the way, oldest first. -/
def rxFeed : RxRegs → List Byte → RxRegs × List RxEvent
  | r, [] => (r, [])
  | r, b :: bytes =>
    ((rxFeed (rxStep r b).1 bytes).1, (rxStep r b).2.toList ++ (rxFeed (rxStep r b).1 bytes).2)

/-- A first byte without an event only moves the registers. -/
theorem rxFeed_cons_quiet {r r' : RxRegs} {b : Byte} (h : rxStep r b = (r', none)) (bytes : List Byte) :
    rxFeed r (b :: bytes) = rxFeed r' bytes := by
  rw [rxFeed, h]
  rfl

theorem rxFeed_append (r : RxRegs) (bytes more : List Byte) :
    rxFeed r (bytes ++ more) =
      ((rxFeed (rxFeed r bytes).1 more).1, (rxFeed r bytes).2 ++ (rxFeed (rxFeed r bytes).1 more).2) := by
  induction bytes generalizing r with
  | nil => rfl
  | cons b bytes ih => simp only [List.cons_append, rxFeed, ih, List.append_assoc]

/-- Bytes without an event have no event in any first part of them. -/
theorem rxFeed_take_quiet {r : RxRegs} {bytes : List Byte} (h : (rxFeed r bytes).2 = []) (k : Nat) :
    (rxFeed r (bytes.take k)).2 = [] := by
  rw [← List.take_append_drop k bytes, rxFeed_append] at h
  exact (List.append_eq_nil_iff.mp h).1

/-! ### The counter ranges that R80's rows need -/

/-- The ranges of R29 (b) and (d) for `rx_cnt`: every received byte has a row. -/
def RxRegs.CntInRange (r : RxRegs) : Prop :=
  (r.state = .textBody → r.cnt.toNat ≤ 1023) ∧ (r.state = .binaryPayload → r.cnt.toNat ≤ r.len.toNat + 1)

theorem RxRegs.cntInRange_of_awaitingMarker {r : RxRegs} (h : r.state = .awaitingMarker) : r.CntInRange := by
  constructor <;> intro h' <;> cases h.symm.trans h'

theorem rxStep_cntInRange {r : RxRegs} (h : r.CntInRange) (b : Byte) : (rxStep r b).1.CntInRange := by
  have hlen := r.len.isLt
  obtain ⟨htext, hbin⟩ := h
  obtain ⟨st, len, cnt, crc, trailHi, buf⟩ := r
  cases st <;> simp only [rxStep]
  case awaitingMarker =>
    split
    · exact ⟨fun _ => Nat.zero_le _, nofun⟩
    split
    · exact ⟨nofun, nofun⟩
    · exact RxRegs.cntInRange_of_awaitingMarker rfl
  case textBody =>
    split
    · exact RxRegs.cntInRange_of_awaitingMarker rfl
    split
    · next hc =>
      have hcnt : (cnt + 1).toNat = cnt.toNat + 1 := cnt_add_one_toNat (by omega)
      exact ⟨fun _ => by simp only [hcnt]; omega, nofun⟩
    split
    · exact RxRegs.cntInRange_of_awaitingMarker rfl
    · exact ⟨htext, hbin⟩
  case binaryLength => exact ⟨nofun, fun _ => Nat.zero_le _⟩
  case binaryPayload =>
    have hle : cnt.toNat ≤ len.toNat + 1 := hbin rfl
    have hcnt : (cnt + 1).toNat = cnt.toNat + 1 := cnt_add_one_toNat (by simp only at hlen; omega)
    split
    · exact ⟨nofun, fun _ => by simp only [hcnt]; omega⟩
    split
    · exact ⟨nofun, fun _ => by simp only [hcnt]; omega⟩
    split
    · exact RxRegs.cntInRange_of_awaitingMarker rfl
    · exact ⟨htext, hbin⟩

theorem rxFeed_cntInRange {r : RxRegs} (h : r.CntInRange) (bytes : List Byte) : (rxFeed r bytes).1.CntInRange := by
  induction bytes generalizing r with
  | nil => exact h
  | cons b bytes ih => exact ih (rxStep_cntInRange h b)

/-! ### The machine fed with bytes -/

/-- A received byte alone is taken wherever the decoder's counter is in range, whatever the other agents hold: they are
idle. -/
theorem step_rxCycle {s : State} {b : Byte} {rest : List Item} (hs : s.script = .clock (rxCycle b) :: rest)
    (hr : s.rx.CntInRange) : step s = .next (s.afterCycle (.clock (rxCycle b)) rest) := by
  obtain ⟨htext, hbin⟩ := hr
  obtain ⟨i, hi⟩ := exists_selectRx (v := s.view) b htext hbin
  obtain ⟨t, ht⟩ := exec_of_selected (s := beginCycle (.clock (rxCycle b)) rest s) htext (selectRx_row hi).2
  have hstep : step s = .next t :=
    (step_of_decode hs (decodeClock_rxCycle hi)).trans ((runOps_cons_map_idle i [.tx, .g] _).trans ht)
  rw [hstep, step_clock_next_eq hs hstep]

theorem feedBytes_append (bytes more : List Byte) : feedBytes (bytes ++ more) = feedBytes bytes ++ feedBytes more :=
  List.map_append

/-- A run over a byte stream does to the decoder and its events what feeding the decoder does. -/
theorem run_feedBytes {s : State} {bytes : List Byte} {rest : List Item} (hs : s.script = feedBytes bytes ++ rest)
    (hr : s.rx.CntInRange) :
    ∃ t, run bytes.length s = .next t ∧ t.rx = (rxFeed s.rx bytes).1 ∧
      t.events = s.events ++ (rxFeed s.rx bytes).2 ∧ t.script = rest := by
  induction bytes generalizing s with
  | nil => exact ⟨s, rfl, rfl, (List.append_nil _).symm, hs⟩
  | cons b bytes ih =>
    have hstep := step_rxCycle hs hr
    obtain ⟨t, hrun, hrx, hevents, hrest⟩ :=
      ih (s := s.afterCycle (.clock (rxCycle b)) (feedBytes bytes ++ rest)) rfl (rxStep_cntInRange hr b)
    exact ⟨t, run_succ_next.mpr ⟨_, hstep, hrun⟩, hrx, hevents.trans (List.append_assoc ..), hrest⟩

/-- A frame resolves at its last byte: when the bytes before it have no event, the run has none before it, and there the
decoder's event and registers. -/
theorem run_feedBytes_resolves {s : State} {bytes : List Byte} {b : Byte} {rest : List Item} {r : RxRegs} {e : RxEvent}
    (hs : s.script = feedBytes (bytes ++ [b]) ++ rest) (hr : s.rx.CntInRange) (hquiet : (rxFeed s.rx bytes).2 = [])
    (hlast : rxStep (rxFeed s.rx bytes).1 b = (r, some e)) :
    (∀ k, k < bytes.length + 1 → ∃ u, run k s = .next u ∧ u.events = s.events) ∧
    ∃ t, run (bytes.length + 1) s = .next t ∧ EmitsRx e s t ∧ t.rx = r ∧ t.script = rest := by
  constructor
  · intro k hk
    have hsplit : s.script = feedBytes (bytes.take k) ++ (feedBytes (bytes.drop k ++ [b]) ++ rest) := by
      rw [hs, ← List.append_assoc, ← feedBytes_append, ← List.append_assoc, List.take_append_drop]
    obtain ⟨u, hrun, -, hevents, -⟩ := run_feedBytes hsplit hr
    rw [List.length_take_of_le (Nat.le_of_lt_succ hk)] at hrun
    exact ⟨u, hrun, by rw [hevents, rxFeed_take_quiet hquiet, List.append_nil]⟩
  · rw [feedBytes_append, List.append_assoc] at hs
    obtain ⟨u, hrun, hrx, hevents, hscript⟩ := run_feedBytes hs hr
    have hrange : u.rx.CntInRange := hrx ▸ rxFeed_cntInRange hr bytes
    have hnext : rxCycleNext u.rx (rxCycle b) = (r, some e) := hrx ▸ hlast
    have hstep : run 1 u = .next (u.afterCycle (.clock (rxCycle b)) rest) :=
      run_succ_next.mpr ⟨_, step_rxCycle hscript hrange, rfl⟩
    refine ⟨_, run_add_next.mpr ⟨u, hrun, hstep⟩, ⟨?_, ?_⟩, ?_, rfl⟩
    · simp [State.afterCycle, itemPins, hnext, hevents, hquiet]
    · exact congrArg Prod.snd hnext
    · exact congrArg Prod.fst hnext

/-! ### A binary frame fed to the decoder -/

/-- The buffer with a sequence of bytes written from index `i` on. -/
def Buf.writeFrom (m : Buf) (i : Nat) : List Byte → Buf
  | [] => m
  | b :: bytes => (m.write i b).writeFrom (i + 1) bytes

/-- R122, R127: marker and length byte open a frame's block. -/
theorem rxFeed_markBin_len {r : RxRegs} (hs : r.state = .awaitingMarker) (n : Byte) (bytes : List Byte) :
    rxFeed r (params.markBin :: n :: bytes) =
      rxFeed { r with state := .binaryPayload, len := n, cnt := 0, crc := params.crcInit, trailHi := 0 } bytes := by
  have hmark : rxStep r params.markBin = ({ r with cnt := 0, state := .binaryLength }, none) := by
    rw [rxStep, hs]
    rfl
  rw [rxFeed_cons_quiet hmark]
  exact rxFeed_cons_quiet rfl bytes

/-- R128: the bytes of a block are stored one after the other, summed and counted, without an event. -/
theorem rxFeed_block {r : RxRegs} {bytes : List Byte} (hs : r.state = .binaryPayload)
    (hlen : r.cnt.toNat + bytes.length ≤ r.len.toNat) :
    rxFeed r bytes =
      ({ r with
          buf := r.buf.writeFrom r.cnt.toNat bytes
          crc := bytes.foldl crcStep r.crc
          cnt := BitVec.ofNat 11 (r.cnt.toNat + bytes.length) }, []) := by
  induction bytes generalizing r with
  | nil => simp [rxFeed, Buf.writeFrom]
  | cons b bytes ih =>
    have hN := r.len.isLt
    rw [List.length_cons] at hlen
    have hcnt : (r.cnt + 1).toNat = r.cnt.toNat + 1 := cnt_add_one_toNat (by omega)
    have hstep : rxStep r b =
        ({ r with buf := r.buf.write r.cnt.toNat b, crc := crcStep r.crc b, cnt := r.cnt + 1 }, none) := by
      rw [rxStep, hs]
      exact if_pos (by omega)
    rw [rxFeed_cons_quiet hstep, ih]
    · simp only [hcnt, Buf.writeFrom, List.foldl_cons, List.length_cons, Nat.add_assoc, Nat.add_comm 1]
    · exact hs
    · simp only [hcnt]
      omega

/-- R129: the trailer's high byte is kept for the comparison. -/
theorem rxStep_binCrcHi {r : RxRegs} (hs : r.state = .binaryPayload) (hcnt : r.cnt.toNat = r.len.toNat) (b : Byte) :
    rxStep r b = ({ r with trailHi := b, cnt := r.cnt + 1 }, none) := by
  rw [rxStep, hs]
  exact (if_neg (by omega)).trans (if_pos hcnt)

/-- R130: the trailer's low byte resolves the frame. -/
theorem rxStep_binCrcLo {r : RxRegs} (hs : r.state = .binaryPayload) (hcnt : r.cnt.toNat = r.len.toNat + 1) (b : Byte) :
    rxStep r b = (r.clear, some (judgeEvent r b)) := by
  rw [rxStep, hs]
  exact (if_neg (by omega)).trans ((if_neg (by omega)).trans (if_pos hcnt))

/-- The decoder's registers before the last byte of a frame that began with buffer `m`. -/
def RxRegs.beforeCrcLo (m : Buf) (n : Byte) (bytes : List Byte) (hi : Byte) : RxRegs where
  state := .binaryPayload
  len := n
  cnt := BitVec.ofNat 11 (n.toNat + 1)
  crc := crc16 bytes
  trailHi := hi
  buf := m.writeFrom 0 bytes

/-- R122, R127 to R129: a frame up to its trailer's high byte, without an event. -/
theorem rxFeed_upto_crcHi {r : RxRegs} {n : Byte} {bytes : List Byte} (hs : r.state = .awaitingMarker)
    (hlen : bytes.length = n.toNat) (hi : Byte) :
    rxFeed r (params.markBin :: n :: (bytes ++ [hi])) = (RxRegs.beforeCrcLo r.buf n bytes hi, []) := by
  have hN := n.isLt
  have hopen := rxFeed_markBin_len hs n (bytes ++ [hi])
  have hblock := rxFeed_block (bytes := bytes)
    (r := { r with state := .binaryPayload, len := n, cnt := 0, crc := params.crcInit, trailHi := 0 }) rfl
    (by simp [hlen])
  rw [hopen, rxFeed_append, hblock, rxFeed_cons_quiet (rxStep_binCrcHi rfl ?_ hi)]
  · simp [rxFeed, RxRegs.beforeCrcLo, crc16, hlen, BitVec.ofNat_add]
  · simp [hlen]; omega

/-- R130: the last byte of a frame with the checksum `crcRx` for its trailer. -/
theorem rxStep_beforeCrcLo (m : Buf) (n : Byte) (bytes : List Byte) (hi lo : Byte) :
    rxStep (RxRegs.beforeCrcLo m n bytes hi) lo =
      ((RxRegs.beforeCrcLo m n bytes hi).clear, some (judgeEvent (RxRegs.beforeCrcLo m n bytes hi) lo)) := by
  have hN := n.isLt
  refine rxStep_binCrcLo rfl ?_ lo
  simp only [RxRegs.beforeCrcLo, BitVec.toNat_ofNat]
  omega

/-- R130: a trailer other than the checksum of the block is a mismatch, with both values. -/
theorem judgeEvent_of_wrong_trailer {x : U16} {bytes : List Byte} (h : x ≠ crc16 bytes) (m : Buf) (n : Byte) :
    judgeEvent (RxRegs.beforeCrcLo m n bytes (hi8 x)) (lo8 x) = .crcMismatch n x (crc16 bytes) := by
  have hrx : be16 (hi8 x) (lo8 x) = x := be16_hi8_lo8 x
  rw [judgeEvent, if_pos (by simpa only [RxRegs.beforeCrcLo, hrx] using h.symm)]
  simp only [RxRegs.beforeCrcLo, hrx]

theorem RxRegs.clear_idle (r : RxRegs) : r.clear.Idle := ⟨rfl, ⟨rfl, rfl, rfl⟩, rfl⟩

/-- A frame, as the machine receives it from an idle decoder: no event before its last byte, and there the event of R130
and the idle decoder. -/
theorem run_frame {s : State} {n : Byte} {bytes : List Byte} {hi lo : Byte} {rest : List Item}
    (hstate : s.rx.state = .awaitingMarker) (hlen : bytes.length = n.toNat)
    (hscript : s.script = feedBytes (params.markBin :: n :: (bytes ++ [hi, lo])) ++ rest) :
    (∀ k, k < bytes.length + 4 → ∃ u, run k s = .next u ∧ u.events = s.events) ∧
    ∃ t, run (bytes.length + 4) s = .next t ∧
      EmitsRx (judgeEvent (RxRegs.beforeCrcLo s.rx.buf n bytes hi) lo) s t ∧
      t.rx = (RxRegs.beforeCrcLo s.rx.buf n bytes hi).clear ∧ t.script = rest := by
  have hfeed := rxFeed_upto_crcHi hstate hlen hi
  have hsplit : params.markBin :: n :: (bytes ++ [hi, lo]) = (params.markBin :: n :: (bytes ++ [hi])) ++ [lo] := by
    simp
  have hcount : bytes.length + 4 = (params.markBin :: n :: (bytes ++ [hi])).length + 1 := by simp
  rw [hsplit] at hscript
  rw [hcount]
  refine run_feedBytes_resolves hscript (RxRegs.cntInRange_of_awaitingMarker hstate) (by rw [hfeed]) ?_
  rw [hfeed]
  exact rxStep_beforeCrcLo s.rx.buf n bytes hi lo

/-- Settles O55: a bad frame is a frame whose checksum test fails. -/
theorem wrongTrailerIsAlwaysCaught : Obligations.WrongTrailerIsAlwaysCaught := by
  intro s op args x rest hidle hargs hx hscript
  obtain ⟨hstate, -, -⟩ := hidle
  have hcount : args.length + 5 = (op :: args).length + 4 := rfl
  have hn : 1 + args.length = (op :: args).length := Nat.add_comm ..
  have hlen : (op :: args).length = (BitVec.ofNat 8 (op :: args).length).toNat := by
    simp only [List.length_cons, BitVec.toNat_ofNat]
    omega
  obtain ⟨hbefore, t, hrun, hemits, hrx, -⟩ := run_frame hstate hlen hscript
  rw [judgeEvent_of_wrong_trailer hx] at hemits
  rw [hcount, hn]
  exact ⟨hbefore, t, hrun, hemits, hrx ▸ RxRegs.clear_idle _⟩

end Sys2Proof.Machine
end

section
/-! PROOFS. The CRC port over a run (spec/40_crc.md R106). -/

namespace Sys2Proof.Machine

/-- R29 and R45 are kept by every cycle. -/
theorem afterCycle_inv {s : State} (hs : s.Inv) (item : Item) (rest : List Item) : (s.afterCycle item rest).Inv :=
  ⟨rxCycleNext_inv hs.1 (itemPins item), txCycleNext_inv hs.2 (itemPins item)⟩

/-- The bytes presented to the CRC port in some cycles, in order. -/
def gBytes (ps : List InPins) : List Byte := (ps.filter (·.gEn)).map (·.gData)

/-- R106: a cycle without `rst` and `g_init` takes in the byte presented, if there is one. -/
theorem foldl_gBytes_cons {p : InPins} (hrst : p.rst = false) (hinit : p.gInit = false) (g : U16) (ps : List InPins) :
    (gBytes (p :: ps)).foldl crcStep g = (gBytes ps).foldl crcStep (gCycleNext g p) := by
  cases hen : p.gEn <;> simp [gBytes, gCycleNext, gCycleStep, hrst, hinit, hen]

/-- R106, R60: the run answers, and the CRC port has taken in the bytes presented to it. -/
theorem run_gPort {s : State} {ps : List InPins} {rest : List Item} (hs : s.Inv)
    (hscript : s.script = ps.map .clock ++ rest) (hps : ∀ p ∈ ps, p.rst = false ∧ p.gInit = false) :
    ∃ t, run ps.length s = .next t ∧ t.gCrc = (gBytes ps).foldl crcStep s.gCrc := by
  induction ps generalizing s with
  | nil => exact ⟨s, rfl, rfl⟩
  | cons p ps ih =>
    obtain ⟨⟨hrst, hinit⟩, htail⟩ := List.forall_mem_cons.mp hps
    have hstep : step s = .next (s.afterCycle (.clock p) (ps.map .clock ++ rest)) :=
      (step_cons hscript).trans (cycle_of_inv hs _ _)
    obtain ⟨t, hrun, hg⟩ := ih (afterCycle_inv hs (.clock p) (ps.map .clock ++ rest)) rfl htail
    exact ⟨t, run_succ_next.mpr ⟨_, hstep, hrun⟩, hg.trans (foldl_gBytes_cons hrst hinit s.gCrc ps).symm⟩

/-- Settles O11: `run_gPort`; from `CRC_INIT` the fold is `crc16`, and `g_crc_out` is `g_crc`. -/
theorem gPortChecksumsWhatItIsGiven : Obligations.GPortChecksumsWhatItIsGiven := by
  intro s ps rest hs hscript hps
  obtain ⟨t, hrun, hg⟩ := run_gPort hs hscript hps
  exact ⟨t, hrun, hg, fun hinit => hg.trans (by rw [hinit]; rfl)⟩

end Sys2Proof.Machine
end

section
/-! PROOFS. The decoder's operations, row by row (spec/41_decoder.md R121 to R130): what a received byte does in each row
of R80's table, and that the operation selected for it does exactly that. -/

namespace Sys2Proof.Machine

/-! ### A received byte, row by row -/

/-- R121 -/
theorem rxStep_markText {r : RxRegs} (hs : r.state = .awaitingMarker) :
    rxStep r params.markText = ({ r with cnt := 0, state := .textBody }, none) := by
  rw [rxStep, hs]
  rfl

/-- R122 -/
theorem rxStep_markBin {r : RxRegs} (hs : r.state = .awaitingMarker) :
    rxStep r params.markBin = ({ r with cnt := 0, state := .binaryLength }, none) := by
  rw [rxStep, hs]
  rfl

/-- R123 -/
theorem rxStep_markBad {r : RxRegs} {b : Byte} (hs : r.state = .awaitingMarker) (hText : b ≠ params.markText)
    (hBin : b ≠ params.markBin) : rxStep r b = (r.clear, some (.unrecognizedMarker b)) := by
  rw [rxStep, hs]
  exact (if_neg hText).trans (if_neg hBin)

/-- R124 -/
theorem rxStep_textData {r : RxRegs} {b : Byte} (hs : r.state = .textBody) (hb : b ≠ params.textEnd)
    (hc : r.cnt.toNat + 1 < 1024) :
    rxStep r b = ({ r with buf := r.buf.write r.cnt.toNat b, cnt := r.cnt + 1 }, none) := by
  rw [rxStep, hs]
  exact (if_neg hb).trans (if_pos hc)

/-- R125 -/
theorem rxStep_textEnd {r : RxRegs} (hs : r.state = .textBody) :
    rxStep r params.textEnd = (r.clear, some (.textBlock (r.buf.slice 0 r.cnt.toNat))) := by
  rw [rxStep, hs]
  rfl

/-- R126, in a canonical buffer: the event carries the bytes before and the byte itself. -/
theorem rxStep_textTrunc {r : RxRegs} {b : Byte} (hs : r.state = .textBody) (hbuf : r.buf.wf = true)
    (hb : b ≠ params.textEnd) (hc : r.cnt.toNat = 1023) :
    rxStep r b =
      (RxRegs.clear { r with buf := r.buf.write 1023 b }, some (.textTruncated (r.buf.slice 0 1023 ++ [b]))) := by
  have hslice : (r.buf.write 1023 b).slice 0 1024 = r.buf.slice 0 1023 ++ [b] := Buf.slice_write_succ hbuf 0 1023 b
  rw [rxStep, hs, ← hslice]
  simp only [hc]
  exact if_neg hb

/-- R127 -/
theorem rxStep_len {r : RxRegs} (hs : r.state = .binaryLength) (n : Byte) :
    rxStep r n =
      ({ r with len := n, cnt := 0, crc := params.crcInit, trailHi := 0, state := .binaryPayload }, none) := by
  rw [rxStep, hs]

/-- R128 -/
theorem rxStep_binData {r : RxRegs} (hs : r.state = .binaryPayload) (hc : r.cnt.toNat < r.len.toNat) (b : Byte) :
    rxStep r b = ({ r with buf := r.buf.write r.cnt.toNat b, crc := crcStep r.crc b, cnt := r.cnt + 1 }, none) := by
  rw [rxStep, hs]
  exact if_pos hc

/-! ### The operation that a row names -/

theorem keepsOutsideRx_putRx (s : State) (x : RxRegs × Option RxEvent) : KeepsOutsideRx s (s.putRx x) :=
  ⟨rfl, rfl, rfl, rfl, rfl, rfl⟩

theorem noRxEvent_putRx (s : State) (r : RxRegs) : NoRxEvent s (s.putRx (r, none)) := ⟨List.append_nil _, rfl⟩

theorem emitsRx_putRx (s : State) (r : RxRegs) (e : RxEvent) : EmitsRx e s (s.putRx (r, some e)) := ⟨rfl, rfl⟩

/-- The row's operation is selected for its byte, and it does to the decoder what the byte does. -/
theorem exec_rx_row {s : State} {b : Byte} {i : Instr} (henc : encode i = .clock (rxCycle b))
    (hsel : SelectedIn s.view i) (htext : s.rx.state = .textBody → s.rx.cnt.toNat ≤ 1023) :
    selectRx s.view b = .ok i ∧ exec i s = .next (s.putRx (rxStep s.rx b)) := by
  have hi := selectRx_of_row henc hsel
  obtain ⟨t, ht⟩ := exec_of_selected htext hsel
  exact ⟨hi, ht.trans (congrArg _ (exec_selectRx hi ht))⟩

/-- A row without an event: its operation replaces the decoder's registers, and nothing else changes. -/
theorem exec_rx_row_quiet {s : State} {b : Byte} {i : Instr} {r : RxRegs} (henc : encode i = .clock (rxCycle b))
    (hsel : SelectedIn s.view i) (htext : s.rx.state = .textBody → s.rx.cnt.toNat ≤ 1023)
    (hstep : rxStep s.rx b = (r, none)) :
    selectRx s.view b = .ok i ∧
    ∃ t, exec i s = .next t ∧ t.rx = r ∧ NoRxEvent s t ∧ KeepsOutsideRx s t := by
  obtain ⟨hi, hexec⟩ := exec_rx_row henc hsel htext
  rw [hstep] at hexec
  exact ⟨hi, _, hexec, rfl, noRxEvent_putRx s r, keepsOutsideRx_putRx s _⟩

/-- A row with an event: its operation replaces the decoder's registers and emits the event, and nothing else changes. -/
theorem exec_rx_row_event {s : State} {b : Byte} {i : Instr} {r : RxRegs} {e : RxEvent}
    (henc : encode i = .clock (rxCycle b)) (hsel : SelectedIn s.view i)
    (htext : s.rx.state = .textBody → s.rx.cnt.toNat ≤ 1023) (hstep : rxStep s.rx b = (r, some e)) :
    selectRx s.view b = .ok i ∧
    ∃ t, exec i s = .next t ∧ t.rx = r ∧ EmitsRx e s t ∧ KeepsOutsideRx s t := by
  obtain ⟨hi, hexec⟩ := exec_rx_row henc hsel htext
  rw [hstep] at hexec
  exact ⟨hi, _, hexec, rfl, emitsRx_putRx s r e, keepsOutsideRx_putRx s _⟩

/-- Outside `TextBody` the text counter's range is no condition. -/
theorem textRange_of_state {r : RxRegs} {st : RxState} (hs : r.state = st) (hne : st ≠ .textBody) :
    r.state = .textBody → r.cnt.toNat ≤ 1023 := fun h => absurd (hs.symm.trans h) hne

theorem keepsBuf_of_eq {s t : State} (h : t.rx.buf = s.rx.buf) : KeepsBuf s t := fun a => congrArg (Buf.read · a) h

/-! ### The statements -/

/-- Settles O12: the row of `MARK_TEXT`. -/
theorem markTextOpensTextBody : Obligations.MarkTextOpensTextBody := by
  intro s hs
  obtain ⟨hsel, t, hexec, hrx, hev, hkeep⟩ := exec_rx_row_quiet (i := .rxMarkText) rfl ⟨rfl, beq_iff_eq.mpr hs⟩
    (textRange_of_state hs nofun) (rxStep_markText hs)
  exact ⟨hsel, t, hexec, hrx, hev, keepsBuf_of_eq (hrx ▸ rfl), hkeep⟩

/-- Settles O13: the row of `MARK_BIN`. -/
theorem markBinOpensBinaryFrame : Obligations.MarkBinOpensBinaryFrame := by
  intro s hs
  obtain ⟨hsel, t, hexec, hrx, hev, hkeep⟩ := exec_rx_row_quiet (i := .rxMarkBin) rfl ⟨rfl, beq_iff_eq.mpr hs⟩
    (textRange_of_state hs nofun) (rxStep_markBin hs)
  exact ⟨hsel, t, hexec, hrx, hev, keepsBuf_of_eq (hrx ▸ rfl), hkeep⟩

/-- Settles O14: the row of every other byte; the registers after it are those of `rx_clear()`. -/
theorem markBadReportsTheByte : Obligations.MarkBadReportsTheByte := by
  intro s b hs hText hBin
  have hw : (Instr.rxMarkBad b).wellFormed = true :=
    Bool.and_eq_true_iff.mpr ⟨bne_iff_ne.mpr hText, bne_iff_ne.mpr hBin⟩
  obtain ⟨hsel, t, hexec, hrx, hev, hkeep⟩ := exec_rx_row_event (i := .rxMarkBad b) rfl ⟨hw, beq_iff_eq.mpr hs⟩
    (textRange_of_state hs nofun) (rxStep_markBad hs hText hBin)
  exact ⟨hsel, t, hexec, hev, hrx ▸ RxRegs.clear_idle _, keepsBuf_of_eq (hrx ▸ rfl), hkeep⟩

/-- Settles O15: the row of a text byte below the cap. -/
theorem textDataStoresTheByte : Obligations.TextDataStoresTheByte := by
  intro s b hbuf hs hb hc
  have he : (Instr.rxTextData b).enabledIn s.view = true := by simpa [Instr.enabledIn, hs] using hc
  obtain ⟨hsel, t, hexec, hrx, hev, hkeep⟩ := exec_rx_row_quiet (i := .rxTextData b) rfl ⟨bne_iff_ne.mpr hb, he⟩
    (fun _ => by omega) (rxStep_textData hs hb hc)
  have hcnt : t.rx.cnt.toNat = s.rx.cnt.toNat + 1 := hrx ▸ cnt_add_one_toNat (by omega)
  exact ⟨hsel, t, hexec, storesOnly_of_write hbuf (hrx ▸ rfl), hcnt, hrx ▸ rfl, hev, hkeep⟩

/-- Settles O16: the read of the text is inside the buffer up to a counter of 1024. -/
theorem textEndEmitsTheText : Obligations.TextEndEmitsTheText := by
  intro s hs hc
  have hsel : SelectedIn s.view .rxTextEnd := ⟨rfl, beq_iff_eq.mpr hs⟩
  have hexec : exec .rxTextEnd s = .next (s.resolve (.textBlock (s.rx.buf.slice 0 s.rx.cnt.toNat))) :=
    (whenSelected_of_enabled hsel.1 hsel.2).trans (withRead_of_le (by omega))
  exact ⟨selectRx_of_row rfl hsel, _, hexec, ⟨rfl, rfl⟩, RxRegs.clear_idle _, keepsBuf_of_eq rfl,
    rfl, rfl, rfl, rfl, rfl, rfl⟩

/-- Settles O17: the row of a text byte at the cap. -/
theorem textTruncEmitsAllCollected : Obligations.TextTruncEmitsAllCollected := by
  intro s b hbuf hs hb hc
  have he : (Instr.rxTextTrunc b).enabledIn s.view = true := by simpa [Instr.enabledIn, hs] using hc
  obtain ⟨hsel, t, hexec, hrx, hev, hkeep⟩ := exec_rx_row_event (i := .rxTextTrunc b) rfl ⟨bne_iff_ne.mpr hb, he⟩
    (fun _ => by omega) (rxStep_textTrunc hs hbuf hb (by omega))
  exact ⟨hsel, t, hexec, hev, hrx ▸ RxRegs.clear_idle _, storesOnly_of_write hbuf (hrx ▸ rfl), hkeep⟩

/-- Settles O18: the row of the length byte. -/
theorem lenOpensPayload : Obligations.LenOpensPayload := by
  intro s n hs
  obtain ⟨hsel, t, hexec, hrx, hev, hkeep⟩ := exec_rx_row_quiet (i := .rxLen n) rfl ⟨rfl, beq_iff_eq.mpr hs⟩
    (textRange_of_state hs nofun) (rxStep_len hs n)
  exact ⟨hsel, t, hexec, hrx, hev, keepsBuf_of_eq (hrx ▸ rfl), hkeep⟩

/-- Settles O19: the row of a block byte. -/
theorem binDataAccumulates : Obligations.BinDataAccumulates := by
  intro s b hbuf hs hc
  have hlen := s.rx.len.isLt
  have he : (Instr.rxBinData b).enabledIn s.view = true := by simpa [Instr.enabledIn, hs] using hc
  obtain ⟨hsel, t, hexec, hrx, hev, hkeep⟩ := exec_rx_row_quiet (i := .rxBinData b) rfl ⟨rfl, he⟩
    (textRange_of_state hs nofun) (rxStep_binData hs hc b)
  have hcnt : t.rx.cnt.toNat = s.rx.cnt.toNat + 1 := hrx ▸ cnt_add_one_toNat (by omega)
  exact ⟨hsel, t, hexec, storesOnly_of_write hbuf (hrx ▸ rfl), hcnt, hrx ▸ rfl, hrx ▸ rfl, hev, hkeep⟩

/-- Settles O20: the row of the trailer's high byte. -/
theorem binCrcHiHoldsTheByte : Obligations.BinCrcHiHoldsTheByte := by
  intro s b hs hc
  have hlen := s.rx.len.isLt
  have he : (Instr.rxBinCrcHi b).enabledIn s.view = true := by simpa [Instr.enabledIn, hs] using hc
  obtain ⟨hsel, t, hexec, hrx, hev, hkeep⟩ := exec_rx_row_quiet (i := .rxBinCrcHi b) rfl ⟨rfl, he⟩
    (textRange_of_state hs nofun) (rxStep_binCrcHi hs hc b)
  have hcnt : t.rx.cnt.toNat = s.rx.cnt.toNat + 1 := hrx ▸ cnt_add_one_toNat (by omega)
  exact ⟨hsel, t, hexec, hcnt, hrx ▸ rfl, hev, keepsBuf_of_eq (hrx ▸ rfl), hkeep⟩

/-- R130: the checksum test comes first. -/
theorem judgeEvent_of_mismatch {r : RxRegs} {b : Byte} (h : r.crc ≠ be16 r.trailHi b) :
    judgeEvent r b = .crcMismatch r.len (be16 r.trailHi b) r.crc := if_pos h

/-- R130: a frame without a block, with the right checksum. -/
theorem judgeEvent_of_empty {r : RxRegs} {b : Byte} (h : r.crc = be16 r.trailHi b) (hlen : r.len = 0) :
    judgeEvent r b = .emptyFrame (be16 r.trailHi b) := (if_neg (not_not_intro h)).trans (if_pos hlen)

/-- R130: a frame with a block and the right checksum. -/
theorem judgeEvent_of_frame {r : RxRegs} {b : Byte} (h : r.crc = be16 r.trailHi b) (hlen : r.len ≠ 0) :
    judgeEvent r b = .frame (r.buf.read 0) (r.buf.slice 1 (r.len.toNat - 1)) r.len (be16 r.trailHi b) :=
  (if_neg (not_not_intro h)).trans (if_neg hlen)

/-- Settles O21: the row of the trailer's low byte, and the three branches of its event. -/
theorem binCrcLoJudgesTheFrame : Obligations.BinCrcLoJudgesTheFrame := by
  intro s b hs hc
  have he : (Instr.rxBinCrcLo b).enabledIn s.view = true := by simpa [Instr.enabledIn, hs] using hc
  obtain ⟨hsel, t, hexec, hrx, hev, hkeep⟩ := exec_rx_row_event (i := .rxBinCrcLo b) rfl ⟨rfl, he⟩
    (textRange_of_state hs nofun) (rxStep_binCrcLo hs hc b)
  exact ⟨hsel, t, hexec, hrx ▸ RxRegs.clear_idle _, keepsBuf_of_eq (hrx ▸ rfl), hkeep,
    fun h => judgeEvent_of_mismatch h ▸ hev, fun h hlen => judgeEvent_of_empty h hlen ▸ hev,
    fun h hlen => judgeEvent_of_frame h hlen ▸ hev⟩

end Sys2Proof.Machine
end

section
/-! PROOFS. Whole frames fed to the decoder (spec/41_decoder.md R132, R134): each kind of frame resolves at its last byte,
with the event that R135 gives the frame as a whole, and leaves the decoder idle. -/

namespace Sys2Proof.Machine

/-! ### The bytes a frame writes to the buffer -/

theorem Buf.writeFrom_wf {m : Buf} {i : Nat} {bytes : List Byte} (hm : m.wf = true) (h : i + bytes.length ≤ 1024) :
    (m.writeFrom i bytes).wf = true := by
  induction bytes generalizing m i with
  | nil => exact hm
  | cons b bytes ih =>
    rw [List.length_cons] at h
    exact ih (Buf.write_wf hm (by simp only; omega) b) (by omega)

/-- What is written from an index on leaves the bytes below it. -/
theorem Buf.read_writeFrom_of_lt {m : Buf} {a i : Nat} {bytes : List Byte} (hm : m.wf = true)
    (h : i + bytes.length ≤ 1024) (ha : a < i) : (m.writeFrom i bytes).read a = m.read a := by
  induction bytes generalizing m i with
  | nil => rfl
  | cons b bytes ih =>
    rw [List.length_cons] at h
    rw [Buf.writeFrom, ih (Buf.write_wf hm (by simp only; omega) b) (by omega) (by omega), Buf.read_write hm,
      if_neg (by omega)]

/-- What is written from an index on is read back there. -/
theorem Buf.slice_writeFrom {m : Buf} {i : Nat} {bytes : List Byte} (hm : m.wf = true) (h : i + bytes.length ≤ 1024) :
    (m.writeFrom i bytes).slice i bytes.length = bytes := by
  induction bytes generalizing m i with
  | nil => rfl
  | cons b bytes ih =>
    rw [List.length_cons] at h
    have hwf : (m.write i b).wf = true := Buf.write_wf hm (by simp only; omega) b
    rw [List.length_cons, Buf.writeFrom, Buf.slice_cons, ih hwf (by omega),
      Buf.read_writeFrom_of_lt hwf (by omega) (Nat.lt_succ_self i), Buf.read_write hm, if_pos rfl]

/-! ### Frames that resolve at their last byte -/

/-- `frame` is one frame for the decoder `r`: the bytes before the last have no event, and the last has the event `e` and
leaves the decoder idle with a canonical buffer. -/
def Resolves (r : RxRegs) (frame : List Byte) (e : RxEvent) : Prop :=
  ∃ init last r', frame = init ++ [last] ∧ (rxFeed r init).2 = [] ∧ rxStep (rxFeed r init).1 last = (r', some e) ∧
    r'.Idle ∧ r'.buf.wf = true

/-- A frame's only event is the one at its last byte. -/
theorem Resolves.rxFeed_eq {r : RxRegs} {frame : List Byte} {e : RxEvent} (h : Resolves r frame e) :
    ∃ r', rxFeed r frame = (r', [e]) ∧ r'.Idle ∧ r'.buf.wf = true := by
  obtain ⟨init, last, r', rfl, hquiet, hlast, hidle, hwf⟩ := h
  refine ⟨r', ?_, hidle, hwf⟩
  rw [rxFeed_append, hquiet, rxFeed, hlast]
  rfl

/-- A frame, as the machine receives it: no event before its last byte, and there its event and the idle decoder. -/
theorem Resolves.run_eq {s : State} {frame : List Byte} {e : RxEvent} {rest : List Item} (h : Resolves s.rx frame e)
    (hstate : s.rx.state = .awaitingMarker) (hscript : s.script = feedBytes frame ++ rest) :
    (∀ k, k < frame.length → ∃ u, run k s = .next u ∧ u.events = s.events) ∧
    ∃ t, run frame.length s = .next t ∧ EmitsRx e s t ∧ t.rx.Idle ∧ t.script = rest := by
  obtain ⟨init, last, r', rfl, hquiet, hlast, hidle, -⟩ := h
  obtain ⟨hbefore, t, hrun, hemits, hrx, hrest⟩ :=
    run_feedBytes_resolves hscript (RxRegs.cntInRange_of_awaitingMarker hstate) hquiet hlast
  rw [List.length_append, List.length_singleton]
  exact ⟨hbefore, t, hrun, hemits, hrx ▸ hidle, hrest⟩

/-- R123: a byte that is no marker is a frame of its own. -/
theorem resolves_badMarker {r : RxRegs} {b : Byte} (hs : r.state = .awaitingMarker) (hbuf : r.buf.wf = true)
    (hText : b ≠ params.markText) (hBin : b ≠ params.markBin) : Resolves r [b] (.unrecognizedMarker b) :=
  ⟨[], b, r.clear, rfl, rfl, rxStep_markBad hs hText hBin, RxRegs.clear_idle r, hbuf⟩

/-! ### Binary frames -/

/-- R130: the judgement of a frame whose trailer is not its checksum. -/
theorem judgeFrame_of_mismatch {bytes : List Byte} {crc : U16} (h : crc16 bytes ≠ crc) (n : Byte) :
    judgeFrame n bytes crc = .crcMismatch n crc (crc16 bytes) := if_pos h

/-- R130: the judgement of a frame without a block, with the right checksum. -/
theorem judgeFrame_of_empty {crc : U16} (h : crc16 [] = crc) (n : Byte) : judgeFrame n [] crc = .emptyFrame crc :=
  if_neg (not_not_intro h)

/-- R130: the judgement of a frame with a block and the right checksum. -/
theorem judgeFrame_of_block {op : Byte} {args : List Byte} {crc : U16} (h : crc16 (op :: args) = crc) (n : Byte) :
    judgeFrame n (op :: args) crc = .frame op args n crc := if_neg (not_not_intro h)

/-- R130 on the registers before a frame's last byte is the judgement of the whole frame. -/
theorem judgeEvent_beforeCrcLo {m : Buf} {n : Byte} {bytes : List Byte} (hm : m.wf = true)
    (hlen : bytes.length = n.toNat) (hi lo : Byte) :
    judgeEvent (RxRegs.beforeCrcLo m n bytes hi) lo = judgeFrame n bytes (be16 hi lo) := by
  by_cases hcrc : crc16 bytes = be16 hi lo
  · cases bytes with
    | nil => exact (judgeEvent_of_empty hcrc (BitVec.eq_of_toNat_eq hlen.symm)).trans (judgeFrame_of_empty hcrc n).symm
    | cons op args =>
      have hN := n.isLt
      have hne : n ≠ 0 := fun h => Nat.succ_ne_zero _ (hlen.trans (congrArg BitVec.toNat h))
      have hcount : n.toNat - 1 = args.length := by rw [← hlen]; rfl
      have hblock : (m.writeFrom 0 (op :: args)).slice 0 (args.length + 1) = op :: args :=
        Buf.slice_writeFrom hm (by omega)
      rw [Buf.slice_cons, List.cons.injEq] at hblock
      obtain ⟨hop, hargs⟩ := hblock
      rw [judgeFrame_of_block hcrc, judgeEvent_of_frame hcrc hne]
      simp only [RxRegs.beforeCrcLo, hop, hcount, hargs]
  · rw [judgeFrame_of_mismatch hcrc]
    exact judgeEvent_of_mismatch hcrc

/-- R127 to R130: marker, length byte, as many block bytes as it says, and the trailer are one frame. -/
theorem resolves_frame {r : RxRegs} {n : Byte} {bytes : List Byte} (hs : r.state = .awaitingMarker)
    (hbuf : r.buf.wf = true) (hlen : bytes.length = n.toNat) (hi lo : Byte) :
    Resolves r (params.markBin :: n :: (bytes ++ [hi, lo])) (judgeFrame n bytes (be16 hi lo)) := by
  have hN := n.isLt
  have hfeed := rxFeed_upto_crcHi hs hlen hi
  refine ⟨params.markBin :: n :: (bytes ++ [hi]), lo, (RxRegs.beforeCrcLo r.buf n bytes hi).clear, by simp,
    congrArg Prod.snd hfeed, ?_, RxRegs.clear_idle _, Buf.writeFrom_wf hbuf (by omega)⟩
  rw [hfeed, ← judgeEvent_beforeCrcLo hbuf hlen]
  exact rxStep_beforeCrcLo r.buf n bytes hi lo

/-- What `encode` gives for arguments within the limit, with the length byte that counts the block. -/
theorem wireBytes_of_encodeFrame {op : Byte} {args bytes : List Byte} (h : encodeFrame op args = .wire bytes) :
    bytes = wireBytes op args ∧ (op :: args).length = (BitVec.ofNat 8 (op :: args).length).toNat := by
  unfold encodeFrame block at h
  split at h
  · cases h
  · next hle =>
    cases h
    exact ⟨rfl, (Nat.mod_eq_of_lt (by simp only at hle; omega)).symm⟩

/-- Settles O54: what the encoder sends after the marker is one frame, whose trailer is its own checksum. -/
theorem decoderInvertsEncoder : Obligations.DecoderInvertsEncoder := by
  intro s op args bytes rest hidle hbuf hargs henc hscript
  obtain ⟨hstate, -, -⟩ := hidle
  obtain ⟨rfl, hlen⟩ := wireBytes_of_encodeFrame henc
  have hframe := resolves_frame hstate hbuf hlen (hi8 (crc16 (op :: args))) (lo8 (crc16 (op :: args)))
  rw [be16_hi8_lo8, judgeFrame_of_block rfl] at hframe
  have hcount : args.length + 5 = ([0xFF#8] ++ wireBytes op args).length := by simp [wireBytes, block, trailer]
  rw [hcount, Nat.add_comm 1]
  exact hframe.run_eq hstate hscript

/-! ### Text frames -/

/-- R124: the bytes of a text are stored one after the other and counted, without an event. -/
theorem rxFeed_text {r : RxRegs} {bytes : List Byte} (hs : r.state = .textBody) (hb : params.textEnd ∉ bytes)
    (hlen : r.cnt.toNat + bytes.length ≤ 1023) :
    rxFeed r bytes =
      ({ r with
          buf := r.buf.writeFrom r.cnt.toNat bytes
          cnt := BitVec.ofNat 11 (r.cnt.toNat + bytes.length) }, []) := by
  induction bytes generalizing r with
  | nil => simp [rxFeed, Buf.writeFrom]
  | cons b bytes ih =>
    rw [List.length_cons] at hlen
    obtain ⟨hne, hb⟩ := List.ne_and_not_mem_of_not_mem_cons hb
    have hcnt : (r.cnt + 1).toNat = r.cnt.toNat + 1 := cnt_add_one_toNat (by omega)
    rw [rxFeed_cons_quiet (rxStep_textData hs hne.symm (by omega)), ih]
    · simp only [hcnt, Buf.writeFrom, List.length_cons, Nat.add_assoc, Nat.add_comm 1]
    · exact hs
    · exact hb
    · simp only [hcnt]
      omega

/-- The decoder's registers after a text's marker and the bytes `body` of the text. -/
def RxRegs.inText (r : RxRegs) (body : List Byte) : RxRegs :=
  { r with state := .textBody, cnt := BitVec.ofNat 11 body.length, buf := r.buf.writeFrom 0 body }

theorem RxRegs.inText_cnt {body : List Byte} (h : body.length ≤ 1023) (r : RxRegs) :
    (r.inText body).cnt.toNat = body.length := Nat.mod_eq_of_lt (by omega)

/-- R121, R124: a text's marker and a part of its bytes, without an event. -/
theorem rxFeed_markText {r : RxRegs} {body : List Byte} (hs : r.state = .awaitingMarker) (hb : params.textEnd ∉ body)
    (hlen : body.length ≤ 1023) : rxFeed r (params.markText :: body) = (r.inText body, []) := by
  rw [rxFeed_cons_quiet (rxStep_markText hs), rxFeed_text rfl hb (by simpa using hlen)]
  simp [RxRegs.inText]

/-- R125: a text of at most 1023 bytes resolves at its terminator. -/
theorem resolves_text {r : RxRegs} {body : List Byte} (hs : r.state = .awaitingMarker) (hbuf : r.buf.wf = true)
    (hb : params.textEnd ∉ body) (hlen : body.length ≤ 1023) : Resolves r (textBytes body) (.textBlock body) := by
  have hfeed := rxFeed_markText hs hb hlen
  have htext : (r.inText body).buf.slice 0 (r.inText body).cnt.toNat = body := by
    rw [RxRegs.inText_cnt hlen]
    exact Buf.slice_writeFrom hbuf (by omega)
  refine ⟨params.markText :: body, params.textEnd, (r.inText body).clear, rfl, congrArg Prod.snd hfeed, ?_,
    RxRegs.clear_idle _, Buf.writeFrom_wf hbuf (by omega)⟩
  rw [hfeed, rxStep_textEnd rfl, htext]

/-- R126: a text that reaches 1024 bytes resolves at the 1024th. -/
theorem resolves_truncatedText {r : RxRegs} {body : List Byte} (hs : r.state = .awaitingMarker)
    (hbuf : r.buf.wf = true) (hb : params.textEnd ∉ body) (hlen : body.length = 1024) :
    Resolves r (params.markText :: body) (.textTruncated body) := by
  obtain ⟨init, last, rfl⟩ : ∃ init last, body = init ++ [last] :=
    ⟨_, _, (List.dropLast_append_getLast (List.ne_nil_of_length_pos (by omega))).symm⟩
  rw [List.length_append, List.length_singleton] at hlen
  have hinit : init.length = 1023 := Nat.succ.inj hlen
  rw [List.mem_append, not_or, List.mem_singleton] at hb
  obtain ⟨hb, hlast⟩ := hb
  have hwf : (r.inText init).buf.wf = true := Buf.writeFrom_wf hbuf (by omega)
  have hfeed := rxFeed_markText hs hb hinit.le
  have htext : (r.inText init).buf.slice 0 1023 = init := hinit ▸ Buf.slice_writeFrom hbuf (by omega)
  refine ⟨params.markText :: init, last, RxRegs.clear { r.inText init with buf := (r.inText init).buf.write 1023 last },
    rfl, congrArg Prod.snd hfeed, ?_, RxRegs.clear_idle _, Buf.write_wf hwf (by decide) last⟩
  rw [hfeed, rxStep_textTrunc rfl hwf (Ne.symm hlast) ((RxRegs.inText_cnt hinit.le r).trans hinit), htext]

/-- Settles O56: `resolves_text` and `resolves_truncatedText`. -/
theorem textFramesResolveAtTheirLastByte : Obligations.TextFramesResolveAtTheirLastByte := by
  intro s body rest hidle hbuf hb
  obtain ⟨hstate, -, -⟩ := hidle
  refine ⟨fun hlen hscript => ?_, fun hlen hscript => ?_⟩
  · obtain ⟨hbefore, t, hrun, hemits, hafter, -⟩ := (resolves_text hstate hbuf hb hlen).run_eq hstate hscript
    have hcount : (textBytes body).length = body.length + 2 := by simp [textBytes]
    rw [hcount] at hbefore hrun
    exact ⟨hbefore, t, hrun, hemits, hafter⟩
  · obtain ⟨hbefore, t, hrun, hemits, hafter, -⟩ :=
      (resolves_truncatedText hstate hbuf hb hlen).run_eq hstate hscript
    rw [List.length_cons, hlen] at hbefore hrun
    exact ⟨hbefore, t, hrun, hemits, hafter⟩

end Sys2Proof.Machine
end

section
/-! PROOFS. The byte-by-byte decoder agrees with `decode_one` iterated (spec/41_decoder.md R135): a stream begins with a
frame that resolves, which `decode_one` takes, or it is a frame in progress, for which `decode_one` asks for more. -/

namespace Sys2Proof.Machine

/-! ### Frames in progress -/

/-- `bytes` are a frame in progress for the decoder `r`: they have no event and lead away from `AwaitingMarker`. -/
def Pending (r : RxRegs) (bytes : List Byte) : Prop :=
  (rxFeed r bytes).2 = [] ∧ (rxFeed r bytes).1.state ≠ .awaitingMarker

theorem pending_of_rxFeed_eq {r r' : RxRegs} {bytes : List Byte} (h : rxFeed r bytes = (r', []))
    (hs : r'.state ≠ .awaitingMarker) : Pending r bytes := by
  rw [Pending, h]
  exact ⟨rfl, hs⟩

/-- R124: a text short of the cap without its terminator is in progress. -/
theorem pending_text {r : RxRegs} {body : List Byte} (hs : r.state = .awaitingMarker) (hb : params.textEnd ∉ body)
    (hlen : body.length ≤ 1023) : Pending r (params.markText :: body) :=
  pending_of_rxFeed_eq (rxFeed_markText hs hb hlen) nofun

/-- R127 to R129: a frame short of its trailer's low byte is in progress. -/
theorem pending_binary {r : RxRegs} {n : Byte} {bytes : List Byte} (hs : r.state = .awaitingMarker)
    (hlen : bytes.length < n.toNat + 2) : Pending r (params.markBin :: n :: bytes) := by
  by_cases hblock : bytes.length ≤ n.toNat
  · have hfeed := (rxFeed_markBin_len hs n bytes).trans (rxFeed_block rfl (by simpa using hblock))
    exact pending_of_rxFeed_eq hfeed nofun
  · obtain ⟨block, hi, rfl⟩ : ∃ block hi, bytes = block ++ [hi] :=
      ⟨_, _, (List.dropLast_append_getLast (List.ne_nil_of_length_pos (by omega))).symm⟩
    rw [List.length_append, List.length_singleton] at hlen hblock
    exact pending_of_rxFeed_eq (rxFeed_upto_crcHi hs (by omega) hi) nofun

/-! ### What `decode_one` takes -/

/-- What stands before the first terminator is the text that `decode_one` looks at. -/
theorem takeWhile_text {body : List Byte} (hb : params.textEnd ∉ body) (tail : List Byte) :
    (body ++ tail).takeWhile (· != params.textEnd) = body ++ tail.takeWhile (· != params.textEnd) :=
  List.takeWhile_append_of_pos fun _ hmem => bne_iff_ne.mpr fun h => hb (h ▸ hmem)

/-- R132: a terminator within the cap ends the text. -/
theorem decodeText_of_terminator {body : List Byte} (hb : params.textEnd ∉ body) (hlen : body.length ≤ 1023)
    (tail : List Byte) : decodeText (body ++ params.textEnd :: tail) = some (.textBlock body, body.length + 2) := by
  have hbody : (body ++ params.textEnd :: tail).takeWhile (· != params.textEnd) = body := by
    rw [takeWhile_text hb, List.takeWhile_cons_of_neg (by simp), List.append_nil]
  rw [decodeText, hbody]
  exact if_pos ⟨by simp, Nat.lt_succ_of_le hlen⟩

/-- R132: 1024 bytes without a terminator end the text. -/
theorem decodeText_of_cap {body : List Byte} (hb : params.textEnd ∉ body) (hlen : body.length = 1024)
    (tail : List Byte) : decodeText (body ++ tail) = some (.textTruncated body, 1025) := by
  have hlong : ¬((body ++ tail).takeWhile (· != params.textEnd)).length < params.textCap := by
    rw [takeWhile_text hb, List.length_append, hlen]
    exact Nat.not_lt.mpr (Nat.le_add_right ..)
  have htake : (body ++ tail).take params.textCap = body := List.take_left' hlen
  have hcap : params.textCap ≤ (body ++ tail).length := by
    rw [List.length_append, hlen]
    exact Nat.le_add_right ..
  rw [decodeText, htake]
  exact (if_neg fun h => hlong h.2).trans (if_pos hcap)

/-- R132: fewer bytes without a terminator are not enough. -/
theorem decodeText_of_short {body : List Byte} (hb : params.textEnd ∉ body) (hlen : body.length ≤ 1023) :
    decodeText body = none := by
  have hbody : body.takeWhile (· != params.textEnd) = body := by simpa using takeWhile_text hb []
  rw [decodeText, hbody]
  exact (if_neg fun h => Nat.lt_irrefl _ h.1).trans (if_neg (Nat.not_le.mpr (Nat.lt_succ_of_le hlen)))

/-- R74: a whole frame is judged by its block and trailer. -/
theorem decodeBinary_of_frame {n : Byte} {bytes : List Byte} (hlen : bytes.length = n.toNat) (hi lo : Byte)
    (tail : List Byte) :
    decodeBinary (n :: (bytes ++ hi :: lo :: tail)) = some (judgeFrame n bytes (be16 hi lo), n.toNat + 4) := by
  rw [decodeBinary, if_neg (by simp [hlen]), ← hlen]
  simp

/-- R74: fewer bytes than the length byte and the trailer ask for are not enough. -/
theorem decodeBinary_of_short {n : Byte} {bytes : List Byte} (hlen : bytes.length < n.toNat + 2) :
    decodeBinary (n :: bytes) = none := if_pos hlen

/-! ### How a stream begins -/

/-- R132: what follows a text's marker has a terminator within the cap, or reaches the cap without one, or is short of
both. -/
theorem text_cases (bytes : List Byte) :
    (∃ body tail, bytes = body ++ params.textEnd :: tail ∧ params.textEnd ∉ body ∧ body.length ≤ 1023) ∨
    (∃ body tail, bytes = body ++ tail ∧ params.textEnd ∉ body ∧ body.length = 1024) ∨
    (params.textEnd ∉ bytes ∧ bytes.length ≤ 1023) := by
  have hsplit := List.take_append_drop 1024 bytes
  have hcap : (bytes.take 1024).length ≤ 1024 := List.length_take_le ..
  by_cases hmem : params.textEnd ∈ bytes.take 1024
  · obtain ⟨body, tail, htake, hb⟩ := List.eq_append_cons_of_mem hmem
    rw [htake, List.length_append, List.length_cons] at hcap
    refine .inl ⟨body, tail ++ bytes.drop 1024, hsplit.symm.trans ?_, hb, by omega⟩
    rw [htake, List.append_assoc, List.cons_append]
  · by_cases hlong : 1024 ≤ bytes.length
    · exact .inr (.inl ⟨bytes.take 1024, bytes.drop 1024, hsplit.symm, hmem, List.length_take_of_le hlong⟩)
    · rw [List.take_of_length_le (by omega)] at hmem
      exact .inr (.inr ⟨hmem, by omega⟩)

/-- R74: enough bytes for a block of `k` and its trailer are that block, the trailer, and a rest. -/
theorem block_trailer_split {k : Nat} {bytes : List Byte} (h : k + 2 ≤ bytes.length) :
    ∃ block hi lo tail, bytes = block ++ hi :: lo :: tail ∧ block.length = k := by
  have hsplit := List.take_append_drop k bytes
  have hdrop : (bytes.drop k).length = bytes.length - k := List.length_drop
  match hrest : bytes.drop k with
  | hi :: lo :: tail =>
    exact ⟨bytes.take k, hi, lo, tail, by rw [← hrest, hsplit], List.length_take_of_le (by omega)⟩
  | [_] | [] => simp only [hrest, List.length_cons, List.length_nil] at hdrop; omega

/-- `decode_one` takes a frame from the front of `bytes` that the decoder `r` resolves with the same event. -/
def TakesFrame (r : RxRegs) (bytes : List Byte) : Prop :=
  ∃ frame tail e, bytes = frame ++ tail ∧ Resolves r frame e ∧ decodeOne bytes = some (e, frame.length)

/-- `decode_one` asks for more bytes, and for the decoder `r` the bytes are a frame in progress. -/
def AsksForMore (r : RxRegs) (bytes : List Byte) : Prop := decodeOne bytes = none ∧ Pending r bytes

/-- R132: a stream that begins with the marker of a text. -/
theorem takesFrame_or_asksForMore_text {r : RxRegs} (hs : r.state = .awaitingMarker) (hbuf : r.buf.wf = true)
    (bytes : List Byte) :
    TakesFrame r (params.markText :: bytes) ∨ AsksForMore r (params.markText :: bytes) := by
  rcases text_cases bytes with ⟨body, tail, rfl, hb, hlen⟩ | ⟨body, tail, rfl, hb, hlen⟩ | ⟨hb, hlen⟩
  · exact .inl ⟨textBytes body, tail, _, by simp [textBytes], resolves_text hs hbuf hb hlen,
      (decodeText_of_terminator hb hlen tail).trans (by simp [textBytes])⟩
  · exact .inl ⟨params.markText :: body, tail, _, rfl, resolves_truncatedText hs hbuf hb hlen,
      (decodeText_of_cap hb hlen tail).trans (by rw [List.length_cons, hlen])⟩
  · exact .inr ⟨decodeText_of_short hb hlen, pending_text hs hb hlen⟩

/-- R74: a stream that begins with the marker of a binary frame. -/
theorem takesFrame_or_asksForMore_binary {r : RxRegs} (hs : r.state = .awaitingMarker) (hbuf : r.buf.wf = true)
    (bytes : List Byte) :
    TakesFrame r (params.markBin :: bytes) ∨ AsksForMore r (params.markBin :: bytes) := by
  cases bytes with
  | nil => exact .inr ⟨rfl, pending_of_rxFeed_eq (rxFeed_cons_quiet (rxStep_markBin hs) []) nofun⟩
  | cons n bytes =>
    by_cases hshort : bytes.length < n.toNat + 2
    · exact .inr ⟨decodeBinary_of_short hshort, pending_binary hs hshort⟩
    · obtain ⟨block, hi, lo, tail, rfl, hlen⟩ := block_trailer_split (Nat.le_of_not_lt hshort)
      exact .inl ⟨params.markBin :: n :: (block ++ [hi, lo]), tail, _, by simp, resolves_frame hs hbuf hlen hi lo,
        (decodeBinary_of_frame hlen hi lo tail).trans (by simp [hlen])⟩

/-- R135: a stream begins with a frame that both views take, or is a frame in progress for both. -/
theorem takesFrame_or_asksForMore {r : RxRegs} {bytes : List Byte} (hs : r.state = .awaitingMarker)
    (hbuf : r.buf.wf = true) (hne : bytes ≠ []) : TakesFrame r bytes ∨ AsksForMore r bytes := by
  obtain ⟨m, bytes, rfl⟩ := List.exists_cons_of_ne_nil hne
  by_cases hText : m = params.markText
  · exact hText ▸ takesFrame_or_asksForMore_text hs hbuf bytes
  by_cases hBin : m = params.markBin
  · exact hBin ▸ takesFrame_or_asksForMore_binary hs hbuf bytes
  · exact .inl ⟨[m], bytes, _, rfl, resolves_badMarker hs hbuf hText hBin, (if_neg hText).trans (if_neg hBin)⟩

/-! ### The whole stream -/

theorem decodeMany_nil (fuel : Nat) : decodeMany fuel [] = ([], []) := by
  cases fuel <;> rfl

theorem decodeMany_of_frame {frame tail : List Byte} {e : RxEvent}
    (h : decodeOne (frame ++ tail) = some (e, frame.length)) (fuel : Nat) :
    decodeMany (fuel + 1) (frame ++ tail) = (e :: (decodeMany fuel tail).1, (decodeMany fuel tail).2) := by
  simp only [decodeMany, h, List.drop_left]

theorem decodeMany_of_more {bytes : List Byte} (h : decodeOne bytes = none) (fuel : Nat) :
    decodeMany (fuel + 1) bytes = ([], bytes) := by
  simp only [decodeMany, h]

theorem Resolves.length_pos {r : RxRegs} {frame : List Byte} {e : RxEvent} (h : Resolves r frame e) :
    0 < frame.length := by
  obtain ⟨init, last, -, rfl, -⟩ := h
  simp

/-- R135: fed with a stream, the decoder has the events of `decode_one` iterated, and it is in `AwaitingMarker` exactly
when no bytes are left over. -/
theorem rxFeed_decodeMany {fuel : Nat} {r : RxRegs} {bytes : List Byte} (hs : r.state = .awaitingMarker)
    (hbuf : r.buf.wf = true) (hfuel : bytes.length ≤ fuel) :
    (rxFeed r bytes).2 = (decodeMany fuel bytes).1 ∧
    ((rxFeed r bytes).1.state = .awaitingMarker ↔ (decodeMany fuel bytes).2 = []) := by
  induction fuel generalizing r bytes with
  | zero =>
    cases List.eq_nil_of_length_eq_zero (Nat.le_zero.mp hfuel)
    exact ⟨rfl, iff_of_true hs rfl⟩
  | succ fuel ih =>
    by_cases hne : bytes = []
    · rw [hne, decodeMany_nil]
      exact ⟨rfl, iff_of_true hs rfl⟩
    rcases takesFrame_or_asksForMore hs hbuf hne with ⟨frame, tail, e, rfl, hframe, hone⟩ | ⟨hone, hquiet, hstate⟩
    · obtain ⟨r', hfeed, ⟨hs', -⟩, hbuf'⟩ := hframe.rxFeed_eq
      have hpos := hframe.length_pos
      rw [List.length_append] at hfuel
      obtain ⟨hevents, hleft⟩ := ih (bytes := tail) hs' hbuf' (by omega)
      rw [decodeMany_of_frame hone, rxFeed_append, hfeed, hevents]
      exact ⟨rfl, hleft⟩
    · rw [decodeMany_of_more hone]
      exact ⟨hquiet, iff_of_false hstate hne⟩

/-- Settles O57: the machine's run is the decoder's feed, and the feed is `decode_one` iterated. -/
theorem stepsAgreeWithWholeFrames : Obligations.StepsAgreeWithWholeFrames := by
  intro s bytes rest hidle hbuf hscript
  obtain ⟨hstate, -, -⟩ := hidle
  obtain ⟨t, hrun, hrx, hevents, hrest⟩ :=
    run_feedBytes hscript (RxRegs.cntInRange_of_awaitingMarker hstate)
  obtain ⟨hsame, hleft⟩ := rxFeed_decodeMany hstate hbuf (le_refl bytes.length)
  exact ⟨t, hrun, hevents.trans (congrArg (s.events ++ ·) hsame), hrx ▸ hleft, hrest⟩

end Sys2Proof.Machine
end

section
/-! PROOFS. The decoder answers in every state of the invariant, and resolves a frame in progress in a bounded number of
bytes (spec/41_decoder.md R120, R133). -/

namespace Sys2Proof.Machine

/-- Settles O43: from the invariant every step answers, whatever is fetched. -/
theorem noInputStopsTheMachine : Obligations.NoInputStopsTheMachine := fun s hs => ⟨s.afterStep, step_of_inv hs⟩

/-- R29: the invariant keeps the counter in the ranges that R80's rows need. -/
theorem RxRegs.Inv.cntInRange {r : RxRegs} (h : r.Inv) : r.CntInRange :=
  ⟨h.cnt_le_of_textBody, h.cnt_le_of_binaryPayload⟩

/-! ### The bound of R133 -/

theorem resolveBound_of_awaitingMarker {r : RxRegs} (h : r.state = .awaitingMarker) : resolveBound r = 0 := by
  rw [resolveBound, h]

theorem resolveBound_of_textBody {r : RxRegs} (h : r.state = .textBody) : resolveBound r = 1024 - r.cnt.toNat := by
  rw [resolveBound, h]

theorem resolveBound_of_binaryLength {r : RxRegs} (h : r.state = .binaryLength) : resolveBound r = 258 := by
  rw [resolveBound, h]

theorem resolveBound_of_binaryPayload {r : RxRegs} (h : r.state = .binaryPayload) :
    resolveBound r = r.len.toNat + 2 - r.cnt.toNat := by
  rw [resolveBound, h]

/-- R133: every byte received in mid-frame brings the decoder nearer to `AwaitingMarker`. -/
theorem resolveBound_rxStep_lt {r : RxRegs} (h : r.CntInRange) (hs : r.state ≠ .awaitingMarker) (b : Byte) :
    resolveBound (rxStep r b).1 < resolveBound r := by
  obtain ⟨htext, hbin⟩ := h
  have cleared : resolveBound r.clear = 0 := resolveBound_of_awaitingMarker rfl
  obtain ⟨st, len, cnt, crc, trailHi, buf⟩ := r
  cases st <;> simp only [rxStep]
  case awaitingMarker => exact absurd rfl hs
  case textBody =>
    have hc : cnt.toNat ≤ 1023 := htext rfl
    have hcnt : (cnt + 1).toNat = cnt.toNat + 1 := cnt_add_one_toNat (by omega)
    have hbound : resolveBound ⟨.textBody, len, cnt, crc, trailHi, buf⟩ = 1024 - cnt.toNat :=
      resolveBound_of_textBody rfl
    rw [hbound]
    split
    · rw [cleared]
      omega
    split
    · rw [resolveBound_of_textBody rfl]
      simp only [hcnt]
      omega
    split
    · rw [resolveBound_of_awaitingMarker rfl]
      omega
    · omega
  case binaryLength =>
    have hlen := b.isLt
    rw [resolveBound_of_binaryPayload rfl, resolveBound_of_binaryLength rfl]
    simp only
    omega
  case binaryPayload =>
    have hc : cnt.toNat ≤ len.toNat + 1 := hbin rfl
    have hlen : len.toNat < 256 := len.isLt
    have hcnt : (cnt + 1).toNat = cnt.toNat + 1 := cnt_add_one_toNat (by omega)
    have hbound : resolveBound ⟨.binaryPayload, len, cnt, crc, trailHi, buf⟩ = len.toNat + 2 - cnt.toNat :=
      resolveBound_of_binaryPayload rfl
    rw [hbound]
    split
    · rw [resolveBound_of_binaryPayload rfl]
      simp only [hcnt]
      omega
    split
    · rw [resolveBound_of_binaryPayload rfl]
      simp only [hcnt]
      omega
    split
    · rw [cleared]
      omega
    · omega

/-- R133: `resolveBound` bytes are enough, whatever they are. -/
theorem exists_take_awaitingMarker {r : RxRegs} {bytes : List Byte} (h : r.CntInRange)
    (hlen : resolveBound r ≤ bytes.length) :
    ∃ k, k ≤ bytes.length ∧ (rxFeed r (bytes.take k)).1.state = .awaitingMarker := by
  induction bytes generalizing r with
  | nil =>
    refine ⟨0, le_rfl, by_contra fun hs => ?_⟩
    have hlt := resolveBound_rxStep_lt h hs 0
    rw [List.length_nil] at hlen
    omega
  | cons b bytes ih =>
    by_cases hs : r.state = .awaitingMarker
    · exact ⟨0, Nat.zero_le _, hs⟩
    · have hlt := resolveBound_rxStep_lt h hs b
      rw [List.length_cons] at hlen
      obtain ⟨k, hk, hstate⟩ := ih (rxStep_cntInRange h b) (by omega)
      exact ⟨k + 1, Nat.succ_le_succ hk, hstate⟩

/-- R120: a run over a byte stream can be stopped after any of its bytes. -/
theorem run_feedBytes_take {s : State} {bytes : List Byte} {rest : List Item}
    (hscript : s.script = feedBytes bytes ++ rest) (hr : s.rx.CntInRange) {k : Nat} (hk : k ≤ bytes.length) :
    ∃ t, run k s = .next t ∧ t.rx = (rxFeed s.rx (bytes.take k)).1 := by
  have hsplit : s.script = feedBytes (bytes.take k) ++ (feedBytes (bytes.drop k) ++ rest) := by
    rw [hscript, ← List.append_assoc, ← feedBytes_append, List.take_append_drop]
  obtain ⟨t, hrun, hrx, -⟩ := run_feedBytes hsplit hr
  rw [List.length_take_of_le hk] at hrun
  exact ⟨t, hrun, hrx⟩

/-! ### Waiting -/

/-- R185: without a byte and without control inputs the decoder stays as it is. -/
theorem rxCycleNext_of_no_byte {p : InPins} (r : RxRegs) (h : NoControl p) (hvalid : p.rxValid = false) :
    rxCycleNext r p = (r, none) := by
  rw [rxCycleNext_data r h]
  exact if_neg (by simp [hvalid])

/-- R133: the decoder waits for its next byte over any number of cycles. -/
theorem run_no_byte {s : State} {ps : List InPins} {rest : List Item} (hs : s.Inv)
    (hscript : s.script = ps.map .clock ++ rest) (hps : ∀ p ∈ ps, NoControl p ∧ p.rxValid = false) :
    ∃ t, run ps.length s = .next t ∧ t.rx = s.rx ∧ t.events = s.events := by
  induction ps generalizing s with
  | nil => exact ⟨s, rfl, rfl, rfl⟩
  | cons p ps ih =>
    obtain ⟨⟨hcontrol, hvalid⟩, htail⟩ := List.forall_mem_cons.mp hps
    have hstep : step s = .next (s.afterCycle (.clock p) (ps.map .clock ++ rest)) :=
      (step_cons hscript).trans (cycle_of_inv hs _ _)
    have hstays : rxCycleNext s.rx p = (s.rx, none) := rxCycleNext_of_no_byte s.rx hcontrol hvalid
    obtain ⟨t, hrun, hrx, hevents⟩ := ih (afterCycle_inv hs (.clock p) (ps.map .clock ++ rest)) rfl htail
    refine ⟨t, run_succ_next.mpr ⟨_, hstep, hrun⟩, hrx.trans (congrArg Prod.fst hstays), hevents.trans ?_⟩
    simp [State.afterCycle, itemPins, hstays]

/-- Settles O58: the bound decreases with every byte, its values are R133's, and without bytes the decoder waits. -/
theorem decoderResolvesInBoundedBytes : Obligations.DecoderResolvesInBoundedBytes := by
  refine ⟨fun s bytes rest hinv hlen hscript => ?_, fun r => ⟨fun hs => ?_, fun hs => ?_, fun hs => ?_⟩,
    fun s ps rest hs hscript hps => run_no_byte hs hscript hps⟩
  · obtain ⟨k, hk, hstate⟩ := exists_take_awaitingMarker hinv.cntInRange hlen.ge
    obtain ⟨t, hrun, hrx⟩ := run_feedBytes_take hscript hinv.cntInRange hk
    exact ⟨k, t, hk, hrun, hrx ▸ hstate⟩
  · have hN := r.len.isLt
    rw [resolveBound_of_binaryPayload hs]
    omega
  · exact (resolveBound_of_binaryLength hs).le
  · exact (resolveBound_of_textBody hs).trans_le (Nat.sub_le ..)

end Sys2Proof.Machine
end

section
/-! PROOFS. The encoder over a run of cycles (spec/42_encoder.md R159, R162): the encoder alone as a function of the
port values of some cycles, and the machine's run in terms of it. A stalled cycle leaves the encoder alone, so the segment
before each step of a command does what its last cycle does, and a command is its steps one after the other. -/

namespace Sys2Proof.Machine

/-! ### The encoder over some cycles -/

/-- The encoder's registers after the cycles, and the bytes and events on the way, oldest first. -/
def txFeed : TxRegs → List InPins → TxRegs × List Byte × List TxEvent
  | x, [] => (x, [], [])
  | x, p :: ps =>
    ((txFeed (txCycleNext x p).1 ps).1, (txCycleNext x p).2.1 ++ (txFeed (txCycleNext x p).1 ps).2.1,
      (txCycleNext x p).2.2.toList ++ (txFeed (txCycleNext x p).1 ps).2.2)

theorem txFeed_append (x : TxRegs) (ps qs : List InPins) :
    txFeed x (ps ++ qs) =
      ((txFeed (txFeed x ps).1 qs).1, (txFeed x ps).2.1 ++ (txFeed (txFeed x ps).1 qs).2.1,
        (txFeed x ps).2.2 ++ (txFeed (txFeed x ps).1 qs).2.2) := by
  induction ps generalizing x with
  | nil => rfl
  | cons p ps ih => simp only [List.cons_append, txFeed, ih, List.append_assoc]

theorem txFeed_singleton (x : TxRegs) (p : InPins) :
    txFeed x [p] = ((txCycleNext x p).1, (txCycleNext x p).2.1, (txCycleNext x p).2.2.toList) := by
  simp only [txFeed, List.append_nil]

/-- From a state of the invariant a run over some cycles does to the encoder what those cycles do to it alone, whatever
the other agents do (R60). -/
theorem run_txFeed {s : State} {ps : List InPins} {rest : List Item} (hs : s.Inv)
    (hscript : s.script = ps.map .clock ++ rest) :
    ∃ t, run ps.length s = .next t ∧ t.tx = (txFeed s.tx ps).1 ∧ t.wire = s.wire ++ (txFeed s.tx ps).2.1 ∧
      t.txEvents = s.txEvents ++ (txFeed s.tx ps).2.2 ∧ t.script = rest ∧ t.Inv := by
  induction ps generalizing s with
  | nil => exact ⟨s, rfl, rfl, (List.append_nil _).symm, (List.append_nil _).symm, hscript, hs⟩
  | cons p ps ih =>
    have hstep : step s = .next (s.afterCycle (.clock p) (ps.map .clock ++ rest)) :=
      (step_cons hscript).trans (cycle_of_inv hs _ _)
    obtain ⟨t, hrun, htx, hwire, hevents, hend⟩ := ih (afterCycle_inv hs (.clock p) (ps.map .clock ++ rest)) rfl
    exact ⟨t, run_succ_next.mpr ⟨_, hstep, hrun⟩, htx, hwire.trans (List.append_assoc ..),
      hevents.trans (List.append_assoc ..), hend⟩

/-- The run as above, with the byte that the encoder offers in the last cycle. -/
theorem run_txFeed_concat {s : State} {ps : List InPins} {p : InPins} {rest : List Item} (hs : s.Inv)
    (hscript : s.script = (ps ++ [p]).map .clock ++ rest) :
    ∃ t, run (ps ++ [p]).length s = .next t ∧ t.tx = (txFeed s.tx (ps ++ [p])).1 ∧
      t.wire = s.wire ++ (txFeed s.tx (ps ++ [p])).2.1 ∧ t.txEvents = s.txEvents ++ (txFeed s.tx (ps ++ [p])).2.2 ∧
      t.out.txOut = txOffer (txFeed s.tx ps).1 p := by
  have hsplit : s.script = ps.map .clock ++ (.clock p :: rest) := by
    rw [hscript, List.map_append, List.append_assoc]
    rfl
  obtain ⟨u, hrun, htx, hwire, hevents, hnext, hinv⟩ := run_txFeed hs hsplit
  have hlast : run 1 u = .next (u.afterCycle (.clock p) rest) :=
    run_succ_next.mpr ⟨_, (step_cons hnext).trans (cycle_of_inv hinv _ _), rfl⟩
  rw [List.length_append, txFeed_append, ← htx, txFeed_singleton]
  refine ⟨_, run_add_next.mpr ⟨u, hrun, hlast⟩, rfl, ?_, ?_, rfl⟩
  · rw [← List.append_assoc, ← hwire]
    rfl
  · rw [← List.append_assoc, ← hevents]
    rfl

/-! ### Stalls -/

/-- R81: the enabling condition of an encoder state. -/
def txEnables : TxState → InPins → Bool
  | .idle => (·.txCmdValid)
  | .len => (·.txOutReady)
  | .opcode => (·.txOutReady)
  | .args => fun p => p.txOutReady && p.txArgValid
  | .crcHi => (·.txOutReady)
  | .crcLo => (·.txOutReady)

/-- R185: where the enabling condition of its state does not hold the encoder stays as it is and sends nothing. -/
theorem txCycleNext_stalled {x : TxRegs} {p : InPins} (hp : NoControl p) (h : txEnables x.state p = false) :
    txCycleNext x p = (x, [], none) := by
  rw [txCycleNext_data x hp, txCycleStep]
  cases hs : x.state <;> rw [hs] at h <;> exact if_neg (Bool.eq_false_iff.mp h)

/-- R162: so it does over any number of such cycles. -/
theorem txFeed_stalled {x : TxRegs} {ps : List InPins}
    (h : ∀ p ∈ ps, NoControl p ∧ txEnables x.state p = false) : txFeed x ps = (x, [], []) := by
  induction ps with
  | nil => rfl
  | cons p ps ih =>
    obtain ⟨⟨hp, hwait⟩, htail⟩ := List.forall_mem_cons.mp h
    rw [txFeed, txCycleNext_stalled hp hwait, ih htail]
    rfl

/-- A segment up to the first enabled cycle does what that cycle does. -/
theorem txFeed_until {x y : TxRegs} {at_ : InPins → Prop} {seg : List InPins} {bytes : List Byte} {e : Option TxEvent}
    (hseg : Until (txEnables x.state) at_ seg)
    (hlast : ∀ p, txEnables x.state p = true → at_ p → txCycleStep x p = (y, bytes, e)) :
    txFeed x seg = (y, bytes, e.toList) := by
  obtain ⟨stalls, last, rfl, hstalls, hcontrol, henabled, hat⟩ := hseg
  rw [txFeed_append, txFeed_stalled hstalls, txFeed_singleton, txCycleNext_data x hcontrol,
    hlast last henabled hat]
  rfl

/-- R36, R162: the byte offered in the states that hold one of their own. -/
theorem txOffer_of_noControl {p : InPins} (x : TxRegs) (h : NoControl p) :
    (x.state = .len → txOffer x p = some x.n) ∧ (x.state = .opcode → txOffer x p = some x.op) ∧
    (x.state = .crcHi → txOffer x p = some (hi8 x.crc)) ∧ (x.state = .crcLo → txOffer x p = some (lo8 x.crc)) := by
  have hp : ¬(p.rst || p.linkClose) = true := by simp [h.1, h.2]
  rw [txOffer, if_neg hp]
  refine ⟨?_, ?_, ?_, ?_⟩ <;> intro hs <;> rw [hs]

/-- R162: the output not ready, or in `TxArgs` no argument byte present, disables an encoder at work. -/
theorem txEnables_eq_false {st : TxState} {p : InPins} (hst : st ≠ .idle)
    (h : p.txOutReady = true → st = .args ∧ p.txArgValid = false) : txEnables st p = false := by
  cases hready : p.txOutReady with
  | true =>
    obtain ⟨rfl, harg⟩ := h hready
    simp only [txEnables, harg, Bool.and_false]
  | false =>
    cases st with
    | idle => exact absurd rfl hst
    | args => simp only [txEnables, hready, Bool.false_and]
    | len | opcode | crcHi | crcLo => exact hready

/-- Settles O60: the cycles are stalls, over which `txFeed` changes nothing, and the last of them offers the byte of the
encoder's state. -/
theorem stallingHoldsTheByte : Obligations.StallingHoldsTheByte := by
  intro s ps rest hs hwork hscript hps
  have hfeed : ∀ qs ⊆ ps, txFeed s.tx qs = (s.tx, [], []) := fun qs hsub =>
    txFeed_stalled fun p hp => ⟨(hps p (hsub hp)).1, txEnables_eq_false hwork (hps p (hsub hp)).2⟩
  rcases List.eq_nil_or_concat' ps with rfl | ⟨qs, last, rfl⟩
  · exact ⟨s, rfl, rfl, rfl, rfl, fun h => absurd rfl h⟩
  · have hlast : NoControl last := (hps last (by simp)).1
    obtain ⟨t, hrun, htx, hwire, hevents, hoffer⟩ := run_txFeed_concat hs hscript
    rw [hfeed _ (List.Subset.refl _)] at htx hwire hevents
    rw [hfeed qs (List.subset_append_left _ _)] at hoffer
    exact ⟨t, hrun, htx, hwire.trans (List.append_nil _), hevents.trans (List.append_nil _),
      fun _ => hoffer ▸ txOffer_of_noControl s.tx hlast⟩

/-! ### The steps of a command -/

/-- The cycles take the encoder from `x` to `y`, with `bytes` sent on the way and no event. -/
def TxSends (x : TxRegs) (ps : List InPins) (bytes : List Byte) (y : TxRegs) : Prop := txFeed x ps = (y, bytes, [])

/-- Bytes sent over some cycles and over the cycles after them are sent with nothing between them. -/
theorem TxSends.trans {x y z : TxRegs} {ps qs : List InPins} {bytes more : List Byte} (h : TxSends x ps bytes y)
    (h' : TxSends y qs more z) : TxSends x (ps ++ qs) (bytes ++ more) z := by
  unfold TxSends at *
  rw [txFeed_append, h, h']
  rfl

/-- R154, R155: the registers with `k` argument bytes to go and the block so far summed to `crc`. -/
def TxRegs.inBlock (op n : Byte) (k : Nat) (crc : U16) : TxRegs where
  state := if k = 0 then .crcHi else .args
  op := op
  n := n
  rem := BitVec.ofNat 8 k
  crc := crc

theorem argsDone_ofNat {k : Nat} (hk : k ≤ 254) : argsDone (BitVec.ofNat 8 k) = true ↔ k = 0 := by
  rw [argsDone, beq_iff_eq]
  bv_omega

/-- R152: the idle encoder takes a command within the limit. -/
theorem txSends_cmd {op : Byte} {k : Nat} {cmd : List InPins} (hk : k ≤ 254)
    (h : UntilCmd op (BitVec.ofNat 16 k) cmd) :
    TxSends TxRegs.cleared cmd []
      { state := .len, op := op, n := BitVec.ofNat 8 (k + 1), rem := BitVec.ofNat 8 k, crc := params.crcInit } := by
  have hlen : (BitVec.ofNat 16 k).toNat = k := (BitVec.toNat_ofNat ..).trans (Nat.mod_eq_of_lt (by omega))
  refine txFeed_until (e := none) h ?_
  rintro p hvalid ⟨rfl, hl⟩
  refine (if_pos hvalid).trans ?_
  rw [hl, hlen]
  exact if_pos hk

/-- R158: the idle encoder rejects an over-long command with its event. -/
theorem txFeed_cmd_tooLong {op : Byte} {l : U16} {cmd : List InPins} (hl : 254 < l.toNat) (h : UntilCmd op l cmd) :
    txFeed TxRegs.cleared cmd = (TxRegs.cleared, [], [.encoderPayloadTooLong l]) := by
  refine txFeed_until (e := some (.encoderPayloadTooLong l)) h ?_
  rintro p hvalid ⟨-, rfl⟩
  exact (if_pos hvalid).trans (if_neg (Nat.not_le.mpr hl))

/-- R153 -/
theorem txSends_len {op n rem : Byte} {crc : U16} {seg : List InPins} (h : UntilReady seg) :
    TxSends ⟨.len, op, n, rem, crc⟩ seg [n] ⟨.opcode, op, n, rem, crc⟩ :=
  txFeed_until (e := none) h fun _ hready _ => if_pos hready

/-- R154 -/
theorem txSends_opcode {op n : Byte} {k : Nat} {crc : U16} {seg : List InPins} (hk : k ≤ 254) (h : UntilReady seg) :
    TxSends ⟨.opcode, op, n, BitVec.ofNat 8 k, crc⟩ seg [op] (TxRegs.inBlock op n k (crcStep crc op)) := by
  refine txFeed_until (e := none) h fun _ hready _ => (if_pos hready).trans ?_
  simp only [argsDone_ofNat hk, TxRegs.inBlock]

/-- R155 -/
theorem txSends_arg {op n a : Byte} {k : Nat} {crc : U16} {seg : List InPins} (hk : k + 1 ≤ 254) (h : UntilArg a seg) :
    TxSends (TxRegs.inBlock op n (k + 1) crc) seg [a] (TxRegs.inBlock op n k (crcStep crc a)) := by
  have hrem : BitVec.ofNat 8 (k + 1) - 1 = BitVec.ofNat 8 k := by bv_omega
  refine txFeed_until (e := none) h ?_
  rintro p henabled rfl
  refine (if_pos henabled).trans ?_
  simp only [TxRegs.inBlock, hrem, argsDone_ofNat (Nat.le_of_succ_le hk)]

/-- R155: the argument bytes go out one after the other, each after its stalls, and all of them are summed. -/
theorem txSends_args {op n : Byte} {args : List Byte} {argSegs : List (List InPins)} {crc : U16}
    (hlen : args.length ≤ 254) (h : List.Forall₂ UntilArg args argSegs) :
    TxSends (TxRegs.inBlock op n args.length crc) argSegs.flatten args
      (TxRegs.inBlock op n 0 (args.foldl crcStep crc)) := by
  induction h generalizing crc with
  | nil => rfl
  | cons harg _ ih => exact (txSends_arg hlen harg).trans (ih (Nat.le_of_succ_le hlen))

/-- R156 -/
theorem txSends_crcHi {op n : Byte} {crc : U16} {seg : List InPins} (h : UntilReady seg) :
    TxSends (TxRegs.inBlock op n 0 crc) seg [hi8 crc] ⟨.crcLo, op, n, 0, crc⟩ :=
  txFeed_until (e := none) h fun _ hready _ => if_pos hready

/-- R157 -/
theorem txSends_crcLo {op n : Byte} {crc : U16} {seg : List InPins} (h : UntilReady seg) :
    TxSends ⟨.crcLo, op, n, 0, crc⟩ seg [lo8 crc] TxRegs.cleared :=
  txFeed_until (e := none) h fun _ hready _ => if_pos hready

/-- R159: a command within the limit, whatever stalls stand before its steps, sends the bytes of its frame. -/
theorem txSends_command {op : Byte} {args : List Byte} {cmd len opc hi lo : List InPins}
    {argSegs : List (List InPins)} (hargs : args.length ≤ 254) (hcmd : UntilCmd op (BitVec.ofNat 16 args.length) cmd)
    (hlen : UntilReady len) (hopc : UntilReady opc) (hsegs : List.Forall₂ UntilArg args argSegs)
    (hhi : UntilReady hi) (hlo : UntilReady lo) :
    TxSends TxRegs.cleared (cmd ++ len ++ opc ++ argSegs.flatten ++ hi ++ lo) (wireBytes op args) TxRegs.cleared := by
  have hsends := (((((txSends_cmd hargs hcmd).trans (txSends_len hlen)).trans (txSends_opcode hargs hopc)).trans
    (txSends_args hargs hsegs)).trans (txSends_crcHi hhi)).trans (txSends_crcLo hlo)
  simpa [wireBytes, block, trailer, crc16] using hsends

/-! ### The function `encode` and the command -/

/-- R150: a frame within the limit is laid out. -/
theorem encodeFrame_of_le {op : Byte} {args : List Byte} (h : args.length ≤ 254) :
    encodeFrame op args = .wire (wireBytes op args) :=
  if_neg (by simp only [block, List.length_cons]; omega)

/-- R150: a frame beyond the limit is rejected with the length of its arguments. -/
theorem encodeFrame_of_gt {op : Byte} {args : List Byte} (h : 254 < args.length) :
    encodeFrame op args = .tooLong args.length :=
  if_pos (by simp only [block, List.length_cons]; omega)

/-- R45 (a) -/
theorem TxRegs.Inv.idle {x : TxRegs} {wire : List Byte} (h : x.Inv wire) (hs : x.state = .idle) :
    x = TxRegs.cleared := by
  simpa only [TxRegs.Inv, hs] using h

/-- Settles O59: the run does to the encoder what `txFeed` does; the steps of a command send the frame's bytes, and a
rejected command sends none. -/
theorem encoderStepsComputeEncode : Obligations.EncoderStepsComputeEncode := by
  constructor
  · intro s op args bytes cmd len opc hi lo argSegs rest hs hidle hargs hbytes hcmd hlen hopc hsegs hhi hlo hscript
    have hsends := txSends_command hargs hcmd hlen hopc hsegs hhi hlo
    obtain ⟨t, hrun, htx, hwire, hevents, hrest, -⟩ := run_txFeed hs hscript
    obtain rfl : wireBytes op args = bytes := FnResult.wire.inj ((encodeFrame_of_le hargs).symm.trans hbytes)
    rw [hs.2.idle hidle, hsends] at htx hwire hevents
    exact ⟨t, hrun, hwire, htx, hevents.trans (List.append_nil _), hrest⟩
  · intro s op l cmd rest hs hidle hl hcmd hscript
    obtain ⟨t, hrun, htx, hwire, hevents, -⟩ := run_txFeed hs hscript
    rw [hs.2.idle hidle, txFeed_cmd_tooLong hl hcmd] at htx hwire hevents
    exact ⟨t, hrun, hwire.trans (List.append_nil _), htx, hevents⟩

end Sys2Proof.Machine
end

section
/-! PROOFS. The encoder's function and its operations, row by row (spec/42_encoder.md R150 to R158): which port values
select each operation (spec/30_encoding.md R81), and what it does in the state that selects it. -/

namespace Sys2Proof.Machine

/-! ### The function `encode` -/

/-- Settles O23: the limit decides, and within it the frame is `wireBytes`. -/
theorem encodeLaysOutTheFrame : Obligations.EncodeLaysOutTheFrame := by
  refine fun op args => ⟨encodeFrame_of_gt, fun h => ⟨_, encodeFrame_of_le h, ?_, ?_⟩⟩
  · simp [wireBytes, block, trailer]
  · simp [wireBytes, block, trailer, Nat.add_comm]

/-! ### A command is presented -/

/-- R81: a command presented to the idle encoder is taken or rejected by its announced length. -/
theorem selectTx_of_idle {v : View} {p : InPins} (hs : v.txState = .idle) (hvalid : p.txCmdValid = true) :
    selectTx v p =
      if p.txCmdArgsLen.toNat ≤ params.argsMax then .ok (.txCmd p.txCmdOpcode p.txCmdArgsLen)
      else .ok (.txReject p.txCmdOpcode p.txCmdArgsLen) := by
  rw [selectTx, hs]
  exact if_pos hvalid

/-- Settles O24: within the limit `TX.CMD` is selected, and it replaces the encoder's registers alone. -/
theorem cmdLoadsTheCommand : Obligations.CmdLoadsTheCommand := by
  intro s op l hs hl
  have hexec : exec (.txCmd op l) s = _ := whenSelected_of_enabled (decide_eq_true hl) (beq_iff_eq.mpr hs)
  refine ⟨?_, _, hexec, rfl, ?_, ?_, rfl, rfl, rfl, rfl, fun _ => rfl, rfl⟩
  · rintro p hvalid rfl rfl
    exact (selectTx_of_idle hs hvalid).trans (if_pos hl)
  · exact (BitVec.toNat_ofNat ..).trans (Nat.mod_eq_of_lt (by omega))
  · exact (BitVec.toNat_ofNat ..).trans (Nat.mod_eq_of_lt (by omega))

/-- Settles O25: beyond the limit `TX.REJECT` is selected, and it emits the event alone. -/
theorem rejectReportsAndChangesNothing : Obligations.RejectReportsAndChangesNothing := by
  intro s op l hs hl
  have hexec : exec (.txReject op l) s = _ := whenSelected_of_enabled (decide_eq_true hl) (beq_iff_eq.mpr hs)
  refine ⟨?_, _, hexec, rfl, rfl, rfl, rfl, fun _ => rfl, rfl, rfl, rfl, rfl, rfl⟩
  rintro p hvalid rfl rfl
  exact (selectTx_of_idle hs hvalid).trans (if_neg (Nat.not_le.mpr hl))

/-! ### A byte goes out -/

/-- What a byte sent with the encoder's registers replaced leaves alone. -/
theorem transmit_setTx_frame (s : State) (b : Byte) (x : TxRegs) :
    NoTxEvent s ((s.transmit b).setTx x) ∧ KeepsBuf s ((s.transmit b).setTx x) ∧
    KeepsOutsideTx s ((s.transmit b).setTx x) :=
  ⟨⟨rfl, rfl⟩, fun _ => rfl, rfl, rfl, rfl, rfl, rfl⟩

/-- An operation that runs as 'send `b` and replace the registers by `x`' does that and nothing else. -/
theorem exists_sent {i : Instr} {s : State} {b : Byte} {x : TxRegs}
    (h : exec i s = .next ((s.transmit b).setTx x)) :
    ∃ t, exec i s = .next t ∧ t.wire = s.wire ++ [b] ∧ t.tx = x ∧ NoTxEvent s t ∧ KeepsBuf s t ∧ KeepsOutsideTx s t :=
  ⟨_, h, rfl, rfl, transmit_setTx_frame s b x⟩

/-- R153 -/
theorem exec_txLen {s : State} (hs : s.tx.state = .len) :
    exec .txLen s = .next ((s.transmit s.tx.n).setTx { s.tx with state := .opcode }) :=
  whenSelected_of_enabled rfl (beq_iff_eq.mpr hs)

/-- R154: the next state goes by `tx_rem`. -/
theorem exec_txOpcode {s : State} (hs : s.tx.state = .opcode) :
    exec .txOpcode s = .next ((s.transmit s.tx.op).setTx
      { s.tx with crc := crcStep s.tx.crc s.tx.op, state := if s.tx.rem = 0#8 then .crcHi else .args }) := by
  have hdone : argsDone s.tx.rem = true ↔ s.tx.rem = 0#8 := beq_iff_eq
  simp only [← hdone]
  exact whenSelected_of_enabled rfl (beq_iff_eq.mpr hs)

/-- R155: the last argument byte is the one that finds `tx_rem` at 1. -/
theorem exec_txArg {s : State} (hs : s.tx.state = .args) (hrem : s.tx.rem ≠ 0) (a : Byte) :
    exec (.txArg a) s = .next ((s.transmit a).setTx
      { s.tx with
        crc := crcStep s.tx.crc a
        rem := s.tx.rem - 1
        state := if s.tx.rem = 1#8 then .crcHi else .args }) := by
  have hdone : argsDone (s.tx.rem - 1) = true ↔ s.tx.rem = 1#8 := beq_iff_eq.trans sub_eq_zero
  simp only [← hdone]
  exact whenSelected_of_enabled rfl (Bool.and_eq_true_iff.mpr ⟨beq_iff_eq.mpr hs, bne_iff_ne.mpr hrem⟩)

/-- R156 -/
theorem exec_txCrcHi {s : State} (hs : s.tx.state = .crcHi) :
    exec .txCrcHi s = .next ((s.transmit (hi8 s.tx.crc)).setTx { s.tx with state := .crcLo }) :=
  whenSelected_of_enabled rfl (beq_iff_eq.mpr hs)

/-- R157 -/
theorem exec_txCrcLo {s : State} (hs : s.tx.state = .crcLo) :
    exec .txCrcLo s = .next ((s.transmit (lo8 s.tx.crc)).setTx TxRegs.cleared) :=
  whenSelected_of_enabled rfl (beq_iff_eq.mpr hs)

/-- Settles O26: the ready output selects `TX.LEN`, which runs as `exec_txLen` says. -/
theorem lenByteGoesOut : Obligations.LenByteGoesOut := by
  refine fun s hs => ⟨fun p hready => ?_, exists_sent (exec_txLen hs)⟩
  simp only [selectTx, hs, hready, if_true]

/-- Settles O27: the ready output selects `TX.OPCODE`, which runs as `exec_txOpcode` says. -/
theorem opcodeByteGoesOut : Obligations.OpcodeByteGoesOut := by
  refine fun s hs => ⟨fun p hready => ?_, exists_sent (exec_txOpcode hs)⟩
  simp only [selectTx, hs, hready, if_true]

/-- Settles O28: with bytes to go `TX.ARG` is selected, it runs as `exec_txArg` says, and `tx_rem` counts down without
wrapping. -/
theorem argumentByteGoesOut : Obligations.ArgumentByteGoesOut := by
  intro s a hs hrem
  have hne : s.tx.rem ≠ 0 := by bv_omega
  have hcount : (s.tx.rem - 1).toNat = s.tx.rem.toNat - 1 := by bv_omega
  obtain ⟨t, hexec, hwire, htx, hframe⟩ := exists_sent (exec_txArg hs hne a)
  refine ⟨?_, t, hexec, hwire, ?_, ?_, hframe⟩
  · rintro p hready hvalid rfl
    simp only [selectTx, hs, hready, hvalid, Bool.and_self, if_true, if_neg hne]
  · rw [htx, ← hcount]
  · rw [htx]

/-- Settles O29: the ready output selects `TX.CRC_HI`, which runs as `exec_txCrcHi` says. -/
theorem crcHighByteGoesOut : Obligations.CrcHighByteGoesOut := by
  refine fun s hs => ⟨fun p hready => ?_, exists_sent (exec_txCrcHi hs)⟩
  simp only [selectTx, hs, hready, if_true]

/-- Settles O30: the ready output selects `TX.CRC_LO`; the registers it writes are those of reset, in which a command is
awaited. -/
theorem crcLowByteEndsTheCommand : Obligations.CrcLowByteEndsTheCommand := by
  intro s hs
  obtain ⟨t, hexec, hwire, htx, hevent, hbuf, hframe⟩ := exists_sent (exec_txCrcLo hs)
  refine ⟨fun p hready => ?_, t, hexec, hwire, htx, hevent, hbuf, hframe, fun p hp => ?_⟩
  · simp only [selectTx, hs, hready, if_true]
  · exact txCmdReady_iff.mpr ⟨by rw [htx]; rfl, hp⟩

end Sys2Proof.Machine
end

section
/-! PROOFS. The control operations and idling (spec/43_system.md R180 to R185): what a cycle with `rst` or `link_close`
leaves, that repeating it adds nothing, and what an agent without an operation keeps. -/

namespace Sys2Proof.Machine

/-! ### The selection of a control operation -/

/-- R83: `rst` comes before every other input. -/
theorem decodeClock_rst {p : InPins} (v : View) (hrst : p.rst = true) : decodeClock v p = .ok [.sysReset] := if_pos hrst

/-- R83: `link_close` without `rst` leaves the CRC port its own operation. -/
theorem decodeClock_close {p : InPins} (v : View) (hrst : p.rst = false) (hclose : p.linkClose = true) :
    decodeClock v p = .ok (.sysClose :: (selectG p).toList) :=
  (if_neg (Bool.eq_false_iff.mp hrst)).trans (if_pos hclose)

/-- Settles O31: the selection is `decodeClock_rst`, and what `SYS.RESET` runs as is known for every state. -/
theorem resetClearsEveryAgent : Obligations.ResetClearsEveryAgent :=
  ⟨fun v _ hrst => decodeClock_rst v hrst, fun s =>
    ⟨_, exec_sysReset s, s.rx.clear_idle, fun _ => rfl, rfl, rfl, ⟨rfl, rfl⟩, ⟨rfl, rfl⟩, rfl⟩⟩

/-- Settles O32: the selection is `decodeClock_close`, and what `SYS.CLOSE` runs as is known for every state. -/
theorem closeClearsTheLink : Obligations.CloseClearsTheLink :=
  ⟨fun v _ hrst hclose => decodeClock_close v hrst hclose, fun s =>
    ⟨_, exec_sysClose s, s.rx.clear_idle, fun _ => rfl, rfl, rfl, ⟨rfl, rfl⟩, ⟨rfl, rfl⟩, rfl⟩⟩

/-! ### The CRC port in a cycle, by its inputs -/

theorem gCycleNext_rst {p : InPins} (g : U16) (hrst : p.rst = true) : gCycleNext g p = params.crcInit := if_pos hrst

theorem gCycleNext_init {p : InPins} (g : U16) (hrst : p.rst = false) (hinit : p.gInit = true) :
    gCycleNext g p = params.crcInit := by
  simp only [gCycleNext, gCycleStep, hrst, hinit, Bool.false_eq_true, if_true, if_false]

theorem gCycleNext_update {p : InPins} (g : U16) (hrst : p.rst = false) (hinit : p.gInit = false) (hen : p.gEn = true) :
    gCycleNext g p = crcStep g p.gData := by
  simp only [gCycleNext, gCycleStep, hrst, hinit, hen, Bool.false_eq_true, if_true, if_false]

theorem gCycleNext_idle {p : InPins} (g : U16) (hrst : p.rst = false) (hinit : p.gInit = false) (hen : p.gEn = false) :
    gCycleNext g p = g := by
  simp only [gCycleNext, gCycleStep, hrst, hinit, hen, Bool.false_eq_true, if_false]

/-! ### A cycle with `rst` or `link_close` -/

/-- The output ports with nothing valid and nothing ready. -/
def Outputs.silent : Outputs where
  ev := none
  txEv := none
  txCmdReady := false
  txArgReady := false
  txOut := none
  fn := none

/-- R183: a control input silences every output port. -/
theorem cycleOutputs_control {p : InPins} (x : TxRegs) (h : (p.rst || p.linkClose) = true) :
    cycleOutputs x p = Outputs.silent := by
  have hcmd : txCmdReady x p = false := by
    rw [txCmdReady, ← Bool.not_or, h]
    rfl
  have harg : txArgReady x p = false := by
    rw [txArgReady, ← Bool.not_or, h]
    rfl
  rw [cycleOutputs, hcmd, harg, txOffer_control x h]
  rfl

/-- The state after a control cycle: both link agents cleared, the output ports silent, the streams kept. `g` is what
the CRC port holds then and `rest` are the inputs to come. -/
def State.afterControl (s : State) (g : U16) (rest : List Item) : State :=
  { s with rx := s.rx.clear, tx := TxRegs.cleared, gCrc := g, out := Outputs.silent, script := rest }

/-- R182: one control cycle after another leaves what the later one leaves. -/
theorem afterControl_afterControl (s : State) (g g' : U16) (rest rest' : List Item) :
    (s.afterControl g rest).afterControl g' rest' = s.afterControl g' rest' := rfl

/-- R180, R181, R183: from any state a control cycle answers, whatever else is presented. -/
theorem step_control {s : State} {p : InPins} {rest : List Item} (hs : s.script = .clock p :: rest)
    (h : (p.rst || p.linkClose) = true) : step s = .next (s.afterControl (gCycleNext s.gCrc p) rest) := by
  rw [State.afterControl, ← cycleOutputs_control s.tx h, gCycleNext]
  cases hrst : p.rst with
  | true => exact step_rst hs hrst
  | false => exact step_close hs hrst (by simpa [hrst] using h)

/-- Settles O35: the state is `afterControl`, and the CRC port goes by its own inputs. -/
theorem controlCycleConsumesNothing : Obligations.ControlCycleConsumesNothing := by
  intro s p rest hs hcontrol
  exact ⟨_, step_control hs (Bool.or_eq_true_iff.mpr hcontrol), rfl, rfl, rfl, rfl, rfl, rfl, rfl, rfl, rfl, rfl, rfl,
    gCycleNext_rst s.gCrc, gCycleNext_init s.gCrc, gCycleNext_update s.gCrc, gCycleNext_idle s.gCrc⟩

/-! ### Several control cycles -/

/-- R182: a positive number of control cycles leaves what one leaves, except that the CRC port goes through all. -/
theorem run_control {s : State} {ps : List InPins} {rest : List Item} (hne : ps ≠ [])
    (hs : s.script = ps.map .clock ++ rest) (h : ∀ p ∈ ps, (p.rst || p.linkClose) = true) :
    run ps.length s = .next (s.afterControl (ps.foldl gCycleNext s.gCrc) rest) := by
  induction ps generalizing s with
  | nil => exact absurd rfl hne
  | cons p ps ih =>
    obtain ⟨hp, htail⟩ := List.forall_mem_cons.mp h
    have hstep := step_control hs hp
    refine run_succ_next.mpr ⟨_, hstep, ?_⟩
    rcases eq_or_ne ps [] with rfl | hps
    · rfl
    · rw [ih hps rfl htail, afterControl_afterControl]
      rfl

/-- R180: the last cycle of `rst` decides. -/
theorem foldl_gCycleNext_rst {ps : List InPins} (hne : ps ≠ []) (h : ∀ p ∈ ps, p.rst = true) (g : U16) :
    ps.foldl gCycleNext g = params.crcInit := by
  obtain ⟨qs, last, rfl⟩ := (List.eq_nil_or_concat' ps).resolve_left hne
  rw [List.foldl_concat]
  exact gCycleNext_rst _ (h last (by simp))

/-- R185: an idle CRC port keeps its value over any number of cycles. -/
theorem foldl_gCycleNext_idle {ps : List InPins} {g : U16}
    (h : ∀ p ∈ ps, p.rst = false ∧ p.gInit = false ∧ p.gEn = false) : ps.foldl gCycleNext g = g := by
  induction ps with
  | nil => rfl
  | cons p ps ih =>
    obtain ⟨⟨hrst, hinit, hen⟩, htail⟩ := List.forall_mem_cons.mp h
    rw [List.foldl_cons, gCycleNext_idle g hrst hinit hen, ih htail]

/-- Settles O34: both runs are `run_control`, and they differ in what the CRC port goes through. -/
theorem holdingControlIsIdempotent : Obligations.HoldingControlIsIdempotent := by
  intro s ps rest hne hs
  refine ⟨fun hrst => ?_, fun hclose => ?_⟩
  · have hrun := run_control hne hs fun p hp => by rw [hrst p hp]; rfl
    exact ⟨_, hrun, rfl, rfl, foldl_gCycleNext_rst hne hrst s.gCrc, rfl, rfl, rfl, rfl⟩
  · have hrun := run_control hne hs fun p hp => by rw [(hclose p hp).2, Bool.or_true]
    exact ⟨_, hrun, rfl, rfl, fun hidle => foldl_gCycleNext_idle fun p hp => ⟨(hclose p hp).1, hidle p hp⟩,
      rfl, rfl, rfl, rfl⟩

/-! ### Idling -/

/-- R81, R185: `IDLE` is the encoder's operation only where the enabling condition of its state does not hold. -/
theorem txEnables_eq_false_of_selectTx_idle {v : View} {p : InPins} (h : selectTx v p = .ok (.idle .tx)) :
    txEnables v.txState p = false := by
  refine Bool.eq_false_iff.mpr fun henabled => ?_
  rw [selectTx] at h
  cases hs : v.txState with
  | idle | args =>
    simp only [hs, txEnables] at h henabled
    rw [if_pos henabled] at h
    split at h <;> cases h
  | len | opcode | crcHi | crcLo =>
    simp only [hs, txEnables] at h henabled
    rw [if_pos henabled] at h
    cases h

/-- Settles O33: the state after the step is `afterCycle`, in which each agent's part is what it was. -/
theorem idleChangesNothing : Obligations.IdleChangesNothing := by
  refine ⟨exec_idle, fun s p rest hp hs t ht => ?_⟩
  obtain rfl : t = s.afterCycle (.clock p) rest := step_clock_next_eq hs ht
  refine ⟨fun hvalid => ?_, fun hidle => ?_, fun hinit hen => gCycleNext_idle s.gCrc hp.1 hinit hen⟩
  · have hstays : rxCycleNext s.rx p = (s.rx, none) := rxCycleNext_of_no_byte s.rx hp hvalid
    simp [State.afterCycle, itemPins, hstays]
  · have hstays : txCycleNext s.tx p = (s.tx, [], none) :=
      txCycleNext_stalled hp (txEnables_eq_false_of_selectTx_idle hidle)
    simp [State.afterCycle, itemPins, hstays]

end Sys2Proof.Machine
end

section
/-! PROOFS. The events of the decoder and the encoder (spec/60_exceptions.md R190 to R197): a received byte either ends a
frame, with an event and the idle decoder, or leaves a frame in progress; the ranges of an event's fields follow from the
invariant R29. -/

namespace Sys2Proof.Machine

/-! ### What ends a frame -/

/-- R194, R197, R138: from any registers, a received byte either emits an event and leaves the decoder idle, or emits none
and leaves it in mid-frame. -/
theorem rxStep_resolves_or_continues (r : RxRegs) (b : Byte) :
    ((rxStep r b).2 ≠ none ∧ (rxStep r b).1.Idle) ∨
    ((rxStep r b).2 = none ∧ (rxStep r b).1.state ≠ .awaitingMarker) := by
  obtain ⟨st, len, cnt, crc, trailHi, buf⟩ := r
  cases st <;> simp only [rxStep]
  case awaitingMarker =>
    split
    · exact .inr ⟨rfl, nofun⟩
    split
    · exact .inr ⟨rfl, nofun⟩
    · exact .inl ⟨nofun, RxRegs.clear_idle _⟩
  case textBody =>
    split
    · exact .inl ⟨nofun, RxRegs.clear_idle _⟩
    split
    · exact .inr ⟨rfl, nofun⟩
    split
    · exact .inl ⟨nofun, rfl, ⟨rfl, rfl, rfl⟩, rfl⟩
    · exact .inr ⟨rfl, nofun⟩
  case binaryLength => exact .inr ⟨trivial, nofun⟩
  case binaryPayload =>
    split
    · exact .inr ⟨rfl, nofun⟩
    split
    · exact .inr ⟨rfl, nofun⟩
    split
    · exact .inl ⟨nofun, RxRegs.clear_idle _⟩
    · exact .inr ⟨rfl, nofun⟩

/-- An event in a cycle is the event of a byte received in it. -/
theorem rxCycleNext_of_event {r : RxRegs} {p : InPins} (h : (rxCycleNext r p).2 ≠ none) :
    rxCycleNext r p = rxStep r p.rxData := by
  rcases control_or_noControl p with hp | hp
  · exact absurd (congrArg Prod.snd (rxCycleNext_control r hp)) h
  · cases hv : p.rxValid with
    | true => rw [rxCycleNext_data r hp, rxCycleStep, if_pos hv]
    | false => exact absurd (congrArg Prod.snd (rxCycleNext_of_no_byte r hp hv)) h

/-- R197: an event leaves the decoder idle. -/
theorem rxCycleNext_idle_of_event {r : RxRegs} {p : InPins} (h : (rxCycleNext r p).2 ≠ none) :
    (rxCycleNext r p).1.Idle := by
  have hstep := rxCycleNext_of_event h
  rw [hstep] at h ⊢
  rcases rxStep_resolves_or_continues r p.rxData with ⟨-, hidle⟩ | ⟨hnone, -⟩
  · exact hidle
  · exact absurd hnone h

/-- R132: without control inputs and without an event, a decoder in mid-frame stays in mid-frame. -/
theorem rxCycleNext_midFrame {r : RxRegs} {p : InPins} (hp : NoControl p) (hs : r.state ≠ .awaitingMarker)
    (h : (rxCycleNext r p).2 = none) : (rxCycleNext r p).1.state ≠ .awaitingMarker := by
  cases hv : p.rxValid with
  | false => rwa [rxCycleNext_of_no_byte r hp hv]
  | true =>
    rw [rxCycleNext_data r hp, rxCycleStep, if_pos hv] at h ⊢
    rcases rxStep_resolves_or_continues r p.rxData with ⟨hevent, -⟩ | ⟨-, hstate⟩
    · exact absurd h hevent
    · exact hstate

/-- Settles O50: `rxCycleNext_idle_of_event` for what an event leaves, `rxCycleNext_midFrame` for what no event leaves. -/
theorem everyEventLeavesTheDecoderIdle : Obligations.EveryEventLeavesTheDecoderIdle := by
  refine ⟨fun s t ht hevent => ?_, fun s t p rest hs hp hmid ht => ?_⟩
  · obtain rfl := step_next_eq ht
    exact rxCycleNext_idle_of_event hevent
  · obtain rfl := step_clock_next_eq hs ht
    refine ⟨fun hstate hnone => rxCycleNext_midFrame hp hmid hnone hstate, fun hevent => ?_⟩
    obtain ⟨hstate, -⟩ := rxCycleNext_idle_of_event hevent
    exact hstate

/-! ### The ranges of an event's fields -/

/-- R191 for the events of R130: the invariant ties the checksum register to the block in the buffer. -/
theorem judgeEvent_inRange {r : RxRegs} (h : r.Inv) (hs : r.state = .binaryPayload)
    (hc : r.cnt.toNat = r.len.toNat + 1) (b : Byte) : (judgeEvent r b).InRange := by
  obtain ⟨-, hcrc, -⟩ := h.binaryPayload hs
  rw [hc, Nat.min_eq_right (Nat.le_succ _)] at hcrc
  by_cases hmatch : r.crc = be16 r.trailHi b
  · by_cases hlen : r.len = 0
    · rw [judgeEvent_of_empty hmatch hlen, ← hmatch, hcrc, hlen]
      rfl
    · have hN := r.len.isLt
      have hpos := toNat_ne_zero_of_ne_zero hlen
      have hblock : r.buf.slice 0 r.len.toNat = r.buf.read 0 :: r.buf.slice 1 (r.len.toNat - 1) := by
        rw [← Buf.slice_cons, Nat.sub_add_cancel (Nat.pos_of_ne_zero hpos)]
      rw [judgeEvent_of_frame hmatch hlen, ← hmatch, hcrc, hblock]
      refine ⟨?_, ?_, rfl⟩ <;> rw [Buf.slice_length] <;> omega
  · rw [judgeEvent_of_mismatch hmatch]
    exact Ne.symm hmatch

/-- R191: the event of a received byte, row by row of R80. -/
theorem rxStep_event_inRange {r : RxRegs} {b : Byte} {e : RxEvent} (h : r.Inv) (he : (rxStep r b).2 = some e) :
    e.InRange := by
  cases hs : r.state with
  | awaitingMarker =>
    by_cases hText : b = params.markText
    · rw [hText, rxStep_markText hs] at he
      cases he
    by_cases hBin : b = params.markBin
    · rw [hBin, rxStep_markBin hs] at he
      cases he
    · rw [rxStep_markBad hs hText hBin] at he
      cases he
      exact ⟨hText, hBin⟩
  | textBody =>
    obtain ⟨-, hcnt, htext⟩ := h.textBody hs
    by_cases hb : b = params.textEnd
    · rw [hb, rxStep_textEnd hs] at he
      cases he
      exact ⟨(Buf.slice_length ..).trans_le hcnt, htext⟩
    by_cases hc : r.cnt.toNat = 1023
    · rw [rxStep_textTrunc hs h.1 hb hc] at he
      cases he
      rw [hc] at htext
      exact ⟨by simp, List.not_mem_append htext fun hmem => hb (List.mem_singleton.mp hmem).symm⟩
    · rw [rxStep_textData hs hb (by omega)] at he
      cases he
  | binaryLength =>
    rw [rxStep_len hs] at he
    cases he
  | binaryPayload =>
    have hle := h.cnt_le_of_binaryPayload hs
    by_cases hdata : r.cnt.toNat < r.len.toNat
    · rw [rxStep_binData hs hdata] at he
      cases he
    by_cases hhi : r.cnt.toNat = r.len.toNat
    · rw [rxStep_binCrcHi hs hhi] at he
      cases he
    · have hlo : r.cnt.toNat = r.len.toNat + 1 := by omega
      rw [rxStep_binCrcLo hs hlo] at he
      cases he
      exact judgeEvent_inRange h hs hlo b

/-- R191 for every cycle. -/
theorem rxCycleNext_event_inRange {r : RxRegs} {p : InPins} {e : RxEvent} (h : r.Inv)
    (he : (rxCycleNext r p).2 = some e) : e.InRange := by
  rw [rxCycleNext_of_event (he ▸ Option.some_ne_none e)] at he
  exact rxStep_event_inRange h he

/-- R33: a length in the range of R191 fits the flat port's 11 bits. -/
theorem RxEvent.InRange.evLen_toNat {e : RxEvent} (h : e.InRange) :
    (evPins e).evLen.toNat = (evPins e).evData.length := by
  cases e with
  | textBlock text | textTruncated text =>
    obtain ⟨hlen, -⟩ := h
    exact Nat.mod_eq_of_lt (by omega)
  | frame op args n crc =>
    obtain ⟨hlen, -, -⟩ := h
    exact Nat.mod_eq_of_lt (by omega)
  | emptyFrame | unrecognizedMarker | crcMismatch => rfl

/-- R191, R158: a length that the encoder reports is over its limit. -/
theorem txCycleNext_event_args {x : TxRegs} {p : InPins} {l : U16}
    (he : (txCycleNext x p).2.2 = some (.encoderPayloadTooLong l)) : 255 ≤ l.toNat := by
  rcases control_or_noControl p with hp | hp
  · rw [txCycleNext_control x hp] at he
    cases he
  · rw [txCycleNext_data x hp, txCycleStep] at he
    cases hs : x.state with
    | idle =>
      simp only [hs] at he
      split at he
      · split at he
        · cases he
        · next hover =>
          cases he
          exact Nat.lt_of_not_le hover
      · cases he
    | len | opcode | args | crcHi | crcLo =>
      simp only [hs] at he
      split at he <;> cases he

/-! ### The codes of the kinds -/

/-- R190: bit 2 of a decoder event's code marks the error kinds. -/
theorem rxEventKind_bit2_iff (e : RxEvent) : (rxEventKind e).getLsbD 2 = true ↔ e.isError = true := by
  cases e <;> simp [rxEventKind, RxEvent.isError]

/-- R190: the encoder's one kind is an error kind. -/
theorem txEventKind_bit2 (e : TxEvent) : (txEventKind e).getLsbD 2 = true := by
  simp [txEventKind]

/-- R190: the decoder's error kinds. -/
theorem RxEvent.isError_iff (e : RxEvent) :
    e.isError = true ↔
      (∃ b, e = .unrecognizedMarker b) ∨ (∃ text, e = .textTruncated text) ∨ ∃ n r c, e = .crcMismatch n r c := by
  cases e <;> simp [RxEvent.isError]

/-- R190, R33: the flat port of a decoder event carries the kind's code. -/
theorem evPins_evKind (e : RxEvent) : (evPins e).evKind = rxEventKind e := by
  cases e <;> rfl

/-- Settles O48: the ranges are those of the agents' parts of the cycle, the codes are `rxEventKind_bit2_iff`,
`txEventKind_bit2` and `RxEvent.isError_iff`, and each kind's flat signals are `evPins` of it. -/
theorem emittedEventsAreInRange : Obligations.EmittedEventsAreInRange := by
  refine ⟨fun s t hs ht => ?_, ⟨rfl, rfl, fun e => ?_, fun e => ?_⟩, ?_⟩
  · obtain rfl := step_next_eq ht
    obtain ⟨hrx, -⟩ := hs
    refine ⟨fun e he => ?_, fun l hl => txCycleNext_event_args hl⟩
    have hrange : e.InRange := rxCycleNext_event_inRange hrx he
    exact ⟨hrange, hrange.evLen_toNat⟩
  · exact ⟨rfl, evPins_evKind e, rxEventKind_bit2_iff e, e.isError_iff⟩
  · exact ⟨rfl, rfl, txEventKind_bit2 e⟩
  · exact ⟨fun _ => rfl, fun _ _ _ _ => rfl, fun _ => rfl, fun _ => rfl, fun _ => rfl, fun _ _ _ => rfl, fun _ => rfl⟩

end Sys2Proof.Machine
end

section
/-! PROOFS. The reset state and the operation that produces it (spec/70_reset_and_hazards.md R220; spec/10_state.md
R44). -/

namespace Sys2Proof.Machine

/-- R30, R44: `rx_clear()` gives every decoder register but `rx_buf` its reset value. -/
theorem RxRegs.clear_eq_reset (r : RxRegs) : r.clear = { State.reset.rx with buf := r.buf } := rfl

/-- R44: the encoder's cleared registers are those of the reset state. -/
theorem TxRegs.cleared_eq_reset : TxRegs.cleared = State.reset.tx := rfl

/-- R29: the reset state is the one `AwaitingMarker` state, the state every `rx_clear()` returns to. -/
theorem reset_rx_idle : State.reset.rx.Idle := RxRegs.clear_idle State.reset.rx

/-- What `SYS.RESET` runs as, from any state: the reset values in every register, and `rx_buf` as it was. -/
theorem exec_sysReset_registers (s : State) :
    ∃ t, exec .sysReset s = .next t ∧ t.rx = { State.reset.rx with buf := t.rx.buf } ∧
      t.tx = State.reset.tx ∧ t.gCrc = State.reset.gCrc :=
  ⟨_, exec_sysReset s, s.rx.clear_eq_reset, TxRegs.cleared_eq_reset, rfl⟩

/-- Settles O36: the first conjuncts read R44's table off the reset state; `exec_sysReset_registers` says that
`SYS.RESET` produces it. -/
theorem resetStateIsTheResetTable : Obligations.ResetStateIsTheResetTable :=
  ⟨reset_rx_idle, TxRegs.cleared_eq_reset.symm, rfl, rfl, rfl, rfl, rfl, rfl, rfl, rfl, exec_sysReset_registers⟩

end Sys2Proof.Machine
end
